-- ==== Sys2Proof/Word.lean ====
section
/-! DEFINITION. The widths the spec gives its values (R11, R100, R32 to R34, R48, R51, R52): plain bit vectors,
all unsigned. No rule of the block sign-extends (R11). -/

namespace Sys2Proof

/-- A FIFO element, an operand byte, a prefix byte (R32, R102). -/
abbrev Byte := BitVec 8

/-- A command, event or response word (R100, R101, R104, R110). -/
abbrev Word := BitVec 32

/-- A priority, 0 to NPRIO - 1 with NPRIO at most 256; a larger number is a higher priority (R8, D13). -/
abbrev Prio := BitVec 8

/-- A context id: 0 idle, 1 to 12 a SW_CTX id, 0xD to 0xF as FAULT_CTX names them (R45, R52). -/
abbrev CtxId := BitVec 4

/-- A FIFO cursor or count (R33, R34). -/
abbrev Count := BitVec 16

end Sys2Proof
end

