-- ==== Sys2Proof/Config.lean ====
section
/-! DEFINITION. The implementation parameters of R8 (their constraints, R9: Machine/Operands.lean). The spec leaves their values open, so
they are data: a State carries the set it was reset with, every statement holds for every set, and no step changes it
(R31). A software handler's command program is one of the parameters (R8, SW_CTX), so the context programs of R113 are
defined here too. -/

namespace Sys2Proof

/-- ERR_RECOVERY (R8, R218): the display's reaction to an I2C error event. -/
inductive ErrRecovery
  | none
  | toStopped
  deriving DecidableEq, Repr

/-- RX_FAIL_POLICY (R8, R246): the sensor's reaction to a receive failure. -/
inductive RxFailPolicy
  | log
  | trap
  deriving DecidableEq, Repr

/-- The test `P` of a loop (R113): `field` says that the field `v[hi:lo]` of the response bound to `name` equals `value`,
and tests combine by negation, conjunction and disjunction. The names of a program are numbered.
DESIGN CHOICE (log entry 23): R113 says only "a test on a bound response", with the example `w[0] == 1`; with one-bit
fields these combinations are all the tests there can be on the bits of a program's bound responses. -/
inductive Test
  | field (name hi lo value : Nat)
  | neg (t : Test)
  | both (t u : Test)
  | either (t u : Test)
  deriving DecidableEq, Repr

/-- The end of a loop `repeat … until test`, attached to the last command of its body; `back` items before that
command stands the body's first one. -/
structure LoopEnd where
  test : Test
  back : Nat
  deriving DecidableEq, Repr

/-- One command of a context program (R113): its word, the name its response is bound to if any, and the loops whose
body ends with it, innermost first. -/
structure Item where
  word  : Word
  bind  : Option Nat
  loops : List LoopEnd
  deriving DecidableEq, Repr

/-- A context's command program (R113). -/
abbrev Program := List Item

/-- One entry of SW_CTX (R8): context id, priority, command program. -/
structure SwEntry where
  id      : CtxId
  prio    : Prio
  program : Program
  deriving DecidableEq, Repr

/-- The parameters of R8, by the spec's names: CAP, NPRIO, PRIO_I2C, PRIO_SPI, SW_CTX, NEST_MAX, DISP_ADDR7,
CTRL_PREFIX, DATA_PREFIX, ERR_RECOVERY, RX_FAIL_POLICY, EVENT_LOSS. -/
structure Config where
  cap          : Nat
  nprio        : Nat
  prioI2c      : Prio
  prioSpi      : Prio
  swCtx        : List SwEntry
  nestMax      : Nat
  dispAddr7    : BitVec 7
  ctrlPrefix   : Byte
  dataPrefix   : Byte
  errRecovery  : ErrRecovery
  rxFailPolicy : RxFailPolicy
  eventLoss    : Bool
  deriving DecidableEq, Repr

/-- The test configuration TC of 95_test_vectors.md, with a software handler 1 whose program is empty. Its values are
test choices and no claim about the hardware; `State.reset` uses it because one closed reset state needs one set
(DESIGN CHOICE, log entry 1). -/
def Config.test : Config where
  cap          := 8
  nprio        := 4
  prioI2c      := 3
  prioSpi      := 2
  swCtx        := [{ id := 1, prio := 1, program := [] }]
  nestMax      := 2
  dispAddr7    := 0x3C
  ctrlPrefix   := 0x80
  dataPrefix   := 0x40
  errRecovery  := .none
  rxFailPolicy := .log
  eventLoss    := false

end Sys2Proof
end

