-- ==== Sys2Proof/Syntax.lean ====
section
/-! DEFINITION. The commands and events of the block, one constructor per row of spec/opcode_table.json (R106, R107),
with the operand types the rules name. -/

namespace Sys2Proof

/-- A resource of the arbiter (R50): R_DISP is number 0, R_SENS number 1. -/
inductive Resource
  | disp
  | sens
  deriving DecidableEq, Repr

/-- ErrorKind (R270). -/
inductive ErrorKind
  | none
  | timeout
  | acknowledgeFailure
  | arbitrationLost
  | overrunUnderrun
  | busError
  deriving DecidableEq, Repr

/-- BusResult (R271). -/
inductive BusResult
  | ok
  | busy
  | error (k : ErrorKind)
  deriving DecidableEq, Repr

/-- The CSRs of the map of R59; no other number is listed. -/
inductive Csr
  | fifoCap
  | fifoPtr
  | fifoLen
  | fifoWptr
  | arbCur
  | arbDepth
  | arbCeilDisp
  | arbCeilSens
  | arbBase
  | dispState
  | dispLastErr
  | sensState
  | sensResult
  | sensLastErr
  | fault
  | faultWord
  deriving DecidableEq, Repr

/-- The two ports a word may arrive on (R100, R101). -/
inductive Port
  | command
  | event
  deriving DecidableEq, Repr

/-- The operations of R106 and the events of R107. -/
inductive Instr
  | fifoWrite (b : Byte)
  | fifoRead
  | fifoPeek
  | fifoLen
  | fifoIsempty
  | arbClaim (r : Resource)
  | arbRelease
  | dispKick
  | dispWaitdrain
  | sensStartRead (reg : Byte)
  | sensStartWrite (reg value : Byte)
  | resClassify (status : BitVec 5) (polled : Bool)
  | resCont (prior next : BusResult)
  | csrRead (c : Csr)
  | evI2cSb
  | evI2cTxe
  | evI2cErr (k : ErrorKind)
  | evSpiRx (b : Byte)
  | evSpiRxfail (k : ErrorKind)
  | evSwTrigger (k : CtxId)
  deriving DecidableEq, Repr

/-- The port an operation's word belongs to: UNIT = 0xF marks the event port (R101). -/
def Instr.port : Instr → Port
  | .fifoWrite _ => .command
  | .fifoRead => .command
  | .fifoPeek => .command
  | .fifoLen => .command
  | .fifoIsempty => .command
  | .arbClaim _ => .command
  | .arbRelease => .command
  | .dispKick => .command
  | .dispWaitdrain => .command
  | .sensStartRead _ => .command
  | .sensStartWrite _ _ => .command
  | .resClassify _ _ => .command
  | .resCont _ _ => .command
  | .csrRead _ => .command
  | .evI2cSb => .event
  | .evI2cTxe => .event
  | .evI2cErr _ => .event
  | .evSpiRx _ => .event
  | .evSpiRxfail _ => .event
  | .evSwTrigger _ => .event

/-- The mnemonic of the row (R106, R107). -/
def Instr.mnemonic : Instr → String
  | .fifoWrite _ => "FIFO.WRITE"
  | .fifoRead => "FIFO.READ"
  | .fifoPeek => "FIFO.PEEK"
  | .fifoLen => "FIFO.LEN"
  | .fifoIsempty => "FIFO.ISEMPTY"
  | .arbClaim _ => "ARB.CLAIM"
  | .arbRelease => "ARB.RELEASE"
  | .dispKick => "DISP.KICK"
  | .dispWaitdrain => "DISP.WAITDRAIN"
  | .sensStartRead _ => "SENS.START_READ"
  | .sensStartWrite _ _ => "SENS.START_WRITE"
  | .resClassify _ _ => "RES.CLASSIFY"
  | .resCont _ _ => "RES.CONT"
  | .csrRead _ => "CSR.READ"
  | .evI2cSb => "EV.I2C_SB"
  | .evI2cTxe => "EV.I2C_TXE"
  | .evI2cErr _ => "EV.I2C_ERR"
  | .evSpiRx _ => "EV.SPI_RX"
  | .evSpiRxfail _ => "EV.SPI_RXFAIL"
  | .evSwTrigger _ => "EV.SW_TRIGGER"

end Sys2Proof
end

