-- ==== Sys2Proof/WellFormed.lean ====
section
/-! DEFINITION. The value checks of R106 and R107 that the operand types do not already make. -/

namespace Sys2Proof

/-- The value checks that no parameter enters: an error event's kind is 1 to 5 (R107, R270); a software context's
id is 1 to 12 (R8, R9). The checks on RES.CONT and CSR.READ hold by the operand types.
The one check a parameter enters, that EV.SW_TRIGGER names an id in SW_CTX, is made by the event's meaning (R315,
Machine/Trigger.lean), since decoding a word does not know the parameters. -/
def Instr.wf : Instr → Bool
  | .fifoWrite _ => true
  | .fifoRead => true
  | .fifoPeek => true
  | .fifoLen => true
  | .fifoIsempty => true
  | .arbClaim _ => true
  | .arbRelease => true
  | .dispKick => true
  | .dispWaitdrain => true
  | .sensStartRead _ => true
  | .sensStartWrite _ _ => true
  | .resClassify _ _ => true
  | .resCont _ _ => true
  | .csrRead _ => true
  | .evI2cSb => true
  | .evI2cTxe => true
  | .evI2cErr k => decide (k ≠ .none)
  | .evSpiRx _ => true
  | .evSpiRxfail k => decide (k ≠ .none)
  | .evSwTrigger k => decide (1 ≤ k.toNat) && decide (k.toNat ≤ 12)

end Sys2Proof
end

