-- ==== Sys2Proof/Decode.lean ====
section
/-! DEFINITION. The word formats of R100 and R101, the codes of R59, R270 and R271, decoding (R105 to R109) total on any
word and any bytes with each rejection named, then encoding, then the opcode table itself as data. -/

namespace Sys2Proof

/-! ### Codes -/

/-- Resource numbers (R50, R106). -/
def Resource.number : Resource → BitVec 1
  | .disp => 0
  | .sens => 1

/-- The resource a number names. -/
def Resource.ofNumber (n : BitVec 1) : Resource :=
  if n = 0 then .disp else .sens

/-- ErrorKind codes (R270). -/
def ErrorKind.code : ErrorKind → BitVec 3
  | .none => 0
  | .timeout => 1
  | .acknowledgeFailure => 2
  | .arbitrationLost => 3
  | .overrunUnderrun => 4
  | .busError => 5

/-- Every ErrorKind, in code order. -/
def ErrorKind.all : List ErrorKind :=
  [.none, .timeout, .acknowledgeFailure, .arbitrationLost, .overrunUnderrun, .busError]

/-- The ErrorKind of a code; codes 6 and 7 are invalid (R270). -/
def ErrorKind.ofCode (n : BitVec 3) : Option ErrorKind :=
  ErrorKind.all.find? (fun k => k.code == n)

/-- BusResult codes (R271): Ok 0x00, Busy 0x01, Error(k) 0x10 | k. -/
def BusResult.code : BusResult → Byte
  | .ok => 0x00
  | .busy => 0x01
  | .error k => 0x10 ||| k.code.setWidth 8

/-- Every BusResult, in code order. -/
def BusResult.all : List BusResult :=
  [.ok, .busy] ++ ErrorKind.all.map .error

/-- The BusResult of a code; every other byte is not a valid code (R271). -/
def BusResult.ofCode (n : Byte) : Option BusResult :=
  BusResult.all.find? (fun r => r.code == n)

/-- CSR numbers (R59). -/
def Csr.number : Csr → Byte
  | .fifoCap => 0x00
  | .fifoPtr => 0x01
  | .fifoLen => 0x02
  | .fifoWptr => 0x03
  | .arbCur => 0x08
  | .arbDepth => 0x09
  | .arbCeilDisp => 0x0A
  | .arbCeilSens => 0x0B
  | .arbBase => 0x0C
  | .dispState => 0x10
  | .dispLastErr => 0x11
  | .sensState => 0x18
  | .sensResult => 0x19
  | .sensLastErr => 0x1A
  | .fault => 0x20
  | .faultWord => 0x21

/-- The listed CSRs, in number order (R59). -/
def Csr.all : List Csr :=
  [.fifoCap, .fifoPtr, .fifoLen, .fifoWptr]
    ++ [.arbCur, .arbDepth, .arbCeilDisp, .arbCeilSens, .arbBase]
    ++ [.dispState, .dispLastErr] ++ [.sensState, .sensResult, .sensLastErr] ++ [.fault, .faultWord]

/-- The CSR of a number; unlisted numbers are illegal (R59). -/
def Csr.ofNumber (n : Byte) : Option Csr :=
  Csr.all.find? (fun c => c.number == n)

/-! ### Word formats -/

/-- The one layout of formats C and E (R100, R101): {UNIT, OP, Z, B, A}. -/
def Word.pack (unit op : BitVec 4) (z b a : Byte) : Word :=
  unit ++ op ++ z ++ b ++ a

/-- UNIT, bits [31:28]. -/
def Word.unit (w : Word) : BitVec 4 := w.extractLsb' 28 4
/-- OP, bits [27:24]. -/
def Word.op (w : Word) : BitVec 4 := w.extractLsb' 24 4
/-- Z, bits [23:16]. -/
def Word.z (w : Word) : Byte := w.extractLsb' 16 8
/-- B, bits [15:8]. -/
def Word.b (w : Word) : Byte := w.extractLsb' 8 8
/-- A, bits [7:0]. -/
def Word.a (w : Word) : Byte := w.extractLsb' 0 8

/-- The four bytes of a word carried over a byte path, least significant first (R74). -/
def Word.bytes (w : Word) : List Byte :=
  [w.extractLsb' 0 8, w.extractLsb' 8 8, w.extractLsb' 16 8, w.extractLsb' 24 8]

/-- The word of four bytes, the first least significant (R74). -/
def Word.ofBytes (b0 b1 b2 b3 : Byte) : Word :=
  b3 ++ b2 ++ b1 ++ b0

/-! ### Decoding -/

/-- Why a word is illegal (R108), or why bytes hold no word. -/
inductive DecodeError
  /-- UNIT is 0xF on the command port, or not 0xF on the event port (R101). -/
  | wrongPort
  /-- UNIT is 0x6 to 0xE (R105). -/
  | reservedUnit
  /-- No row matches: an unassigned OP or a non-zero unused field (R103, R108). -/
  | noRow
  /-- A row matches and its value check fails (R106, R107). -/
  | valueCheck
  /-- Fewer than four bytes were given (R110: every word is exactly 32 bits). -/
  | short
  deriving DecidableEq, Repr

/-- A row whose unused fields must be 0 (R103). -/
def onlyIf (unusedZero : Bool) (i : Instr) : Except DecodeError Instr :=
  if unusedZero then .ok i else .error .noRow

/-- A row with a value check: the operand the check admits, or a failed check (R108). -/
def checked (unusedZero : Bool) (i : Option Instr) : Except DecodeError Instr :=
  if unusedZero then
    match i with
    | some i => .ok i
    | none => .error .valueCheck
  else .error .noRow

/-- Unit 0x0, FIFO (R106). -/
def decodeFifo (op : BitVec 4) (b a : Byte) : Except DecodeError Instr :=
  if op = 0x0 then onlyIf (b == 0) (.fifoWrite a)
  else if op = 0x1 then onlyIf (b == 0 && a == 0) .fifoRead
  else if op = 0x2 then onlyIf (b == 0 && a == 0) .fifoPeek
  else if op = 0x3 then onlyIf (b == 0 && a == 0) .fifoLen
  else if op = 0x4 then onlyIf (b == 0 && a == 0) .fifoIsempty
  else .error .noRow

/-- Unit 0x1, ARB (R106). -/
def decodeArb (op : BitVec 4) (b a : Byte) : Except DecodeError Instr :=
  if op = 0x0 then onlyIf (b == 0 && a.extractLsb' 1 7 == 0) (.arbClaim (Resource.ofNumber (a.extractLsb' 0 1)))
  else if op = 0x1 then onlyIf (b == 0 && a == 0) .arbRelease
  else .error .noRow

/-- Unit 0x2, DISP (R106). -/
def decodeDisp (op : BitVec 4) (b a : Byte) : Except DecodeError Instr :=
  if op = 0x0 then onlyIf (b == 0 && a == 0) .dispKick
  else if op = 0x1 then onlyIf (b == 0 && a == 0) .dispWaitdrain
  else .error .noRow

/-- Unit 0x3, SENS (R106). -/
def decodeSens (op : BitVec 4) (b a : Byte) : Except DecodeError Instr :=
  if op = 0x0 then onlyIf (b == 0) (.sensStartRead a)
  else if op = 0x1 then .ok (.sensStartWrite a b)
  else .error .noRow

/-- Unit 0x4, RES (R106): RES.CLASSIFY uses A[4:0] and B[0] (R102); RES.CONT needs two valid codes. -/
def decodeRes (op : BitVec 4) (b a : Byte) : Except DecodeError Instr :=
  if op = 0x0 then
    onlyIf (b.extractLsb' 1 7 == 0 && a.extractLsb' 5 3 == 0) (.resClassify (a.extractLsb' 0 5) (b.getLsbD 0))
  else if op = 0x1 then
    checked true ((BusResult.ofCode a).bind fun prior => (BusResult.ofCode b).map fun next => .resCont prior next)
  else .error .noRow

/-- Unit 0x5, CSR (R106): A is a listed number. -/
def decodeCsr (op : BitVec 4) (b a : Byte) : Except DecodeError Instr :=
  if op = 0x0 then checked (b == 0) ((Csr.ofNumber a).map .csrRead)
  else .error .noRow

/-- The kind of an error event: A[2:0], 1 to 5 (R107). -/
def eventKind (a : Byte) : Option ErrorKind :=
  (ErrorKind.ofCode (a.extractLsb' 0 3)).filter (fun k => decide (k ≠ .none))

/-- Unit 0xF, the event port (R107). -/
def decodeEv (op : BitVec 4) (b a : Byte) : Except DecodeError Instr :=
  if op = 0x0 then onlyIf (b == 0 && a == 0) .evI2cSb
  else if op = 0x1 then onlyIf (b == 0 && a == 0) .evI2cTxe
  else if op = 0x2 then checked (b == 0 && a.extractLsb' 3 5 == 0) ((eventKind a).map .evI2cErr)
  else if op = 0x8 then onlyIf (b == 0) (.evSpiRx a)
  else if op = 0x9 then checked (b == 0 && a.extractLsb' 3 5 == 0) ((eventKind a).map .evSpiRxfail)
  else if op = 0xC then
    checked (b == 0 && a.extractLsb' 4 4 == 0)
      (if 1 ≤ (a.extractLsb' 0 4).toNat ∧ (a.extractLsb' 0 4).toNat ≤ 12 then some (.evSwTrigger (a.extractLsb' 0 4))
       else none)
  else .error .noRow

/-- The command port's decode (R109). -/
def decodeCommand (w : Word) : Except DecodeError Instr :=
  if w.unit = 0xF then .error .wrongPort
  else if 0x6 ≤ w.unit then .error .reservedUnit
  else if w.z ≠ 0 then .error .noRow
  else if w.unit = 0x0 then decodeFifo w.op w.b w.a
  else if w.unit = 0x1 then decodeArb w.op w.b w.a
  else if w.unit = 0x2 then decodeDisp w.op w.b w.a
  else if w.unit = 0x3 then decodeSens w.op w.b w.a
  else if w.unit = 0x4 then decodeRes w.op w.b w.a
  else decodeCsr w.op w.b w.a

/-- The event port's decode (R109). -/
def decodeEvent (w : Word) : Except DecodeError Instr :=
  if w.unit ≠ 0xF then .error .wrongPort
  else if w.z ≠ 0 then .error .noRow
  else decodeEv w.op w.b w.a

/-- Decode a word that arrives on a port (R109). -/
def decode (p : Port) (w : Word) : Except DecodeError Instr :=
  match p with
  | .command => decodeCommand w
  | .event => decodeEvent w

/-- Decode the first word of a byte stream, least significant byte first (R74), and give the rest. -/
def decodeBytes (p : Port) : List Byte → Except DecodeError (Instr × List Byte)
  | b0 :: b1 :: b2 :: b3 :: rest => (decode p (Word.ofBytes b0 b1 b2 b3)).map fun i => (i, rest)
  | _ => .error .short

/-! ### Encoding -/

/-- The word of an instruction, from the format of R100 and the opcodes of R106 and R107. -/
def encode : Instr → Word
  | .fifoWrite b => Word.pack 0x0 0x0 0 0 b
  | .fifoRead => Word.pack 0x0 0x1 0 0 0
  | .fifoPeek => Word.pack 0x0 0x2 0 0 0
  | .fifoLen => Word.pack 0x0 0x3 0 0 0
  | .fifoIsempty => Word.pack 0x0 0x4 0 0 0
  | .arbClaim r => Word.pack 0x1 0x0 0 0 (r.number.setWidth 8)
  | .arbRelease => Word.pack 0x1 0x1 0 0 0
  | .dispKick => Word.pack 0x2 0x0 0 0 0
  | .dispWaitdrain => Word.pack 0x2 0x1 0 0 0
  | .sensStartRead reg => Word.pack 0x3 0x0 0 0 reg
  | .sensStartWrite reg value => Word.pack 0x3 0x1 0 value reg
  | .resClassify status polled => Word.pack 0x4 0x0 0 ((BitVec.ofBool polled).setWidth 8) (status.setWidth 8)
  | .resCont prior next => Word.pack 0x4 0x1 0 next.code prior.code
  | .csrRead c => Word.pack 0x5 0x0 0 0 c.number
  | .evI2cSb => Word.pack 0xF 0x0 0 0 0
  | .evI2cTxe => Word.pack 0xF 0x1 0 0 0
  | .evI2cErr k => Word.pack 0xF 0x2 0 0 (k.code.setWidth 8)
  | .evSpiRx b => Word.pack 0xF 0x8 0 0 b
  | .evSpiRxfail k => Word.pack 0xF 0x9 0 0 (k.code.setWidth 8)
  | .evSwTrigger k => Word.pack 0xF 0xC 0 0 (k.setWidth 8)

/-! ### The opcode table -/

/-- One row of R106 or R107: a word matches when `w &&& mask = pattern`. -/
structure OpcodeRow where
  mnemonic : String
  port     : Port
  pattern  : Word
  mask     : Word
  deriving DecidableEq, Repr

/-- The command rows (R106). -/
def commandRows : List OpcodeRow :=
  [⟨"FIFO.WRITE", .command, 0x00000000, 0xFFFFFF00⟩,
   ⟨"FIFO.READ", .command, 0x01000000, 0xFFFFFFFF⟩,
   ⟨"FIFO.PEEK", .command, 0x02000000, 0xFFFFFFFF⟩,
   ⟨"FIFO.LEN", .command, 0x03000000, 0xFFFFFFFF⟩,
   ⟨"FIFO.ISEMPTY", .command, 0x04000000, 0xFFFFFFFF⟩,
   ⟨"ARB.CLAIM", .command, 0x10000000, 0xFFFFFFFE⟩,
   ⟨"ARB.RELEASE", .command, 0x11000000, 0xFFFFFFFF⟩,
   ⟨"DISP.KICK", .command, 0x20000000, 0xFFFFFFFF⟩,
   ⟨"DISP.WAITDRAIN", .command, 0x21000000, 0xFFFFFFFF⟩,
   ⟨"SENS.START_READ", .command, 0x30000000, 0xFFFFFF00⟩,
   ⟨"SENS.START_WRITE", .command, 0x31000000, 0xFFFF0000⟩,
   ⟨"RES.CLASSIFY", .command, 0x40000000, 0xFFFFFEE0⟩,
   ⟨"RES.CONT", .command, 0x41000000, 0xFFFF0000⟩,
   ⟨"CSR.READ", .command, 0x50000000, 0xFFFFFF00⟩]

/-- The event rows (R107). -/
def eventRows : List OpcodeRow :=
  [⟨"EV.I2C_SB", .event, 0xF0000000, 0xFFFFFFFF⟩,
   ⟨"EV.I2C_TXE", .event, 0xF1000000, 0xFFFFFFFF⟩,
   ⟨"EV.I2C_ERR", .event, 0xF2000000, 0xFFFFFFF8⟩,
   ⟨"EV.SPI_RX", .event, 0xF8000000, 0xFFFFFF00⟩,
   ⟨"EV.SPI_RXFAIL", .event, 0xF9000000, 0xFFFFFFF8⟩,
   ⟨"EV.SW_TRIGGER", .event, 0xFC000000, 0xFFFFFFF0⟩]

/-- spec/opcode_table.json, in its order. -/
def opcodeTable : List OpcodeRow := commandRows ++ eventRows

/-- A word matches a row on a port (R106, R109). -/
def OpcodeRow.accepts (r : OpcodeRow) (p : Port) (w : Word) : Prop :=
  r.port = p ∧ w &&& r.mask = r.pattern

/-- The port a table word belongs to, by its unit (R101). -/
def portOf (w : Word) : Port :=
  if w.unit = 0xF then .event else .command

/-- What this decoder reads from a row's word, presented on the port its unit belongs to: the word is laid out as its
four bytes (R74) and those are decoded. -/
def decodeTableWord (nbits w : Nat) : Option Instr :=
  if nbits ≤ 32 ∧ w < 2 ^ 32 then
    match decodeBytes (portOf (BitVec.ofNat 32 w)) (Word.bytes (BitVec.ofNat 32 w)) with
    | .ok (i, _) => some i
    | .error _ => none
  else none

end Sys2Proof
end

