-- ==== Sys2Proof/Machine/State.lean ====
section
/-! DEFINITION. The block's state (R30), every element of it; beside it the parameters the block was reset with (R31),
the response port (R104), and the agents' own data: each software context's program position (R57, R113) and the
choices of the outside world still to come (R309, R330). Plain data throughout. -/

namespace Sys2Proof.Machine

/-- The I2C bus agent's interface phase (R53). -/
inductive I2cPhase
  | idle
  | sbPending
  | txBusy
  | txReady
  | stalled
  deriving DecidableEq, Repr

/-- The display channel state (R39): DISP_TAG with DISP_REM, the counter of the last three variants; in the first two
DISP_REM is 0. -/
inductive DispState
  | stopped
  | idle
  | control (remaining : Byte)
  | control2 (remaining : Byte)
  | data (remaining : Byte)
  deriving DecidableEq, Repr

/-- The sensor transaction state SENS_TAG (R43). No rule enters the two write tags (R240). -/
inductive SensTag
  | idle
  | readFirst
  | readSecond
  | writeFirst
  | writeSecond
  | finished
  deriving DecidableEq, Repr

/-- The sensor action (R44): SENS_ISWRITE with SENS_VALUE, which is 0 for a read. -/
inductive SensAction
  | read
  | write (value : Byte)
  deriving DecidableEq, Repr

/-- A wire action of TRACE (R55). -/
inductive WireAction
  | i2cStart
  | i2cRestart
  | i2cWrite (b : Byte)
  | spiSelect
  | spiWrite (b : Byte)
  | spiRelease
  deriving DecidableEq, Repr

/-- The fault codes of R301, `none` for code 0x00. -/
inductive FaultCode
  | none
  | dispStoppedTxe
  | dispCtrl2Zero
  | sensUnexpectedEvent
  | sensBusy
  | arbReleaseEmpty
  | arbNestOverflow
  | arbAboveCeiling
  | arbUnclaimed
  | arbClaimLeak
  | illegalCmd
  | waitContext
  | sensRxfail
  deriving DecidableEq, Repr

/-- A software context's place in its own program: agent state outside the block (R57), with the responses its program
has bound to names (R113). -/
structure Place where
  code : Program
  pos  : Nat
  vars : List (Nat × Word)
  deriving DecidableEq, Repr

/-- One context frame of FRAMES (R45): `claims` holds the saved priorities, most recent last. `place` is the context's
own program position, which its frame carries through preemption (R312). -/
structure Frame where
  ctx    : CtxId
  base   : Prio
  cur    : Prio
  claims : List Prio
  place  : Place
  deriving DecidableEq, Repr

/-- The possible next steps of R309, as the outside world names them: (a) and (d) an event word on the event port or
the entry of software handler k, (b) and (e) the running software context's own next step, (c) the bus agents'
internal steps of R322 and R328. -/
inductive Choice
  | event (w : Word)
  | enter (k : CtxId)
  | context
  | i2cByteOut
  | loseTxe
  | loseSb
  | loseSpi
  deriving DecidableEq, Repr

/-- The state. The first groups are R30's elements, the unit that owns them as there. FRAMES is `preempted`, nearest
first, below `running`, its top frame, so that a top frame always exists (`State.frames` is the spec's view). The last
group is the model's own: the response port (R104), whether the idle context has finished its program (R313, R319), and
the choices still to come, oldest first. -/
structure State where
  /-- The parameters of R8; no step changes them (R31). -/
  cfg         : Config
  /-- BUF (R32): slot and byte, in the canonical form of `Memory.wf`. -/
  buf         : List Host.Cell
  fifoPtr     : Count
  fifoLen     : Count
  disp        : DispState
  dispArmed   : Bool
  dispLastErr : ErrorKind
  sensTag     : SensTag
  sensAction  : SensAction
  sensResult  : Byte
  sensLastErr : ErrorKind
  running     : Frame
  preempted   : List Frame
  /-- CEIL[R_DISP] (R49). -/
  ceilDisp    : Prio
  /-- CEIL[R_SENS] (R49). -/
  ceilSens    : Prio
  pending     : BitVec 16
  faultCode   : FaultCode
  faultWord   : Word
  faultCtx    : CtxId
  halted      : Bool
  i2cPhase    : I2cPhase
  spiBusy     : Bool
  spiSel      : Bool
  trace       : List WireAction
  /-- The response of the last step, if it gave one (R104). -/
  rsp         : Option Word
  idleDone    : Bool
  schedule    : List Choice
  deriving DecidableEq, Repr

/-- Where the machine stops outside the spec's own fault mechanism: accesses to what does not exist. The spec's faults
(R300) are next states with HALTED set. No state that meets the FIFO and arbiter invariants reaches either. -/
inductive Fault
  /-- Raised by a read of BUF at an index that is not below CAP (R14, R32: no such slot). Safe: the model stops. -/
  | noSuchSlot
  /-- Raised by the end of a software handler's program when FRAMES holds no frame below it (R45: the bottom frame is
  always the idle context's). Safe: the model stops. -/
  | noFrameBelow
  deriving DecidableEq, Repr

/-- A step the outside world presents and the relation does not have (R309, R311, R318): the state is unchanged. Each is
safe: the spec's own treatment is that the step does not exist. -/
inductive Refusal
  /-- Raised by an arm of exec for an instruction without a meaning; none is left. Safe. -/
  | notModelled (mnemonic : String)
  /-- Raised by a bus event whose delivery condition does not hold (R311). Safe. -/
  | eventNotDeliverable
  /-- Raised by the entry of a software handler that is not pending or not deliverable (R309, R312). Safe. -/
  | handlerNotDeliverable
  /-- Raised by a step of the running context while a delivery is forced above it (R309 (b), (e)). Safe. -/
  | deliveryForced
  /-- Raised by a step of a context that has none: the idle context after its end, or the end of a program on a halted
  block (R302, R313). Safe. -/
  | contextHasNoStep
  /-- Raised by DISP.WAITDRAIN in the idle context outside any claim while 2 × FIFO_LEN ≥ CAP: it is not complete, and the
  idle context has no step (R202, R318). Safe. -/
  | drainWaitIncomplete
  /-- Raised by a bus agent's internal step whose condition does not hold (R322, R328). Safe. -/
  | agentHasNoStep
  /-- Raised by step when the schedule is empty: no choice of the outside world is left. Safe. -/
  | scheduleEmpty
  deriving DecidableEq, Repr

/-- The outcome of a meaning. -/
abbrev Result := Host.Outcome State Fault Refusal

/-- The idle context's frame at reset (R60), with the program it starts at its first item (R352). -/
def Frame.idle (program : Program) : Frame :=
  { ctx := 0, base := 0, cur := 0, claims := [], place := { code := program, pos := 0, vars := [] } }

/-- The machine after reset (R60, R350, R352), with the parameters of `Config.test`. DESIGN CHOICE (log entries 1 and
2): the parameter set, the draws R60 leaves (BUF and SENS_RESULT, here 0), an idle program with no item and an empty
schedule; `State.resetWith` gives the reset state of every other set and draw. -/
def State.reset : State where
  cfg         := Config.test
  buf         := []
  fifoPtr     := 0
  fifoLen     := 0
  disp        := .stopped
  dispArmed   := false
  dispLastErr := .none
  sensTag     := .idle
  sensAction  := .read
  sensResult  := 0
  sensLastErr := .none
  running     := Frame.idle []
  preempted   := []
  ceilDisp    := Config.test.prioI2c
  ceilSens    := Config.test.prioSpi
  pending     := 0
  faultCode   := .none
  faultWord   := 0
  faultCtx    := 0
  halted      := false
  i2cPhase    := .idle
  spiBusy     := false
  spiSel      := false
  trace       := []
  rsp         := none
  idleDone    := false
  schedule    := []

end Sys2Proof.Machine
end

