-- ==== Sys2Proof/Machine/Flags.lean ====
section
/-! DEFINITION. The block has no condition-code register (R58): its flags are derived from the FIFO's count and cursor
(R36, R37, R208), and a command reports them in its response. -/

namespace Sys2Proof.Machine

/-- fifo_empty (R37). -/
def State.fifoEmpty (s : State) : Bool := s.fifoLen == 0

/-- fifo_full (R37). -/
def State.fifoFull (s : State) : Bool := s.fifoLen.toNat == s.cfg.cap

/-- FIFO_WPTR, the slot the next accepted write fills (R36). -/
def State.fifoWptr (s : State) : Nat := (s.fifoPtr.toNat + s.fifoLen.toNat) % s.cfg.cap

/-- The drain threshold: 2 × FIFO_LEN < CAP (R202, R208). -/
def State.drained (s : State) : Bool := decide (2 * s.fifoLen.toNat < s.cfg.cap)

/-- A one-bit result in RSP[0] (R140, R145, R201). -/
def bitResponse (b : Bool) : Word := (BitVec.ofBool b).setWidth 32

end Sys2Proof.Machine
end

