-- ==== Sys2Proof/Machine/Operands.lean ====
section
/-! DEFINITION. The constraints on the parameters (R9), the codes and views of the state's fields (R39, R43 to R45, R301),
and every operand and response form: the packet header (R200), the I2C address byte (R204), the classifier's status bits
(R273), and the response forms (R104, R141, R274). -/

namespace Sys2Proof

/-- A priority a handler may have: 1 to NPRIO - 1 (R9). -/
def Config.handlerPrio (c : Config) (p : Prio) : Bool :=
  decide (1 ≤ p.toNat) && decide (p.toNat ≤ c.nprio - 1)

/-- The constraints of R8 and R9 that a parameter set must meet before reset (DISP_ADDR7 ≤ 127 holds by its width). -/
def Config.wf (c : Config) : Bool :=
  decide (1 ≤ c.cap) && decide (c.cap ≤ 65535)
    && decide (2 ≤ c.nprio) && decide (c.nprio ≤ 256)
    && c.handlerPrio c.prioI2c && c.handlerPrio c.prioSpi
    && decide (c.swCtx.length ≤ 12)
    && c.swCtx.all (fun e => decide (1 ≤ e.id.toNat) && decide (e.id.toNat ≤ 12) && c.handlerPrio e.prio)
    && decide (c.swCtx.map SwEntry.id).Nodup
    && decide (1 ≤ c.nestMax) && decide (c.nestMax ≤ 255)
    && decide (c.ctrlPrefix ≠ c.dataPrefix)

/-- The entry of SW_CTX with this id, if there is one (ids are distinct, R9). -/
def Config.swEntry (c : Config) (k : CtxId) : Option SwEntry :=
  c.swCtx.find? (fun e => e.id == k)

end Sys2Proof

namespace Sys2Proof.Machine

/-! ### Codes and views of the state -/

/-- DISP_TAG's 3-bit code (R39). -/
def DispState.tag : DispState → BitVec 3
  | .stopped => 0
  | .idle => 1
  | .control _ => 2
  | .control2 _ => 3
  | .data _ => 4

/-- DISP_REM (R39). -/
def DispState.rem : DispState → Byte
  | .stopped => 0
  | .idle => 0
  | .control n => n
  | .control2 n => n
  | .data n => n

/-- SENS_TAG's 3-bit code (R43). -/
def SensTag.code : SensTag → BitVec 3
  | .idle => 0
  | .readFirst => 1
  | .readSecond => 2
  | .writeFirst => 3
  | .writeSecond => 4
  | .finished => 5

/-- I2C_PHASE's code, 0 to 4 (R53). No word shows it, so its width is the model's. -/
def I2cPhase.code : I2cPhase → BitVec 3
  | .idle => 0
  | .sbPending => 1
  | .txBusy => 2
  | .txReady => 3
  | .stalled => 4

/-- SENS_ISWRITE (R44). -/
def SensAction.isWrite : SensAction → Bool
  | .read => false
  | .write _ => true

/-- SENS_VALUE (R44). -/
def SensAction.value : SensAction → Byte
  | .read => 0
  | .write v => v

/-- FAULT_CODE's 8-bit value (R301). -/
def FaultCode.code : FaultCode → Byte
  | .none => 0x00
  | .dispStoppedTxe => 0x01
  | .dispCtrl2Zero => 0x02
  | .sensUnexpectedEvent => 0x03
  | .sensBusy => 0x04
  | .arbReleaseEmpty => 0x05
  | .arbNestOverflow => 0x06
  | .arbAboveCeiling => 0x07
  | .arbUnclaimed => 0x08
  | .arbClaimLeak => 0x09
  | .illegalCmd => 0x0A
  | .waitContext => 0x0B
  | .sensRxfail => 0x0C

/-- FRAMES, bottom first (R45). -/
def State.frames (s : State) : List Frame :=
  s.preempted.reverse ++ [s.running]

/-- DISP_TAG (R39). -/
def State.dispTag (s : State) : BitVec 3 := s.disp.tag
/-- DISP_REM (R39). -/
def State.dispRem (s : State) : Byte := s.disp.rem
/-- SENS_ISWRITE (R44). -/
def State.sensIsWrite (s : State) : Bool := s.sensAction.isWrite
/-- SENS_VALUE (R44). -/
def State.sensValue (s : State) : Byte := s.sensAction.value

/-! ### Operands and responses -/

/-- Bit 7 of a packet header: set for Control framing, clear for Data framing (R200). -/
def headerIsControl (h : Byte) : Bool := h.getLsbD 7

/-- h[6:0], the payload length of a packet header, 0 to 127 (R200), as the 8-bit counter it is stored in. -/
def headerLength (h : Byte) : Byte := (h.extractLsb' 0 7).setWidth 8

/-- The address byte {DISP_ADDR7, 0}: the 7-bit address above the write direction bit (R204). -/
def addressByte (c : Config) : Byte := c.dispAddr7 ++ (0 : BitVec 1)

/-- The fault response {1, zext_31(code)} (R104, R300). -/
def faultResponse (c : FaultCode) : Word := (1 : BitVec 1) ++ c.code.setWidth 31

/-- The response {1, b} of a read or peek that found a byte: RSP[8] valid, RSP[7:0] the byte (R141, R143). -/
def validResponse (b : Byte) : Word := ((1 : BitVec 1) ++ b).setWidth 32

/-- RES.CONT's response: RSP[8] executed, RSP[7:0] the result (R274). -/
def contResponse (executed : Bool) (r : BusResult) : Word := (BitVec.ofBool executed ++ r.code).setWidth 32

/-- The classifier's fixed first-match order over the status bits, then the polled flag (R272, R273). -/
def classify (status : BitVec 5) (polled : Bool) : BusResult :=
  if status.getLsbD 0 then .error .timeout
  else if status.getLsbD 1 then .error .acknowledgeFailure
  else if status.getLsbD 2 then .error .arbitrationLost
  else if status.getLsbD 3 then .error .overrunUnderrun
  else if status.getLsbD 4 then .error .busError
  else if polled then .ok
  else .busy

/-- The resource a CSR's read must pass the access check of, by the resource column of R59. -/
def csrResource : Csr → Option Resource
  | .fifoCap => none
  | .fifoPtr => some .disp
  | .fifoLen => some .disp
  | .fifoWptr => some .disp
  | .arbCur => none
  | .arbDepth => none
  | .arbCeilDisp => none
  | .arbCeilSens => none
  | .arbBase => none
  | .dispState => some .disp
  | .dispLastErr => some .disp
  | .sensState => some .sens
  | .sensResult => some .sens
  | .sensLastErr => some .sens
  | .fault => none
  | .faultWord => none

end Sys2Proof.Machine
end

