-- ==== Sys2Proof/Machine/Ops.lean ====
section
/-! DEFINITION. The operations the meanings share: BUF as memory (R14, R32), the FIFO's push, pop and head (R140, R206),
wire actions and their effect on the bus agents' interface (R15, R320, R321, R326), the access check (R170), delivery
and scheduling (R308 to R310), and the two ways a step ends: completing, or taking a fault (R300, R302). -/

namespace Sys2Proof.Machine

/-! ### BUF -/

/-- What a slot that nothing has written reads as. R60 leaves it a draw that no command can observe (R38); here 0
(DESIGN CHOICE, log entry 2). -/
def Memory.unlisted : Byte := 0

/-- The byte at an index. -/
def Memory.read : List Host.Cell → Nat → Byte
  | [], _ => Memory.unlisted
  | c :: m, i => if c.1 = i then c.2 else Memory.read m i

/-- Write a byte and keep the canonical form: the value an unlisted index reads as removes the entry. -/
def Memory.write : List Host.Cell → Nat → Byte → List Host.Cell
  | [], i, v => if v = Memory.unlisted then [] else [(i, v)]
  | c :: m, i, v =>
    if i < c.1 then (if v = Memory.unlisted then c :: m else (i, v) :: c :: m)
    else if i = c.1 then (if v = Memory.unlisted then m else (i, v) :: m)
    else c :: Memory.write m i v

/-- The canonical form: indices strictly rising, no entry equal to what an unlisted index reads as. -/
abbrev Memory.wf (m : List Host.Cell) : Prop :=
  (m.map Prod.fst).Pairwise (· < ·) ∧ ∀ c ∈ m, c.2 ≠ Memory.unlisted

/-- MemRead(i, 1): BUF[i], for i below CAP (R14); there is no other slot. -/
def State.memRead (s : State) (i : Nat) : Option Byte :=
  if i < s.cfg.cap then some (Memory.read s.buf i) else none

/-- MemWrite(i, 1, v), for i below CAP (R14). -/
def State.memWrite (s : State) (i : Nat) (v : Byte) : Option State :=
  if i < s.cfg.cap then some { s with buf := Memory.write s.buf i v } else none

/-! ### The FIFO -/

/-- The FIFO's abstract value, oldest byte first (R35). -/
def State.fifoList (s : State) : List Byte :=
  (List.range s.fifoLen.toNat).map fun k => Memory.read s.buf ((s.fifoPtr.toNat + k) % s.cfg.cap)

/-- The cursor's only advance (R142). -/
def State.nextPtr (s : State) : Count := BitVec.ofNat 16 ((s.fifoPtr.toNat + 1) % s.cfg.cap)

/-- Store a byte at FIFO_WPTR and count it: the accepting branch of FIFO.WRITE (R140). -/
def State.push (s : State) (b : Byte) : Option State :=
  (s.memWrite s.fifoWptr b).map fun t => { t with fifoLen := t.fifoLen + 1 }

/-- head(): the oldest byte, without change (R206). -/
def State.head (s : State) : Option Byte := s.memRead s.fifoPtr.toNat

/-- pop(): the oldest byte, consumed (R206); the non-empty branch of FIFO.READ (R141). -/
def State.pop (s : State) : Option (Byte × State) :=
  s.head.map fun b => (b, { s with fifoPtr := s.nextPtr, fifoLen := s.fifoLen - 1 })

/-! ### Wire actions -/

/-- I2C_PHASE after a wire action (R320, R321). -/
def phaseAfter (a : WireAction) (p : I2cPhase) : I2cPhase :=
  match a with
  | .i2cStart => .sbPending
  | .i2cRestart => .sbPending
  | .i2cWrite _ => .txBusy
  | .spiSelect => p
  | .spiWrite _ => p
  | .spiRelease => p

/-- SPI_BUSY after a wire action (R326). -/
def busyAfter (a : WireAction) (busy : Bool) : Bool :=
  match a with
  | .spiWrite _ => true
  | .i2cStart => busy
  | .i2cRestart => busy
  | .i2cWrite _ => busy
  | .spiSelect => busy
  | .spiRelease => busy

/-- SPI_SEL after a wire action (R326). -/
def selAfter (a : WireAction) (sel : Bool) : Bool :=
  match a with
  | .spiSelect => true
  | .spiRelease => false
  | .spiWrite _ => sel
  | .i2cStart => sel
  | .i2cRestart => sel
  | .i2cWrite _ => sel

/-- emit A (R15): append to TRACE and update the bus agent's interface state. -/
def State.emit (s : State) (a : WireAction) : State :=
  { s with
    trace := s.trace ++ [a]
    i2cPhase := phaseAfter a s.i2cPhase
    spiBusy := busyAfter a s.spiBusy
    spiSel := selAfter a s.spiSel }

/-! ### Responses and faults -/

/-- respond(v) (R15, R104). -/
def State.respond (s : State) (v : Word) : State := { s with rsp := some v }

/-- Taking a fault (R15, R300): the four fault fields are the step's only effects, so this is applied to the state
before the step. `w` is the word the step executed and `c` the context performing it. -/
def State.raiseFault (s : State) (code : FaultCode) (w : Word) (c : CtxId) : State :=
  { s with faultCode := code, faultWord := w, faultCtx := c, halted := true }

/-- FAULT_CTX of an event-port word that is not a delivery (R52, R300). -/
def ctxEventPort : CtxId := 0xD
/-- FAULT_CTX of an I2C handler step (R52, R300). -/
def ctxI2c : CtxId := 0xE
/-- FAULT_CTX of an SPI handler step (R52, R300). -/
def ctxSpi : CtxId := 0xF

/-- What a rule's pseudocode comes to: its writes, a raised fault, or an access to what does not exist. -/
inductive Attempt
  | done (s : State)
  | raise (c : FaultCode)
  | stop (f : Fault)
  deriving DecidableEq, Repr

/-- A check that raises its fault, if it fails, before the rest of the pseudocode runs (R304). -/
def Attempt.unless (failed : Option FaultCode) (rest : Attempt) : Attempt :=
  match failed with
  | some c => .raise c
  | none => rest

/-- A command of the running software context (R109, R300, R302): a halted block answers with its fault code and does
nothing; otherwise the rule's outcome, where a raised fault discards the rule's writes and answers the context. -/
def runCommand (w : Word) (s : State) (a : Attempt) : Result :=
  if s.halted then .next (s.respond (faultResponse s.faultCode))
  else
    match a with
    | .done t => .next t
    | .raise c => .next ((s.raiseFault c w s.running.ctx).respond (faultResponse c))
    | .stop f => .fault f

/-- A step on the event port (R300, R302, R311): a halted block ignores it; a bus event whose delivery condition does
not hold is a step that does not exist; otherwise the rule's outcome. Events return no response (R104). -/
def runEvent (w : Word) (c : CtxId) (deliverable : Bool) (s : State) (a : Attempt) : Result :=
  if s.halted then .next s
  else if !deliverable then .refused .eventNotDeliverable
  else
    match a with
    | .done t => .next t
    | .raise code => .next (s.raiseFault code w c)
    | .stop f => .fault f

/-! ### The access check -/

/-- CEIL[r] (R49). -/
def State.ceil (s : State) : Resource → Prio
  | .disp => s.ceilDisp
  | .sens => s.ceilSens

/-- access(r) for a frame with this base and current priority (R170): the fault it raises, if it fails. -/
def State.access (s : State) (r : Resource) (base cur : Prio) : Option FaultCode :=
  if s.ceil r < base then some .arbAboveCeiling
  else if cur < s.ceil r then some .arbUnclaimed
  else none

/-- The check a command makes: F is the top frame of FRAMES (R170). -/
def State.accessRunning (s : State) (r : Resource) : Option FaultCode :=
  s.access r s.running.base s.running.cur

/-! ### Delivery and scheduling -/

/-- A handler source (R307). -/
inductive Handler
  | i2c
  | spi
  | sw (k : CtxId)
  deriving DecidableEq, Repr

/-- prio(h) (R307, R309); 0, which is never deliverable, for an id that is not in SW_CTX. -/
def Handler.prio (c : Config) : Handler → Nat
  | .i2c => c.prioI2c.toNat
  | .spi => c.prioSpi.toNat
  | .sw k => match c.swEntry k with
    | some e => e.prio.toNat
    | none => 0

/-- PENDING[k] (R51). -/
def State.isPending (s : State) (k : CtxId) : Bool := s.pending.getLsbD k.toNat

/-- PENDING's word with bit k alone set (R51). -/
def pendingBit (k : CtxId) : BitVec 16 := (1 : BitVec 16) <<< k.toNat

/-- ready(h) (R309). An SPI completion is never ready: its time is free. -/
def State.ready (s : State) : Handler → Bool
  | .i2c => s.i2cPhase == .sbPending || (s.i2cPhase == .txReady && s.dispArmed)
  | .spi => false
  | .sw k => s.isPending k

/-- avail(h) (R309). -/
def State.avail (s : State) : Handler → Bool
  | .i2c => s.i2cPhase == .sbPending || s.i2cPhase == .txBusy || s.i2cPhase == .txReady
  | .spi => s.spiBusy
  | .sw k => s.isPending k

/-- deliverable(h) (R309): strictly above ARB_CUR. -/
def State.deliverable (s : State) (h : Handler) : Bool :=
  !s.halted && s.avail h && decide (s.running.cur.toNat < h.prio s.cfg)

/-- The handlers the block has (R307). -/
def State.handlers (s : State) : List Handler :=
  [.i2c, .spi] ++ s.cfg.swCtx.map fun e => .sw e.id

/-- `forced` (R309): the largest priority of a ready, deliverable handler, 0 for none (a deliverable handler's priority
is above ARB_CUR, so at least 1). -/
def State.forced (s : State) : Nat :=
  ((s.handlers.filter fun h => s.ready h && s.deliverable h).map (Handler.prio s.cfg)).foldr max 0

/-- R309 (a): h may be delivered now. Among equal priorities every order is admitted (R310). -/
def State.canDeliver (s : State) (h : Handler) : Bool :=
  s.deliverable h && decide (s.forced ≤ h.prio s.cfg)

/-! ### Named updates -/

/-- Replace the top frame of FRAMES. -/
def State.setRunning (s : State) (f : Frame) : State := { s with running := f }

/-- Suspend the channel (R205), and the disarm of starvation (R207). -/
def State.disarm (s : State) : State := { s with dispArmed := false }

end Sys2Proof.Machine
end

