-- ==== Sys2Proof/Machine/Arb.lean ====
section
/-! DEFINITION. The ARB unit (41_arbiter.md): the claim stack of the top frame. -/

namespace Sys2Proof.Machine

/-- ARB.CLAIM (R172). -/
def execArbClaim (r : Resource) (s : State) : Result :=
  runCommand (encode (.arbClaim r)) s <|
    if s.ceil r < s.running.base then .raise .arbAboveCeiling
    else if s.running.claims.length = s.cfg.nestMax then .raise .arbNestOverflow
    else
      let f := { s.running with
        claims := s.running.claims ++ [s.running.cur]
        cur := if s.running.cur < s.ceil r then s.ceil r else s.running.cur }
      .done ((s.setRunning f).respond (f.cur.setWidth 32))

/-- ARB.RELEASE (R173). -/
def execArbRelease (s : State) : Result :=
  runCommand (encode .arbRelease) s <|
    match s.running.claims.getLast? with
    | none => .raise .arbReleaseEmpty
    | some p =>
      .done ((s.setRunning { s.running with cur := p, claims := s.running.claims.dropLast }).respond (p.setWidth 32))

end Sys2Proof.Machine
end

