-- ==== Sys2Proof/Machine/Csr.lean ====
section
/-! DEFINITION. The CSR unit (45_system.md) and the map of R59. -/

namespace Sys2Proof.Machine

/-- The value of a CSR, assembled as its bits column says, unlisted bits 0 (R59). -/
def csrValue (c : Csr) (s : State) : Word :=
  match c with
  | .fifoCap => (BitVec.ofNat 16 s.cfg.cap).setWidth 32
  | .fifoPtr => s.fifoPtr.setWidth 32
  | .fifoLen => s.fifoLen.setWidth 32
  | .fifoWptr => (BitVec.ofNat 16 s.fifoWptr).setWidth 32
  | .arbCur => s.running.cur.setWidth 32
  | .arbDepth => (BitVec.ofNat 8 s.running.claims.length).setWidth 32
  | .arbCeilDisp => s.ceilDisp.setWidth 32
  | .arbCeilSens => s.ceilSens.setWidth 32
  | .arbBase => (0 : BitVec 20) ++ s.running.ctx ++ s.running.base
  | .dispState => (0 : BitVec 15) ++ BitVec.ofBool s.dispArmed ++ s.dispRem ++ (0 : BitVec 5) ++ s.dispTag
  | .dispLastErr => s.dispLastErr.code.setWidth 32
  | .sensState =>
    (0 : BitVec 8) ++ s.sensValue ++ (0 : BitVec 7) ++ BitVec.ofBool s.sensIsWrite ++ (0 : BitVec 5) ++ s.sensTag.code
  | .sensResult => s.sensResult.setWidth 32
  | .sensLastErr => s.sensLastErr.code.setWidth 32
  | .fault => (0 : BitVec 16) ++ s.faultCtx ++ (0 : BitVec 3) ++ BitVec.ofBool s.halted ++ s.faultCode.code
  | .faultWord => s.faultWord

/-- The access check of a CSR's resource; rows of resource "none" have none (R59, R290). -/
def csrAccess (c : Csr) (s : State) : Option FaultCode :=
  match csrResource c with
  | some r => s.accessRunning r
  | none => none

/-- CSR.READ (R290): the one command that still executes on a halted block, without its access check (R302). -/
def execCsrRead (c : Csr) (s : State) : Result :=
  if s.halted then .next (s.respond (csrValue c s))
  else
    runCommand (encode (.csrRead c)) s <|
      Attempt.unless (csrAccess c s) <|
        .done (s.respond (csrValue c s))

end Sys2Proof.Machine
end

