-- ==== Sys2Proof/Machine/Fifo.lean ====
section
/-! DEFINITION. The FIFO unit (40_fifo.md): all five operations touch R_DISP and begin with its access check. -/

namespace Sys2Proof.Machine

/-- A value taken from a slot, or the stop of a slot that does not exist. -/
def withSlot (v : Option α) (f : α → Attempt) : Attempt :=
  match v with
  | some x => f x
  | none => .stop .noSuchSlot

/-- FIFO.WRITE (R140). -/
def execFifoWrite (b : Byte) (s : State) : Result :=
  runCommand (encode (.fifoWrite b)) s <|
    Attempt.unless (s.accessRunning .disp) <|
      if s.fifoFull then .done (s.respond (bitResponse false))
      else withSlot (s.push b) fun t => .done (t.respond (bitResponse true))

/-- FIFO.READ (R141). -/
def execFifoRead (s : State) : Result :=
  runCommand (encode .fifoRead) s <|
    Attempt.unless (s.accessRunning .disp) <|
      if s.fifoEmpty then .done (s.respond 0)
      else withSlot s.pop fun bt => .done (bt.2.respond (validResponse bt.1))

/-- FIFO.PEEK (R143). -/
def execFifoPeek (s : State) : Result :=
  runCommand (encode .fifoPeek) s <|
    Attempt.unless (s.accessRunning .disp) <|
      if s.fifoEmpty then .done (s.respond 0)
      else withSlot s.head fun b => .done (s.respond (validResponse b))

/-- FIFO.LEN (R144). -/
def execFifoLen (s : State) : Result :=
  runCommand (encode .fifoLen) s <|
    Attempt.unless (s.accessRunning .disp) <|
      .done (s.respond (s.fifoLen.setWidth 32))

/-- FIFO.ISEMPTY (R145). -/
def execFifoIsempty (s : State) : Result :=
  runCommand (encode .fifoIsempty) s <|
    Attempt.unless (s.accessRunning .disp) <|
      .done (s.respond (bitResponse s.fifoEmpty))

end Sys2Proof.Machine
end

