-- ==== Sys2Proof/Machine/Disp.lean ====
section
/-! DEFINITION. The DISP unit (42_display.md): the producer's two commands and the I2C handler's three events. -/

namespace Sys2Proof.Machine

/-- DISP.KICK (R201). -/
def execDispKick (s : State) : Result :=
  runCommand (encode .dispKick) s <|
    Attempt.unless (s.accessRunning .disp) <|
      if s.disp = .stopped then
        .done (({ s with disp := .idle, dispArmed := true }.emit .i2cStart).respond (bitResponse true))
      else .done ({ s with dispArmed := true }.respond (bitResponse false))

/-- DISP.WAITDRAIN is not complete: the idle context, outside any claim, has no step (R202, R318). -/
def State.waiting (s : State) : Bool :=
  !s.halted && decide (s.running.ctx = 0) && decide (s.running.claims = []) && !s.drained

/-- DISP.WAITDRAIN (R202): no access check. While it is not complete the step does not exist; the condition is looked at
anew whenever the context's step is chosen (R318). -/
def execDispWaitdrain (s : State) : Result :=
  if s.waiting then .refused .drainWaitIncomplete
  else
    runCommand (encode .dispWaitdrain) s <|
      if s.running.ctx ≠ 0 ∨ s.running.claims ≠ [] then .raise .waitContext
      else .done (s.respond (s.fifoLen.setWidth 32))

/-- A step of the I2C handler (R307, R314): its own frame has base and current priority PRIO_I2C. -/
def runI2c (i : Instr) (condition : Bool) (s : State) (a : Attempt) : Result :=
  runEvent (encode i) ctxI2c (condition && s.canDeliver .i2c) s <|
    Attempt.unless (s.access .disp s.cfg.prioI2c s.cfg.prioI2c) a

/-- EV.I2C_SB (R210), deliverable in SB_PENDING (R323). -/
def execEvI2cSb (s : State) : Result :=
  runI2c .evI2cSb (s.i2cPhase == .sbPending) s <|
    .done (s.emit (.i2cWrite (addressByte s.cfg)))

/-- idle_logic() (R207). -/
def idleLogic (s : State) : Attempt :=
  if s.fifoEmpty then .done ({ s with disp := .idle }.disarm)
  else
    withSlot s.pop fun ht =>
      if headerIsControl ht.1 then
        .done ({ ht.2 with disp := .control2 (headerLength ht.1) }.emit (.i2cWrite s.cfg.ctrlPrefix))
      else .done ({ ht.2 with disp := .data (headerLength ht.1) }.emit (.i2cWrite s.cfg.dataPrefix))

/-- EV.I2C_TXE in Control(n) (R214). -/
def txeControl (n : Byte) (s : State) : Attempt :=
  if n ≠ 0 then .done ({ s with disp := .control2 n }.emit (.i2cWrite s.cfg.ctrlPrefix))
  else idleLogic s

/-- EV.I2C_TXE in Control2(n) (R215). -/
def txeControl2 (n : Byte) (s : State) : Attempt :=
  if n = 0 then .raise .dispCtrl2Zero
  else if s.fifoEmpty then .done s.disarm
  else withSlot s.pop fun bt => .done ({ bt.2 with disp := .control (n - 1) }.emit (.i2cWrite bt.1))

/-- EV.I2C_TXE in Data(n), n > 0 (R216). -/
def txeData (n : Byte) (s : State) : Attempt :=
  if s.fifoEmpty then .done s.disarm
  else withSlot s.pop fun bt => .done ({ bt.2 with disp := .data (n - 1) }.emit (.i2cWrite bt.1))

/-- The bus restart that ends a data run (R217). -/
def restart (s : State) : Attempt :=
  .done ({ s with disp := .idle }.emit .i2cRestart)

/-- EV.I2C_TXE in Data(0) (R217): fold another Data header in, or restart. -/
def txeDataEnd (s : State) : Attempt :=
  if s.fifoEmpty then restart s
  else
    withSlot s.pop fun ht =>
      if headerIsControl ht.1 then restart s
      else .done { ht.2 with disp := .data (headerLength ht.1) }

/-- EV.I2C_TXE by DISP_TAG (R211 to R217). -/
def txeByState (s : State) : Attempt :=
  match s.disp with
  | .stopped => .raise .dispStoppedTxe
  | .idle => idleLogic s
  | .control n => txeControl n s
  | .control2 n => txeControl2 n s
  | .data n => if n = 0 then txeDataEnd s else txeData n s

/-- EV.I2C_TXE (R211), deliverable in TX_READY while DISP_ARMED = 1 (R324). -/
def execEvI2cTxe (s : State) : Result :=
  runI2c .evI2cTxe (s.i2cPhase == .txReady && s.dispArmed) s (txeByState s)

/-- EV.I2C_ERR (R218), deliverable in SB_PENDING, TX_BUSY and TX_READY (R325); its delivery stalls the agent. -/
def execEvI2cErr (k : ErrorKind) (s : State) : Result :=
  runI2c (.evI2cErr k) (s.avail .i2c) s <|
    match s.cfg.errRecovery with
    | .none => .done { s with i2cPhase := .stalled, dispLastErr := k }
    | .toStopped => .done { s with i2cPhase := .stalled, dispLastErr := k, disp := .stopped, dispArmed := false }

end Sys2Proof.Machine
end

