-- ==== Sys2Proof/Machine/Res.lean ====
section
/-! DEFINITION. The RES unit (44_busresult.md): two pure functions, no resource and no access check. -/

namespace Sys2Proof.Machine

/-- RES.CLASSIFY (R273). -/
def execResClassify (status : BitVec 5) (polled : Bool) (s : State) : Result :=
  runCommand (encode (.resClassify status polled)) s <|
    .done (s.respond ((classify status polled).code.setWidth 32))

/-- RES.CONT (R274): Ok runs the next step; Busy and every Error short-circuit. -/
def execResCont (prior next : BusResult) (s : State) : Result :=
  runCommand (encode (.resCont prior next)) s <|
    match prior with
    | .ok => .done (s.respond (contResponse true next))
    | .busy => .done (s.respond (contResponse false .busy))
    | .error k => .done (s.respond (contResponse false (.error k)))

end Sys2Proof.Machine
end

