-- ==== Sys2Proof/Machine/Sens.lean ====
section
/-! DEFINITION. The SENS unit (43_sensor.md): the two starts and the SPI handler's two events. -/

namespace Sys2Proof.Machine

/-- The shared start of a transaction (R241, R242): the access check, then F_SENS_BUSY (R304), then select, the
register byte, and phase 1 with this action. -/
def startTransaction (i : Instr) (reg : Byte) (action : SensAction) (s : State) : Result :=
  runCommand (encode i) s <|
    Attempt.unless (s.accessRunning .sens) <|
      if s.sensTag ≠ .idle ∧ s.sensTag ≠ .finished then .raise .sensBusy
      else
        .done (({ (s.emit .spiSelect).emit (.spiWrite reg) with sensTag := .readFirst, sensAction := action }).respond 0)

/-- SENS.START_READ (R241). -/
def execSensStartRead (reg : Byte) (s : State) : Result :=
  startTransaction (.sensStartRead reg) reg .read s

/-- SENS.START_WRITE (R242). -/
def execSensStartWrite (reg value : Byte) (s : State) : Result :=
  startTransaction (.sensStartWrite reg value) reg (.write value) s

/-- A step of the SPI handler (R307, R314, R327): deliverable while SPI_BUSY = 1; its own frame has base and current
priority PRIO_SPI. -/
def runSpi (i : Instr) (s : State) (a : Attempt) : Result :=
  runEvent (encode i) ctxSpi (s.spiBusy && s.canDeliver .spi) s <|
    Attempt.unless (s.access .sens s.cfg.prioSpi s.cfg.prioSpi) a

/-- EV.SPI_RX (R243 to R245). The delivery first clears SPI_BUSY (R327); a write then sets it again. -/
def execEvSpiRx (b : Byte) (s : State) : Result :=
  runSpi (.evSpiRx b) s <|
    match s.sensTag with
    | .readFirst => .done { ({ s with spiBusy := false }.emit (.spiWrite s.sensValue)) with sensTag := .readSecond }
    | .readSecond =>
      .done { ({ s with spiBusy := false, sensResult := b }.emit .spiRelease) with sensTag := .finished }
    | .idle => .raise .sensUnexpectedEvent
    | .finished => .raise .sensUnexpectedEvent
    | .writeFirst => .raise .sensUnexpectedEvent
    | .writeSecond => .raise .sensUnexpectedEvent

/-- EV.SPI_RXFAIL (R246). -/
def execEvSpiRxfail (k : ErrorKind) (s : State) : Result :=
  runSpi (.evSpiRxfail k) s <|
    if s.sensTag ≠ .readFirst ∧ s.sensTag ≠ .readSecond then .raise .sensUnexpectedEvent
    else
      match s.cfg.rxFailPolicy with
      | .trap => .raise .sensRxfail
      | .log => .done { s with spiBusy := false, sensLastErr := k }

end Sys2Proof.Machine
end

