-- ==== Sys2Proof/Machine/Trigger.lean ====
section
/-! DEFINITION. The environment's trigger of a software handler (R315). -/

namespace Sys2Proof.Machine

/-- EV.SW_TRIGGER (R315): an environment step, not a delivery, so possible at any time (R309 (d)). Its value check, that
k is an id in SW_CTX, is made here because it depends on the parameters (R107). -/
def execEvSwTrigger (k : CtxId) (s : State) : Result :=
  runEvent (encode (.evSwTrigger k)) ctxEventPort true s <|
    if (s.cfg.swEntry k).isSome then .done { s with pending := s.pending ||| pendingBit k }
    else .raise .illegalCmd

end Sys2Proof.Machine
end

