-- ==== Sys2Proof/Machine/Dispatch.lean ====
section
/-! DEFINITION. One arm per row of the opcode table. -/

namespace Sys2Proof.Machine

/-- The meaning of an instruction. -/
def exec (i : Instr) (s : State) : Host.Outcome State Fault Refusal :=
  match i with
  | .fifoWrite b => Sys2Proof.Machine.execFifoWrite b s
  | .fifoRead => Sys2Proof.Machine.execFifoRead s
  | .fifoPeek => Sys2Proof.Machine.execFifoPeek s
  | .fifoLen => Sys2Proof.Machine.execFifoLen s
  | .fifoIsempty => Sys2Proof.Machine.execFifoIsempty s
  | .arbClaim r => Sys2Proof.Machine.execArbClaim r s
  | .arbRelease => Sys2Proof.Machine.execArbRelease s
  | .dispKick => Sys2Proof.Machine.execDispKick s
  | .dispWaitdrain => Sys2Proof.Machine.execDispWaitdrain s
  | .sensStartRead reg => Sys2Proof.Machine.execSensStartRead reg s
  | .sensStartWrite reg value => Sys2Proof.Machine.execSensStartWrite reg value s
  | .resClassify status polled => Sys2Proof.Machine.execResClassify status polled s
  | .resCont prior next => Sys2Proof.Machine.execResCont prior next s
  | .csrRead c => Sys2Proof.Machine.execCsrRead c s
  | .evI2cSb => Sys2Proof.Machine.execEvI2cSb s
  | .evI2cTxe => Sys2Proof.Machine.execEvI2cTxe s
  | .evI2cErr k => Sys2Proof.Machine.execEvI2cErr k s
  | .evSpiRx b => Sys2Proof.Machine.execEvSpiRx b s
  | .evSpiRxfail k => Sys2Proof.Machine.execEvSpiRxfail k s
  | .evSwTrigger k => Sys2Proof.Machine.execEvSwTrigger k s

end Sys2Proof.Machine
end

