-- ==== Sys2Proof/Machine/Programs.lean ====
section
/-! DEFINITION. The software contexts' side (R57, R113): how a context moves through its own program, and the
pseudo-instructions of R114 to R119 as their expansions. No rule of the block reads any of this; it decides which
command word the running context issues next. -/

namespace Sys2Proof.Machine

/-! ### A context's place in its program -/

/-- `P` of `repeat { … } until P` on the bound responses (R113). A field of a name nothing has bound yet equals nothing
(DESIGN CHOICE, log entry 8). -/
def testHolds (vars : List (Nat × Word)) : Test → Bool
  | .field name hi lo value =>
    match vars.lookup name with
    | some v => (v.toNat >>> lo) % 2 ^ (hi + 1 - lo) == value
    | none => false
  | .neg t => !testHolds vars t
  | .both t u => testHolds vars t && testHolds vars u
  | .either t u => testHolds vars t || testHolds vars u

/-- The position after the command at `pos` completes: past it, or back to the first item of the innermost loop that
ends with it and whose test is false (R113). -/
def nextPos (vars : List (Nat × Word)) (pos : Nat) : List LoopEnd → Nat
  | [] => pos + 1
  | l :: outer => if testHolds vars l.test then nextPos vars pos outer else pos - l.back

/-- Bind a response to a name (R113). -/
def bindName (n : Nat) (v : Word) (vars : List (Nat × Word)) : List (Nat × Word) :=
  (n, v) :: vars.filter fun p => p.1 ≠ n

/-- The bound responses after an item's command completes with a response. -/
def varsAfter (it : Item) (v : Word) (vars : List (Nat × Word)) : List (Nat × Word) :=
  match it.bind with
  | some n => bindName n v vars
  | none => vars

/-- A context's place after its item completes with a response (R57). -/
def placeAfter (it : Item) (v : Word) (p : Place) : Place :=
  { p with vars := varsAfter it v p.vars, pos := nextPos (varsAfter it v p.vars) p.pos it.loops }

/-- The running context's place after a command it issued answered a next state: moved by its item, since every command
that completes responds (R57, R104). -/
def State.advance (s : State) (it : Item) : State :=
  match s.rsp with
  | some v => s.setRunning { s.running with place := placeAfter it v s.running.place }
  | none => s

/-- The item the running context is at; none at the end of its program (R313). -/
def State.item (s : State) : Option Item :=
  s.running.place.code[s.running.place.pos]?

/-- The place at the first item of a program (R312, R352). -/
def placeAtStart (code : Program) : Place := { code := code, pos := 0, vars := [] }

/-! ### Program items -/

/-- A command whose response is not bound. -/
def command (i : Instr) : Item := { word := encode i, bind := none, loops := [] }

/-- `n <- command`. -/
def bound (n : Nat) (i : Instr) : Item := { word := encode i, bind := some n, loops := [] }

/-- Attach a loop's end to the last item of its body; `k` items of the body stand before `body`. A body of no item holds
no place for the end: `repeat { } until P` comes to no item at all, whatever P, since R113 does not say whether a body
may be empty (DESIGN CHOICE, log entry 25). -/
def closeLoop (t : Test) (k : Nat) : Program → Program
  | [] => []
  | [i] => [{ i with loops := i.loops ++ [{ test := t, back := k }] }]
  | i :: j :: rest => i :: closeLoop t (k + 1) (j :: rest)

/-- `repeat { body } until t` (R113). -/
def repeatUntil (body : Program) (t : Test) : Program := closeLoop t 0 body

/-- R361's obligation on a software handler's program: it holds no loop. The block does not check it. -/
def loopFree (p : Program) : Bool := p.all fun i => i.loops.isEmpty

/-! ### Pseudo-instructions -/

/-- The name `w` of R114's expansion. -/
def nameW : Nat := 0
/-- The name `s` of R118's and R119's expansions. -/
def nameS : Nat := 1

/-- `put b` (R114). -/
def put (b : Byte) : Program :=
  repeatUntil [command (.arbClaim .disp), bound nameW (.fifoWrite b), command .arbRelease]
    (.field nameW 0 0 1)

/-- `arb.claim disp ; disp.kick ; arb.release`. -/
def kick : Program := [command (.arbClaim .disp), command .dispKick, command .arbRelease]

/-- A packet's puts and the kick (R115, R116): nothing for no byte, refused for more than 127. -/
def writePacket (headerFlag : Byte) (bytes : List Byte) : Option Program :=
  if bytes.length = 0 then some []
  else if 127 < bytes.length then none
  else some (put (headerFlag ||| BitVec.ofNat 8 bytes.length) ++ bytes.flatMap put ++ kick)

/-- `disp.write_cmd` (R115): the header is 0x80 | n. -/
def dispWriteCmd (bytes : List Byte) : Option Program := writePacket 0x80 bytes

/-- `disp.write_data` (R116): the header is n. -/
def dispWriteData (bytes : List Byte) : Option Program := writePacket 0x00 bytes

/-- `disp.wait_drained` (R117). -/
def dispWaitDrained : Program := [command .dispWaitdrain]

/-- The poll loop of R118 and R119: one claim per attempt, until SENS_STATE[2:0] = 5. -/
def sensPoll : Program :=
  repeatUntil [command (.arbClaim .sens), bound nameS (.csrRead .sensState), command .arbRelease]
    (.field nameS 2 0 5)

/-- The wait loop R368 advises, which gives up on a receive failure: until SENS_STATE[2:0] = 5 or SENS_LASTERR, bound to
`e`, is not 0. -/
def sensPollOrFail (e : Nat) : Program :=
  repeatUntil
    [command (.arbClaim .sens), bound nameS (.csrRead .sensState), bound e (.csrRead .sensLastErr), command .arbRelease]
    (.either (.field nameS 2 0 5) (.neg (.field e 7 0 0)))

/-- `v <- sens.read reg` (R118), for the idle context. -/
def sensRead (v : Nat) (reg : Byte) : Program :=
  [command (.arbClaim .sens), command (.sensStartRead reg), command .arbRelease] ++ sensPoll
    ++ [command (.arbClaim .sens), bound v (.csrRead .sensResult), command .arbRelease]

/-- `sens.write reg, value` (R119), for the idle context. -/
def sensWrite (reg value : Byte) : Program :=
  [command (.arbClaim .sens), command (.sensStartWrite reg value), command .arbRelease] ++ sensPoll

end Sys2Proof.Machine
end

