-- ==== Sys2Proof/Machine/Ports.lean ====
section
/-! DEFINITION. The steps of R309: a word on the event port, the entry of a software handler (R312), the running
context's next command or end of program (R313), and the bus agents' internal steps (R322, R328). -/

namespace Sys2Proof.Machine

/-- Apply a function to a next state. -/
def mapNext (r : Result) (f : State → State) : Result :=
  match r with
  | .next s => .next (f s)
  | .fault e => .fault e
  | .refused e => .refused e

/-- A word on the command port, issued by the running context (R108, R109): an illegal word faults. -/
def issueCommand (w : Word) (s : State) : Result :=
  match decode .command w with
  | .ok i => exec i s
  | .error _ => runCommand w s (.raise .illegalCmd)

/-- A word on the event port, decoded first (R108, R109, R311): an illegal word faults. -/
def presentEvent (w : Word) (s : State) : Result :=
  match decode .event w with
  | .ok i => exec i s
  | .error _ => runEvent w ctxEventPort true s (.raise .illegalCmd)

/-- Software handler entry (R312). -/
def enterHandler (k : CtxId) (s : State) : Result :=
  match s.cfg.swEntry k with
  | none => .refused .handlerNotDeliverable
  | some e =>
    if s.canDeliver (.sw k) then
      .next { s with
        pending := s.pending &&& ~~~(pendingBit k)
        running := { ctx := k, base := e.prio, cur := e.prio, claims := [], place := placeAtStart e.program }
        preempted := s.running :: s.preempted }
    else .refused .handlerNotDeliverable

/-- The end-of-program step (R313). No word is executed, so FAULT_WORD is 0 (R300); a halted block has no such step
(R302). -/
def endOfProgram (s : State) : Result :=
  if s.halted then .refused .contextHasNoStep
  else if s.running.claims ≠ [] then .next (s.raiseFault .arbClaimLeak 0 s.running.ctx)
  else if s.running.ctx ≠ 0 then
    match s.preempted with
    | f :: rest => .next { s with running := f, preempted := rest }
    | [] => .fault .noFrameBelow
  else .next { s with idleDone := true }

/-- The running software context's step (R309 (b), (e)), possible only when no delivery is forced. -/
def contextStep (s : State) : Result :=
  if s.forced ≠ 0 then .refused .deliveryForced
  else if s.running.ctx = 0 ∧ s.idleDone = true then .refused .contextHasNoStep
  else
    match s.item with
    | some it => mapNext (issueCommand it.word s) fun t => t.advance it
    | none => endOfProgram s

/-- A bus agent's internal step, when its condition holds (R322, R328). -/
def agentStep (possible : Bool) (t : State) (halted : Bool) : Result :=
  if !halted && possible then .next t else .refused .agentHasNoStep

/-- The I2C agent's internal step: the byte has gone out (R322). -/
def i2cByteOut (s : State) : Result :=
  agentStep (s.i2cPhase == .txBusy) { s with i2cPhase := .txReady } s.halted

/-- A lost byte-ready event (R328 (a)). -/
def loseTxe (s : State) : Result :=
  agentStep (s.cfg.eventLoss && s.i2cPhase == .txReady && s.dispArmed) s.disarm s.halted

/-- A lost address-needed event (R328 (b)). -/
def loseSb (s : State) : Result :=
  agentStep (s.cfg.eventLoss && s.i2cPhase == .sbPending) { s with i2cPhase := .stalled } s.halted

/-- A lost SPI completion (R328 (c)). -/
def loseSpi (s : State) : Result :=
  agentStep (s.cfg.eventLoss && s.spiBusy) { s with spiBusy := false } s.halted

/-- The step a choice names (R309). -/
def stepChoice (c : Choice) (s : State) : Result :=
  match c with
  | .event w => presentEvent w s
  | .enter k => enterHandler k s
  | .context => contextStep s
  | .i2cByteOut => i2cByteOut s
  | .loseTxe => loseTxe s
  | .loseSb => loseSb s
  | .loseSpi => loseSpi s

/-- The state a step starts from: its choice taken off the schedule, the last response gone (R104). -/
def State.begin (s : State) (rest : List Choice) : State :=
  { s with schedule := rest, rsp := none }

/-- Put a bus agent in the phase in which it offers an event (R323 to R325, R327). No step does this: it is what an
event word's presence on the event port presupposes, for `withFetchWord` alone (log entry 5). -/
def State.offer (s : State) (w : Word) : State :=
  match decode .event w with
  | .ok .evI2cSb => { s with i2cPhase := .sbPending }
  | .ok .evI2cTxe => { s with i2cPhase := .txReady, dispArmed := true }
  | .ok (.evI2cErr _) => if s.avail .i2c then s else { s with i2cPhase := .txBusy }
  | .ok (.evSpiRx _) => { s with spiBusy := true }
  | .ok (.evSpiRxfail _) => { s with spiBusy := true }
  | _ => s

/-- Make a word the one the next step takes: on the event port, or as the running context's next command. -/
def State.present (s : State) (w : Word) : State :=
  match portOf w with
  | .event => { s.offer w with schedule := .event w :: s.schedule }
  | .command =>
    { s with
      running := { s.running with place := placeAtStart [{ word := w, bind := none, loops := [] }] }
      idleDone := false
      schedule := .context :: s.schedule }

end Sys2Proof.Machine
end

