-- ==== Sys2Proof/Machine/Step.lean ====
section
/-! DEFINITION. One step: the next choice of the outside world is taken off the schedule and done (R81, R309). -/

namespace Sys2Proof.Machine

/-- One step of the block. The schedule is the outside world's draw (R330), so a statement about every state is about
every choice and every order. -/
def step (s : State) : Host.Outcome State Fault Refusal :=
  match s.schedule with
  | [] => .refused .scheduleEmpty
  | c :: rest => stepChoice c (s.begin rest)

/-- The word a table row's instruction has, put where the next step takes it (log entry 5). -/
def State.withFetchWord (s : State) (_nbits w : Nat) : State :=
  s.present (BitVec.ofNat 32 w)

end Sys2Proof.Machine
end

