-- ==== Sys2Proof/Machine/Assembler.lean ====
section
/-! DEFINITION. The assembler's text for one word (R112): the mnemonic in lower case, then the operands separated by
commas, numbers decimal or 0x hex, names as R112 and R59 give them. An operand that does not fit its field is refused. One that fits
and fails its row's value check is assembled: its word is illegal when it is issued (R108). -/

namespace Sys2Proof.Machine

/-- An operand: a number or a name. -/
inductive Arg
  | num (n : Nat)
  | name (s : String)
  deriving DecidableEq, Repr

/-- The value of a digit in a base of at most 16. -/
def digit (base : Nat) (c : Char) : Option Nat :=
  let n := c.toNat
  let v := if 48 ≤ n ∧ n ≤ 57 then n - 48
    else if 97 ≤ n ∧ n ≤ 102 then n - 87
    else if 65 ≤ n ∧ n ≤ 70 then n - 55
    else 16
  if v < base then some v else none

/-- Read digits after the value `acc`. -/
def digits (base acc : Nat) : List Char → Option Nat
  | [] => some acc
  | c :: cs => (digit base c).bind fun d => digits base (acc * base + d) cs

/-- A number: decimal, or hex after 0x (R112). -/
def number : List Char → Option Nat
  | [] => none
  | '0' :: 'x' :: c :: cs => digits 16 0 (c :: cs)
  | c :: cs => digits 10 0 (c :: cs)

/-- An operand's text. -/
def arg (cs : List Char) : Arg :=
  match number cs with
  | some n => .num n
  | none => .name (String.ofList cs)

/-- Split at a separator. -/
def splitAt (sep : Char) : List Char → List (List Char)
  | [] => [[]]
  | c :: cs =>
    if c = sep then [] :: splitAt sep cs
    else match splitAt sep cs with
      | [] => [[c]]
      | first :: rest => (c :: first) :: rest

/-- Drop the spaces around a token (DESIGN CHOICE, log entry 9). -/
def trim (cs : List Char) : List Char :=
  ((cs.dropWhile (· = ' ')).reverse.dropWhile (· = ' ')).reverse

/-- The operands after a mnemonic; none when nothing is written. -/
def args (cs : List Char) : List Arg :=
  if trim cs = [] then [] else (splitAt ',' cs).map fun t => arg (trim t)

/-- A number that fits a field of n bits. -/
def Arg.field (n : Nat) : Arg → Option (BitVec n)
  | .num v => if v < 2 ^ n then some (BitVec.ofNat n v) else none
  | .name _ => none

/-- `disp` or `sens`, or 0, 1. -/
def Arg.resource : Arg → Option Resource
  | .name "disp" => some .disp
  | .name "sens" => some .sens
  | .name _ => none
  | .num v => if v < 2 then some (Resource.ofNumber (BitVec.ofNat 1 v)) else none

/-- A BusResult's byte, by code or by R112's name. -/
def Arg.result : Arg → Option Byte
  | .name "ok" => some BusResult.ok.code
  | .name "busy" => some BusResult.busy.code
  | .name "err.none" => some (BusResult.error .none).code
  | .name "err.timeout" => some (BusResult.error .timeout).code
  | .name "err.ack" => some (BusResult.error .acknowledgeFailure).code
  | .name "err.arlo" => some (BusResult.error .arbitrationLost).code
  | .name "err.ovr" => some (BusResult.error .overrunUnderrun).code
  | .name "err.berr" => some (BusResult.error .busError).code
  | .name _ => none
  | .num v => Arg.field 8 (.num v)

/-- The name of a CSR (R59). -/
def csrName : Csr → String
  | .fifoCap => "FIFO_CAP"
  | .fifoPtr => "FIFO_PTR"
  | .fifoLen => "FIFO_LEN"
  | .fifoWptr => "FIFO_WPTR"
  | .arbCur => "ARB_CUR"
  | .arbDepth => "ARB_DEPTH"
  | .arbCeilDisp => "ARB_CEIL_DISP"
  | .arbCeilSens => "ARB_CEIL_SENS"
  | .arbBase => "ARB_BASE"
  | .dispState => "DISP_STATE"
  | .dispLastErr => "DISP_LASTERR"
  | .sensState => "SENS_STATE"
  | .sensResult => "SENS_RESULT"
  | .sensLastErr => "SENS_LASTERR"
  | .fault => "FAULT"
  | .faultWord => "FAULT_WORD"

/-- A CSR's number, by number or by name. -/
def Arg.csr : Arg → Option Byte
  | .name s => (Csr.all.find? fun c => csrName c == s).map Csr.number
  | .num v => Arg.field 8 (.num v)

/-- The word of a mnemonic and its operands (R112). A row with a value check is put together from its fields (R106,
R107), since an operand may be one that no instruction has. -/
def assembleParts (mnemonic : String) (ops : List Arg) : Option Word :=
  match mnemonic, ops with
  | "fifo.write", [b] => (b.field 8).map fun b => encode (.fifoWrite b)
  | "fifo.read", [] => some (encode .fifoRead)
  | "fifo.peek", [] => some (encode .fifoPeek)
  | "fifo.len", [] => some (encode .fifoLen)
  | "fifo.isempty", [] => some (encode .fifoIsempty)
  | "arb.claim", [r] => r.resource.map fun r => encode (.arbClaim r)
  | "arb.release", [] => some (encode .arbRelease)
  | "disp.kick", [] => some (encode .dispKick)
  | "disp.waitdrain", [] => some (encode .dispWaitdrain)
  | "sens.start_read", [reg] => (reg.field 8).map fun r => encode (.sensStartRead r)
  | "sens.start_write", [reg, value] =>
    (reg.field 8).bind fun r => (value.field 8).map fun v => encode (.sensStartWrite r v)
  | "res.classify", [status, flag] =>
    (status.field 5).bind fun s => (flag.field 1).map fun f => encode (.resClassify s (f == 1))
  | "res.cont", [prior, next] => prior.result.bind fun p => next.result.map fun n => Word.pack 0x4 0x1 0 n p
  | "csr.read", [c] => c.csr.map fun c => Word.pack 0x5 0x0 0 0 c
  | "ev.i2c_sb", [] => some (encode .evI2cSb)
  | "ev.i2c_txe", [] => some (encode .evI2cTxe)
  | "ev.i2c_err", [kind] => (kind.field 3).map fun k => Word.pack 0xF 0x2 0 0 (k.setWidth 8)
  | "ev.spi_rx", [b] => (b.field 8).map fun b => encode (.evSpiRx b)
  | "ev.spi_rxfail", [kind] => (kind.field 3).map fun k => Word.pack 0xF 0x9 0 0 (k.setWidth 8)
  | "ev.sw_trigger", [id] => (id.field 4).map fun k => Word.pack 0xF 0xC 0 0 (k.setWidth 8)
  | _, _ => none

/-- The word of a line of assembler text (R112); none where the assembler refuses it. -/
def assemble (line : String) : Option Word :=
  let cs := trim line.toList
  assembleParts (String.ofList (cs.takeWhile (· ≠ ' '))) (args (cs.dropWhile (· ≠ ' ')))

end Sys2Proof.Machine
end

