-- ==== Sys2Proof/Machine/Reset.lean ====
section
/-! DEFINITION. Reset (R60, R350 to R353) for every parameter set and every draw. `State.reset` (Machine/State.lean) is
the one closed instance. -/

namespace Sys2Proof.Machine

/-- What the outside gives a run at its start: the idle context's program (R352), the draws R353 leaves unspecified
(BUF's bytes, slot 0 first, and SENS_RESULT), and the choices to come. -/
structure Boot where
  idle     : Program
  buf      : List Byte
  result   : Byte
  schedule : List Choice
  deriving DecidableEq, Repr

/-- BUF holding these bytes from slot `i` on, in canonical form. -/
def bufFrom (i : Nat) : List Byte → List Host.Cell
  | [] => []
  | b :: bs => if b = Memory.unlisted then bufFrom (i + 1) bs else (i, b) :: bufFrom (i + 1) bs

/-- The reset state of a parameter set (R60); a set that fails R9 has none (R351). -/
def State.resetWith (c : Config) (b : Boot) : Option State :=
  if c.wf then
    some
      { cfg := c
        buf := bufFrom 0 (b.buf.take c.cap)
        fifoPtr := 0
        fifoLen := 0
        disp := .stopped
        dispArmed := false
        dispLastErr := .none
        sensTag := .idle
        sensAction := .read
        sensResult := b.result
        sensLastErr := .none
        running := Frame.idle b.idle
        preempted := []
        ceilDisp := c.prioI2c
        ceilSens := c.prioSpi
        pending := 0
        faultCode := .none
        faultWord := 0
        faultCtx := 0
        halted := false
        i2cPhase := .idle
        spiBusy := false
        spiSel := false
        trace := []
        rsp := none
        idleDone := false
        schedule := b.schedule }
  else none

/-- Reset as the block's input (R350): whatever the state before, only the parameters stay. -/
def State.applyReset (s : State) (b : Boot) : Option State := State.resetWith s.cfg b

end Sys2Proof.Machine
end

