-- ==== Sys2Proof/Safety.lean ====
section
/-! DEFINITION. What counts as a good state and a run of the block, in the terms the statements use: the invariants of
10_state.md, final states (R319), reachable states and fair runs (R373), and the two forms a command's failure takes. -/

namespace Sys2Proof.Machine

/-! ### Invariants -/

/-- The FIFO's cursor, count and storage (R9, R32 to R35). -/
structure FifoInv (s : State) : Prop where
  capPos   : 1 ≤ s.cfg.cap
  capTop   : s.cfg.cap ≤ 65535
  ptrLow   : s.fifoPtr.toNat < s.cfg.cap
  lenTop   : s.fifoLen.toNat ≤ s.cfg.cap
  bufForm  : Memory.wf s.buf
  bufSlots : ∀ c ∈ s.buf, c.1 < s.cfg.cap

/-- The state machines against the bus agents (R212, R221, R240, R326, R327): a stopped channel is disarmed and its bus
offers nothing; a byte is outstanding and the device selected only during a sensor transfer. -/
structure BusInv (s : State) : Prop where
  stoppedQuiet : s.disp = .stopped → s.dispArmed = false ∧ (s.i2cPhase = .idle ∨ s.i2cPhase = .stalled)
  idleStopped  : s.i2cPhase = .idle → s.disp = .stopped
  remLow       : s.dispRem.toNat ≤ 127
  noWriteTags  : s.sensTag ≠ .writeFirst ∧ s.sensTag ≠ .writeSecond
  busyInside   : s.spiBusy = true → s.sensTag = .readFirst ∨ s.sensTag = .readSecond
  selInside    : s.spiSel = true ↔ s.sensTag = .readFirst ∨ s.sensTag = .readSecond

/-- HALTED says whether FAULT_CODE holds a fault; with no fault the record is 0 (R52, R303). -/
structure FaultInv (s : State) : Prop where
  haltedIff : s.halted = true ↔ s.faultCode ≠ .none
  noRecord  : s.halted = false → s.faultWord = 0 ∧ s.faultCtx = 0

/-- One frame (R45, R172, R173): at most NEST_MAX claims; the saved priorities and the current one rise from `base`. -/
structure FrameInv (c : Config) (f : Frame) : Prop where
  depth  : f.claims.length ≤ c.nestMax
  rising : (f.claims ++ [f.cur]).Pairwise (· ≤ ·)
  first  : (f.claims ++ [f.cur]).head? = some f.base

/-- The stack (R45, R312, R316), top frame first: the bottom frame is the idle context's, every other one a SW_CTX
entry's at the entry's priority, and each preempted a frame of lower current priority. -/
def Stacked (c : Config) : Frame → List Frame → Prop
  | f, [] => f.ctx = 0 ∧ f.base = 0
  | f, g :: rest => (∃ e ∈ c.swCtx, e.id = f.ctx ∧ e.prio = f.base) ∧ g.cur < f.base ∧ Stacked c g rest

/-- The arbiter (R9, R45, R49, R51). -/
structure ArbInv (s : State) : Prop where
  cfgWf      : s.cfg.wf = true
  ceilDispIs : s.ceilDisp = s.cfg.prioI2c
  ceilSensIs : s.ceilSens = s.cfg.prioSpi
  frameInv   : ∀ f ∈ s.running :: s.preempted, FrameInv s.cfg f
  stacked    : Stacked s.cfg s.running s.preempted
  pendingIds : ∀ k : CtxId, s.isPending k = true → (s.cfg.swEntry k).isSome = true

/-- Every invariant of the block. -/
structure Inv (s : State) : Prop where
  fifo  : FifoInv s
  bus   : BusInv s
  fault : FaultInv s
  arb   : ArbInv s

/-! ### Runs -/

/-- A choice that answers a next state here (R309). -/
def Possible (c : Choice) (s : State) : Prop :=
  ∃ t, stepChoice c (s.begin s.schedule) = .next t

/-- States a run can be in (R351): the reset state of a parameter set the constraints admit, under every draw and every
schedule, and what a step gives. The outside world may put further choices on the schedule. -/
inductive Reachable : State → Prop
  | reset (c : Config) (b : Boot) (s : State) : State.resetWith c b = some s → Reachable s
  | choose (s : State) (cs : List Choice) : Reachable s → Reachable { s with schedule := cs }
  | step (s t : State) : Reachable s → step s = .next t → Reachable t

/-- The end of a run (R319): its five conditions. -/
structure Final (s : State) : Prop where
  running   : s.halted = false
  idleAlone : s.preempted = [] ∧ s.running.ctx = 0 ∧ s.running.claims = [] ∧ s.idleDone = true
  noPending : s.pending = 0
  spiQuiet  : s.spiBusy = false
  i2cQuiet  : s.i2cPhase = .idle ∨ s.i2cPhase = .stalled ∨ (s.i2cPhase = .txReady ∧ s.dispArmed = false)

/-- An event word that no agent owes (R309 (d), R325): a software trigger, an I2C error, which is never forced, or a word
the event port rejects. -/
def Unowed (w : Word) : Prop :=
  ∀ i, decode .event w = .ok i → (∃ k, i = .evSwTrigger k) ∨ ∃ k, i = .evI2cErr k

/-- A state in which no owed step is possible although the run has not ended (R319, R362). DESIGN CHOICE (log entry 22),
two points that R319 leaves open: a halted state is not called stuck (R302 calls it quiescent, R319 only never final);
and a state is stuck although a step nobody owes is possible (`Unowed`). -/
def Stuck (s : State) : Prop :=
  s.halted = false ∧ ¬ Final s ∧ ∀ c, (∀ w, c = .event w → ¬ Unowed w) → ¬ Possible c s

/-- An infinite run, by its states and the choices between them (R81). -/
def IsRun (σ : Nat → State) (c : Nat → Choice) : Prop :=
  ∀ n, stepChoice (c n) ((σ n).begin (σ n).schedule) = .next (σ (n + 1))

/-- The progress premises of R373, and no other: the I2C agent's internal step (R322) that stays possible is taken; an SPI
completion that stays deliverable, which R309 says of its availability and its priority above ARB_CUR alone, is
delivered, whatever else is ready meanwhile; a software context's step that stays possible, so with no delivery forced
above it, is taken. An error event is assumed neither to occur nor not to; a loss of R328 is owed by nobody (DEDUCED,
log entry 24). -/
structure WeaklyFair (σ : Nat → State) (c : Nat → Choice) : Prop where
  byteOut : ∀ n, (∀ m, n ≤ m → Possible .i2cByteOut (σ m)) → ∃ m, n ≤ m ∧ c m = .i2cByteOut
  spi     : ∀ n, (∀ m, n ≤ m → (σ m).deliverable .spi = true) →
    ∃ m, n ≤ m ∧ ((∃ b, c m = .event (encode (.evSpiRx b))) ∨ ∃ k, c m = .event (encode (.evSpiRxfail k)))
  context : ∀ n, (∀ m, n ≤ m → Possible .context (σ m)) → ∃ m, n ≤ m ∧ c m = .context

/-! ### Words -/

/-- A row's value check, by its column in R106 and R107, on the operand bytes and the parameters. -/
def RowCheck (c : Config) (r : OpcodeRow) (w : Word) : Prop :=
  (r.mnemonic = "RES.CONT" → (w.a.toNat ≤ 1 ∨ (0x10 ≤ w.a.toNat ∧ w.a.toNat ≤ 0x15)) ∧
    (w.b.toNat ≤ 1 ∨ (0x10 ≤ w.b.toNat ∧ w.b.toNat ≤ 0x15))) ∧
  (r.mnemonic = "CSR.READ" → w.a.toNat ≤ 0x03 ∨ (0x08 ≤ w.a.toNat ∧ w.a.toNat ≤ 0x0C) ∨
    (0x10 ≤ w.a.toNat ∧ w.a.toNat ≤ 0x11) ∨ (0x18 ≤ w.a.toNat ∧ w.a.toNat ≤ 0x1A) ∨
    (0x20 ≤ w.a.toNat ∧ w.a.toNat ≤ 0x21)) ∧
  (r.mnemonic = "EV.I2C_ERR" ∨ r.mnemonic = "EV.SPI_RXFAIL" → 1 ≤ w.a.toNat ∧ w.a.toNat ≤ 5) ∧
  (r.mnemonic = "EV.SW_TRIGGER" → (c.swEntry (w.a.setWidth 4)).isSome = true)

/-- R108: no row of the port matches with its value check met. -/
def Illegal (c : Config) (p : Port) (w : Word) : Prop :=
  ¬ ∃ r ∈ opcodeTable, r.accepts p w ∧ RowCheck c r w

/-- The instruction a choice runs: the event word's, or that of the running context's next item. -/
def Runs (c : Choice) (s : State) (i : Instr) : Prop :=
  (∃ w, c = .event w ∧ decode .event w = .ok i) ∨
  (∃ it, c = .context ∧ s.item = some it ∧ decode .command it.word = .ok i)

/-! ### Delivery -/

/-- R309 (a) for a handler of priority p: above ARB_CUR, and no ready handler has a higher priority. -/
structure Turn (s : State) (p : Prio) : Prop where
  live  : s.halted = false
  above : s.running.cur < p
  i2c   : s.i2cPhase = .sbPending ∨ (s.i2cPhase = .txReady ∧ s.dispArmed = true) → s.cfg.prioI2c ≤ p
  soft  : ∀ k e, s.cfg.swEntry k = some e → s.isPending k = true → e.prio ≤ p

/-- The I2C handler may be delivered, and its frame passes access(R_DISP) (R49, R170). -/
structure I2cTurn (s : State) : Prop where
  turn    : Turn s s.cfg.prioI2c
  ceiling : s.ceilDisp = s.cfg.prioI2c

/-- EV.I2C_TXE's delivery condition (R324). -/
structure ByteReady (s : State) : Prop extends I2cTurn s where
  phase : s.i2cPhase = .txReady
  armed : s.dispArmed = true

/-- The delivery condition of the SPI events (R327), and the SPI handler's frame passes access(R_SENS). -/
structure SpiComplete (s : State) : Prop where
  turn    : Turn s s.cfg.prioSpi
  ceiling : s.ceilSens = s.cfg.prioSpi
  busy    : s.spiBusy = true

/-- `forced` is none (R309): every ready handler is masked. -/
def NothingForced (s : State) : Prop :=
  ∀ h ∈ s.handlers, s.ready h = true → h.prio s.cfg ≤ s.running.cur.toNat

/-! ### What the rules do to the FIFO and the wire -/

/-- BUF[FIFO_PTR] (R206). -/
def oldest (s : State) : Byte := Memory.read s.buf s.fifoPtr.toNat

/-- The state after pop() (R206). -/
def popped (s : State) : State :=
  { s with fifoPtr := BitVec.ofNat 16 ((s.fifoPtr.toNat + 1) % s.cfg.cap), fifoLen := s.fifoLen - 1 }

/-- The state after emit I2C.WRITE(b) (R15, R321). -/
def wrote (b : Byte) (s : State) : State :=
  { s with trace := s.trace ++ [.i2cWrite b], i2cPhase := .txBusy }

/-- Two states that differ at most in BUF, and there only in slots that are not occupied (R38). -/
def SameButVacant (s t : State) : Prop :=
  t = { s with buf := t.buf } ∧
    ∀ k, k < s.fifoLen.toNat →
      Memory.read t.buf ((s.fifoPtr.toNat + k) % s.cfg.cap) = Memory.read s.buf ((s.fifoPtr.toNat + k) % s.cfg.cap)

/-- A CSR's value as a sum of its fields, each at its place in R59's bits column. -/
def csrFields (c : Csr) (s : State) : Nat :=
  match c with
  | .fifoCap => s.cfg.cap % 2 ^ 16
  | .fifoPtr => s.fifoPtr.toNat
  | .fifoLen => s.fifoLen.toNat
  | .fifoWptr => (s.fifoPtr.toNat + s.fifoLen.toNat) % s.cfg.cap % 2 ^ 16
  | .arbCur => s.running.cur.toNat
  | .arbDepth => s.running.claims.length % 2 ^ 8
  | .arbCeilDisp => s.ceilDisp.toNat
  | .arbCeilSens => s.ceilSens.toNat
  | .arbBase => s.running.base.toNat + 2 ^ 8 * s.running.ctx.toNat
  | .dispState => s.dispTag.toNat + 2 ^ 8 * s.dispRem.toNat + 2 ^ 16 * s.dispArmed.toNat
  | .dispLastErr => s.dispLastErr.code.toNat
  | .sensState => s.sensTag.code.toNat + 2 ^ 8 * s.sensIsWrite.toNat + 2 ^ 16 * s.sensValue.toNat
  | .sensResult => s.sensResult.toNat
  | .sensLastErr => s.sensLastErr.code.toNat
  | .fault => s.faultCode.code.toNat + 2 ^ 8 * s.halted.toNat + 2 ^ 12 * s.faultCtx.toNat
  | .faultWord => s.faultWord.toNat

/-! ### How a command fails -/

/-- The state after a command raised a fault (R300): the state before it, the four fault fields, and the response. -/
def commandFault (s : State) (code : FaultCode) (w : Word) : State :=
  { s with
    faultCode := code
    faultWord := w
    faultCtx := s.running.ctx
    halted := true
    rsp := some ((1 : BitVec 1) ++ code.code.setWidth 31) }

/-- The state after an event-port step raised a fault (R300): the four fault fields, and no response. -/
def eventFault (s : State) (code : FaultCode) (w : Word) (ctx : CtxId) : State :=
  { s with faultCode := code, faultWord := w, faultCtx := ctx, halted := true }

/-- The resource whose access check an operation begins with: the rules of 40_fifo.md, 42_display.md and 43_sensor.md, and
R59's resource column for CSR.READ. ARB.CLAIM names a resource and touches none (R172); DISP.WAITDRAIN makes no check
(R202). -/
def touched : Instr → Option Resource
  | .fifoWrite _ => some .disp
  | .fifoRead => some .disp
  | .fifoPeek => some .disp
  | .fifoLen => some .disp
  | .fifoIsempty => some .disp
  | .arbClaim _ => none
  | .arbRelease => none
  | .dispKick => some .disp
  | .dispWaitdrain => none
  | .sensStartRead _ => some .sens
  | .sensStartWrite _ _ => some .sens
  | .resClassify _ _ => none
  | .resCont _ _ => none
  | .csrRead c => csrResource c
  | .evI2cSb => some .disp
  | .evI2cTxe => some .disp
  | .evI2cErr _ => some .disp
  | .evSpiRx _ => some .sens
  | .evSpiRxfail _ => some .sens
  | .evSwTrigger _ => none

/-- The base and the current priority of the frame that performs an operation (R170): the top frame of FRAMES for a
command, the bus handler's own frame, both at the handler's priority, for an event that touches its resource. -/
def acting (i : Instr) (s : State) : Prio × Prio :=
  match i.port, touched i with
  | .event, some .disp => (s.cfg.prioI2c, s.cfg.prioI2c)
  | .event, some .sens => (s.cfg.prioSpi, s.cfg.prioSpi)
  | _, _ => (s.running.base, s.running.cur)

/-- R170 for a command that touches r: above the ceiling it faults with F_ARB_ABOVE_CEILING, else below it with
F_ARB_UNCLAIMED. -/
def AccessFaults (r : Resource) (i : Instr) (s : State) : Prop :=
  (s.ceil r < s.running.base → exec i s = .next (commandFault s .arbAboveCeiling (encode i))) ∧
  (s.running.base ≤ s.ceil r → s.running.cur < s.ceil r →
    exec i s = .next (commandFault s .arbUnclaimed (encode i)))

/-- R170's check passes for a command that touches r. -/
def AccessPasses (r : Resource) (s : State) : Prop :=
  s.running.base ≤ s.ceil r ∧ s.ceil r ≤ s.running.cur

/-- Why a fault of each code was raised (R301): the step and the condition it met. -/
def FaultCause (c : Choice) (s : State) : FaultCode → Prop
  | .none => False
  | .dispStoppedTxe => Runs c s .evI2cTxe ∧ s.disp = .stopped
  | .dispCtrl2Zero => Runs c s .evI2cTxe ∧ s.disp = .control2 0
  | .sensUnexpectedEvent =>
    ((∃ b, Runs c s (.evSpiRx b)) ∨ ∃ k, Runs c s (.evSpiRxfail k)) ∧
      s.sensTag ≠ .readFirst ∧ s.sensTag ≠ .readSecond
  | .sensBusy =>
    ((∃ r, Runs c s (.sensStartRead r)) ∨ ∃ r v, Runs c s (.sensStartWrite r v)) ∧
      s.sensTag ≠ .idle ∧ s.sensTag ≠ .finished
  | .arbReleaseEmpty => Runs c s .arbRelease ∧ s.running.claims = []
  | .arbNestOverflow =>
    (∃ r, Runs c s (.arbClaim r) ∧ s.running.base ≤ s.ceil r) ∧ s.running.claims.length = s.cfg.nestMax
  | .arbAboveCeiling => ∃ i r, Runs c s i ∧ (touched i = some r ∨ i = .arbClaim r) ∧ s.ceil r < (acting i s).1
  | .arbUnclaimed => ∃ i r, Runs c s i ∧ touched i = some r ∧
      (acting i s).1 ≤ s.ceil r ∧ (acting i s).2 < s.ceil r
  | .arbClaimLeak => c = .context ∧ s.item = none ∧ s.running.claims ≠ []
  | .illegalCmd =>
    (∃ w, c = .event w ∧ Illegal s.cfg .event w) ∨
    ∃ it, c = .context ∧ s.item = some it ∧ Illegal s.cfg .command it.word
  | .waitContext => Runs c s .dispWaitdrain ∧ (s.running.ctx ≠ 0 ∨ s.running.claims ≠ [])
  | .sensRxfail => (∃ k, Runs c s (.evSpiRxfail k)) ∧ s.cfg.rxFailPolicy = .trap

end Sys2Proof.Machine
end

