-- ==== Sys2Proof/Certificates/Slice0/Obligations.lean ====
section
/-! DEFINITION. The statements for the provers, in the order of the spec's files: encoding, the step, each instruction's
result, handlers and agents, the whole-machine rules, the invariants and the laws. -/

open Sys2Proof Sys2Proof.Machine

/-! ### Encoding (30_encoding.md) -/

/-- Decoding the word of a well-formed instruction gives it back: no operand bit is dropped (R100 to R107). -/
def Obligations.DecodeInvertsEncode : Prop :=
  ∀ i : Instr, i.wf = true → decode i.port (encode i) = .ok i

/-- A word that decodes is the word of the instruction it decodes to: unused fields are 0 (R103), and the instruction
belongs to the port and meets its value checks. -/
def Obligations.DecodedWordsEncodeBack : Prop :=
  ∀ (p : Port) (w : Word) (i : Instr), decode p w = .ok i → encode i = w ∧ i.port = p ∧ i.wf = true

/-- A word that matches a row and meets its value check decodes to an instruction of that row (R106, R107, R109), for
every parameter set whose SW_CTX ids are 1 to 12 (R9); and at most one row matches a word on a port. -/
def Obligations.LegalWordsDecodeToTheirRow : Prop :=
  ∀ (c : Config) (p : Port) (w : Word) (r : OpcodeRow), c.wf = true → r ∈ opcodeTable → r.accepts p w →
    (RowCheck c r w → ∃ i, decode p w = .ok i ∧ i.mnemonic = r.mnemonic) ∧
    ∀ r' ∈ opcodeTable, r'.accepts p w → r' = r

/-- R108: a reserved unit, the wrong port, no row, or a failed value check make a word illegal, and an illegal word
faults with F_ILLEGAL_CMD and does nothing else; every other word is decoded to an instruction. -/
def Obligations.IllegalWordsFault : Prop :=
  ∀ (s : State) (w : Word), s.halted = false → s.cfg.wf = true →
    (∀ p, 0x6 ≤ w.unit.toNat → w.unit.toNat ≤ 0xE → Illegal s.cfg p w) ∧
    (w.unit = 0xF → Illegal s.cfg .command w) ∧
    (w.unit ≠ 0xF → Illegal s.cfg .event w) ∧
    (Illegal s.cfg .command w → issueCommand w s = .next (commandFault s .illegalCmd w)) ∧
    (Illegal s.cfg .event w → presentEvent w s = .next (eventFault s .illegalCmd w 0xD)) ∧
    (∀ p, ¬ Illegal s.cfg p w → ∃ i, decode p w = .ok i)

/-- The worked encodings of R120: each text assembles to its word, and the word decodes to the instruction. -/
def Obligations.WorkedEncodings : Prop :=
  assemble "fifo.write 0x82" = some 0x00000082 ∧ decode .command 0x00000082 = .ok (.fifoWrite 0x82) ∧
  assemble "fifo.read" = some 0x01000000 ∧ decode .command 0x01000000 = .ok .fifoRead ∧
  assemble "arb.claim sens" = some 0x10000001 ∧ decode .command 0x10000001 = .ok (.arbClaim .sens) ∧
  assemble "arb.release" = some 0x11000000 ∧ decode .command 0x11000000 = .ok .arbRelease ∧
  assemble "disp.kick" = some 0x20000000 ∧ decode .command 0x20000000 = .ok .dispKick ∧
  assemble "sens.start_read 0x02" = some 0x30000002 ∧ decode .command 0x30000002 = .ok (.sensStartRead 0x02) ∧
  assemble "sens.start_write 0x80, 0xD1" = some 0x3100D180 ∧
    decode .command 0x3100D180 = .ok (.sensStartWrite 0x80 0xD1) ∧
  assemble "res.classify 0x06, 1" = some 0x40000106 ∧ decode .command 0x40000106 = .ok (.resClassify 0x06 true) ∧
  assemble "res.cont ok, err.timeout" = some 0x41001100 ∧
    decode .command 0x41001100 = .ok (.resCont .ok (.error .timeout)) ∧
  assemble "csr.read SENS_STATE" = some 0x50000018 ∧ decode .command 0x50000018 = .ok (.csrRead .sensState) ∧
  assemble "ev.spi_rx 0x5A" = some 0xF800005A ∧ decode .event 0xF800005A = .ok (.evSpiRx 0x5A) ∧
  assemble "ev.i2c_err 2" = some 0xF2000002 ∧ decode .event 0xF2000002 = .ok (.evI2cErr .acknowledgeFailure)

/-! ### A step (R81, R109, R309, R311) -/

/-- A step whose choice is an event word presents that word to the state before it, the last response gone: a word that
decodes runs its event, and one that does not raises F_ILLEGAL_CMD with context 0xD on a block that is not halted and
does nothing on one that is (R108, R109, R302, R311). -/
def Obligations.StepRunsTheDecodedEvent : Prop :=
  ∀ (s t : State) (w : Word) (rest : List Choice), s.schedule = .event w :: rest →
    t = { s with schedule := rest, rsp := none } →
    step s = presentEvent w t ∧
    (∀ i, decode .event w = .ok i → step s = exec i t) ∧
    (∀ e, decode .event w = .error e →
      step s = .next (if t.halted then t else eventFault t .illegalCmd w 0xD))

/-- A step whose choice is the running context issues the command of its next item, when the block is halted or no
delivery is forced, and the context has not ended: the outcome `o` is the decoded command's, or that of an illegal word
(R108, R109, R302). Then the context's place moves by that item, a completed command's response bound (R57). The same
word carried as bytes, least significant first, decodes to the same instruction (R74). Where the command has no step, as
an incomplete DISP.WAITDRAIN has none (R202), the context has none. That a command answered by a fault response, on a
block it halts or one halted before, counts as completed, so the place moves past it, is the model's reading (DEDUCED,
log entry 19). -/
def Obligations.StepRunsTheDecodedCommand : Prop :=
  ∀ (s t : State) (rest : List Choice) (it : Item), s.schedule = .context :: rest →
    t = { s with schedule := rest, rsp := none } → (t.halted = true ∨ NothingForced t) →
    ¬ (t.running.ctx = 0 ∧ t.idleDone = true) → t.running.place.code[t.running.place.pos]? = some it →
    (∀ i, decode .command it.word = .ok i →
      ∀ more, decodeBytes .command (it.word.bytes ++ more) = .ok (i, more)) ∧
    ∀ o : Result,
      (∃ i, decode .command it.word = .ok i ∧ o = exec i t) ∨
      (∃ e, decode .command it.word = .error e ∧
        o = .next (if t.halted then { t with rsp := some (BitVec.ofNat 32 (2 ^ 31 + t.faultCode.code.toNat)) }
          else commandFault t .illegalCmd it.word)) →
      o = issueCommand it.word t ∧
      (∀ u v, o = .next u → u.rsp = some v →
        step s = .next { u with running := { u.running with place := placeAfter it v u.running.place } }) ∧
      (∀ u, o = .next u → u.rsp ≠ none) ∧
      (∀ r, o = .refused r → decode .command it.word = .ok .dispWaitdrain ∧ step s = .refused r) ∧
      (∀ f, o = .fault f → step s = .fault f)

/-- R57 and R113: a completed command binds its response to its item's name and to no other; then its context stands one
item on, unless a loop ends with the item: the innermost whose test is false on the bound responses, those just bound
among them, sends it back to that body's first item. `repeat { body } until P` is its
body with the loop's end at the last item, the body's first one as far back as the items before the last. A field test on
a bound name compares that field; the ways tests combine are the model's (log entry 23), and an empty body comes to no
item (log entry 25). -/
def Obligations.PlacesMoveAsR113Says : Prop :=
  (∀ (it : Item) (v : Word) (p : Place),
    (placeAfter it v p).code = p.code ∧
    ∀ n, (placeAfter it v p).vars.lookup n = if it.bind = some n then some v else p.vars.lookup n) ∧
  (∀ (it : Item) (v : Word) (p : Place), (∀ l ∈ it.loops, testHolds (placeAfter it v p).vars l.test = true) →
    (placeAfter it v p).pos = p.pos + 1) ∧
  (∀ (it : Item) (v : Word) (p : Place) (inner outer : List LoopEnd) (l : LoopEnd), it.loops = inner ++ l :: outer →
    (∀ m ∈ inner, testHolds (placeAfter it v p).vars m.test = true) →
    testHolds (placeAfter it v p).vars l.test = false → (placeAfter it v p).pos = p.pos - l.back) ∧
  (∀ (first : Program) (last : Item) (t : Test), repeatUntil (first ++ [last]) t =
    first ++ [{ last with loops := last.loops ++ [{ test := t, back := first.length }] }]) ∧
  (∀ (vars : List (Nat × Word)) (n hi lo value : Nat) (w : Word), lo ≤ hi → vars.lookup n = some w →
    (testHolds vars (.field n hi lo value) = true ↔ w.toNat / 2 ^ lo % 2 ^ (hi + 1 - lo) = value)) ∧
  (∀ (vars : List (Nat × Word)) (t u : Test),
    (testHolds vars (.neg t) = true ↔ testHolds vars t = false) ∧
    (testHolds vars (.both t u) = true ↔ testHolds vars t = true ∧ testHolds vars u = true) ∧
    (testHolds vars (.either t u) = true ↔ testHolds vars t = true ∨ testHolds vars u = true))

/-- R309 (b) and (e): the running context steps only when no delivery is forced. R310: of two available handlers of the
same priority, if one may be delivered so may the other. -/
def Obligations.ForcedDeliveriesComeFirst : Prop :=
  (∀ s : State, s.halted = false → (contextStep s = .refused .deliveryForced ↔ ¬ NothingForced s)) ∧
  (∀ (s : State) (h₁ h₂ : Handler), s.avail h₁ = true → s.avail h₂ = true → h₁.prio s.cfg = h₂.prio s.cfg →
    s.canDeliver h₁ = true → s.canDeliver h₂ = true)

/-- R311: a valid bus event word whose delivery condition does not hold is refused, and none whose condition holds is. -/
def Obligations.UndeliverableEventsAreRefused : Prop :=
  ∀ s : State, s.halted = false →
    (exec .evI2cSb s = .refused .eventNotDeliverable ↔ ¬ (s.i2cPhase = .sbPending ∧ Turn s s.cfg.prioI2c)) ∧
    (exec .evI2cTxe s = .refused .eventNotDeliverable ↔
      ¬ (s.i2cPhase = .txReady ∧ s.dispArmed = true ∧ Turn s s.cfg.prioI2c)) ∧
    (∀ k, exec (.evI2cErr k) s = .refused .eventNotDeliverable ↔
      ¬ ((s.i2cPhase = .sbPending ∨ s.i2cPhase = .txBusy ∨ s.i2cPhase = .txReady) ∧ Turn s s.cfg.prioI2c)) ∧
    (∀ b, exec (.evSpiRx b) s = .refused .eventNotDeliverable ↔ ¬ (s.spiBusy = true ∧ Turn s s.cfg.prioSpi)) ∧
    (∀ k, exec (.evSpiRxfail k) s = .refused .eventNotDeliverable ↔ ¬ (s.spiBusy = true ∧ Turn s s.cfg.prioSpi))

/-! ### FIFO (40_fifo.md) -/

/-- R140. -/
def Obligations.FifoWriteStoresOrRejects : Prop :=
  ∀ (b : Byte) (s : State), s.halted = false →
    AccessFaults .disp (.fifoWrite b) s ∧
    (AccessPasses .disp s → s.fifoLen.toNat = s.cfg.cap →
      exec (.fifoWrite b) s = .next { s with rsp := some 0 }) ∧
    (AccessPasses .disp s → s.fifoLen.toNat ≠ s.cfg.cap → 0 < s.cfg.cap →
      exec (.fifoWrite b) s = .next
        { s with
          buf := Memory.write s.buf ((s.fifoPtr.toNat + s.fifoLen.toNat) % s.cfg.cap) b
          fifoLen := s.fifoLen + 1
          rsp := some 1 })

/-- R141: RSP[8] is the valid bit, RSP[7:0] the byte. -/
def Obligations.FifoReadTakesTheOldest : Prop :=
  ∀ s : State, s.halted = false →
    AccessFaults .disp .fifoRead s ∧
    (AccessPasses .disp s → s.fifoLen = 0 → exec .fifoRead s = .next { s with rsp := some 0 }) ∧
    (AccessPasses .disp s → s.fifoLen ≠ 0 → s.fifoPtr.toNat < s.cfg.cap →
      exec .fifoRead s = .next { popped s with rsp := some (BitVec.ofNat 32 (2 ^ 8 + (oldest s).toNat)) })

/-- R143, R144 and R145: the three looks at the FIFO answer and change nothing. -/
def Obligations.FifoLooksAnswer : Prop :=
  ∀ s : State, s.halted = false →
    AccessFaults .disp .fifoPeek s ∧ AccessFaults .disp .fifoLen s ∧ AccessFaults .disp .fifoIsempty s ∧
    (AccessPasses .disp s →
      (s.fifoLen = 0 → exec .fifoPeek s = .next { s with rsp := some 0 }) ∧
      (s.fifoLen ≠ 0 → s.fifoPtr.toNat < s.cfg.cap →
        exec .fifoPeek s = .next { s with rsp := some (BitVec.ofNat 32 (2 ^ 8 + (oldest s).toNat)) }) ∧
      exec .fifoLen s = .next { s with rsp := some (BitVec.ofNat 32 s.fifoLen.toNat) } ∧
      exec .fifoIsempty s = .next { s with rsp := some (if s.fifoLen = 0 then 1 else 0) })

/-- The FIFO's commands act on the list of R35 as a bounded queue: a write appends, a read takes the head, in order, and
a full or empty FIFO is left as it is (R140, R141, R146). -/
def Obligations.FifoCommandsActOnAQueue : Prop :=
  ∀ (b : Byte) (s t u : State), FifoInv s → s.halted = false → AccessPasses .disp s →
    exec (.fifoWrite b) s = .next t → exec .fifoRead s = .next u →
    s.fifoList.length = s.fifoLen.toNat ∧
    (s.fifoList.length = s.cfg.cap → t.fifoList = s.fifoList ∧ t.rsp = some 0) ∧
    (s.fifoList.length < s.cfg.cap → t.fifoList = s.fifoList ++ [b] ∧ t.rsp = some 1) ∧
    (s.fifoList = [] → u.fifoList = [] ∧ u.rsp = some 0) ∧
    (∀ x l, s.fifoList = x :: l → u.fifoList = l ∧ u.rsp = some (BitVec.ofNat 32 (2 ^ 8 + x.toNat)))

/-- R146 for every step of the machine: the queue is unchanged, or an accepted write appended its byte, or FIFO.READ or
EV.I2C_TXE took the head. -/
def Obligations.EveryStepKeepsFifoOrder : Prop :=
  ∀ (c : Choice) (s t : State), FifoInv s → stepChoice c s = .next t →
    t.fifoList = s.fifoList ∨
    (∃ b, Runs c s (.fifoWrite b) ∧ s.fifoList.length < s.cfg.cap ∧ t.fifoList = s.fifoList ++ [b]) ∨
    (∃ x, (Runs c s .fifoRead ∨ Runs c s .evI2cTxe) ∧ s.fifoList = x :: t.fifoList)

/-- R142 with the "only" clauses of R33 and R34: FIFO_PTR moves one slot, modulo CAP, and only with a byte taken;
FIFO_LEN grows only by FIFO.WRITE. -/
def Obligations.CursorAdvanceLaw : Prop :=
  ∀ (c : Choice) (s t : State), FifoInv s → stepChoice c s = .next t →
    t.fifoPtr.toNat < t.cfg.cap ∧ t.fifoLen.toNat ≤ t.cfg.cap ∧
    ((t.fifoPtr = s.fifoPtr ∧ t.fifoLen = s.fifoLen) ∨
     (t.fifoPtr = s.fifoPtr ∧ t.fifoLen.toNat = s.fifoLen.toNat + 1 ∧ ∃ b, Runs c s (.fifoWrite b)) ∨
     (t.fifoPtr.toNat = (s.fifoPtr.toNat + 1) % s.cfg.cap ∧ t.fifoLen.toNat + 1 = s.fifoLen.toNat ∧
       (Runs c s .fifoRead ∨ Runs c s .evI2cTxe)))

/-- No instruction stores to a slot of BUF but an accepted FIFO.WRITE, and that one only to FIFO_WPTR. -/
def Obligations.OnlyAcceptedWritesStore : Prop :=
  ∀ (i : Instr) (s t : State), FifoInv s → exec i s = .next t →
    (∀ k, Memory.read t.buf k = Memory.read s.buf k) ∨
    ∃ b, i = .fifoWrite b ∧ s.fifoLen.toNat ≠ s.cfg.cap ∧ Memory.read t.buf s.fifoWptr = b ∧
      ∀ k, k ≠ s.fifoWptr → Memory.read t.buf k = Memory.read s.buf k

/-- R38: what a slot that is not occupied holds is never observed. Two states that differ in such slots alone take the
same steps, with the same responses, wire actions and faults, to two states that again differ in such slots alone. -/
def Obligations.VacantSlotsAreNeverObserved : Prop :=
  ∀ (c : Choice) (s₁ s₂ : State), FifoInv s₁ → FifoInv s₂ → SameButVacant s₁ s₂ →
    (∀ t₁, stepChoice c s₁ = .next t₁ → ∃ t₂, stepChoice c s₂ = .next t₂ ∧ SameButVacant t₁ t₂) ∧
    (∀ f, stepChoice c s₁ = .fault f → stepChoice c s₂ = .fault f) ∧
    (∀ r, stepChoice c s₁ = .refused r → stepChoice c s₂ = .refused r)

/-! ### ARB (41_arbiter.md) -/

/-- R172. -/
def Obligations.ArbClaimRaises : Prop :=
  ∀ (r : Resource) (s : State), s.halted = false →
    (s.ceil r < s.running.base →
      exec (.arbClaim r) s = .next (commandFault s .arbAboveCeiling (encode (.arbClaim r)))) ∧
    (s.running.base ≤ s.ceil r → s.running.claims.length = s.cfg.nestMax →
      exec (.arbClaim r) s = .next (commandFault s .arbNestOverflow (encode (.arbClaim r)))) ∧
    (s.running.base ≤ s.ceil r → s.running.claims.length ≠ s.cfg.nestMax →
      exec (.arbClaim r) s = .next
        { s with
          running := { s.running with
            claims := s.running.claims ++ [s.running.cur]
            cur := BitVec.ofNat 8 (max s.running.cur.toNat (s.ceil r).toNat) }
          rsp := some (BitVec.ofNat 32 (max s.running.cur.toNat (s.ceil r).toNat)) })

/-- R173. -/
def Obligations.ArbReleaseRestores : Prop :=
  ∀ s : State, s.halted = false →
    (s.running.claims = [] → exec .arbRelease s = .next (commandFault s .arbReleaseEmpty 0x11000000)) ∧
    (∀ held p, s.running.claims = held ++ [p] →
      exec .arbRelease s = .next
        { s with
          running := { s.running with claims := held, cur := p }
          rsp := some (BitVec.ofNat 32 p.toNat) })

/-- R175: while any frame runs at or above CEIL[r], as it does from a claim on r until its release, no other context that
passes access(r) runs: every frame above it fails that check with F_ARB_ABOVE_CEILING, and r's bus handler is not
deliverable. -/
def Obligations.MutualExclusion : Prop :=
  ∀ (r : Resource) (s : State) (above below : List Frame) (f : Frame), ArbInv s →
    s.running :: s.preempted = above ++ f :: below → s.ceil r ≤ f.cur →
    (∀ g ∈ above, s.access r g.base g.cur = some .arbAboveCeiling) ∧
    (match r with
     | .disp => s.deliverable .i2c = false
     | .sens => s.deliverable .spi = false)

/-! ### DISP (42_display.md) -/

/-- R201. -/
def Obligations.DispKickStartsOrRearms : Prop :=
  ∀ s : State, s.halted = false →
    AccessFaults .disp .dispKick s ∧
    (AccessPasses .disp s → s.disp = .stopped →
      exec .dispKick s = .next
        { s with
          disp := .idle
          dispArmed := true
          i2cPhase := .sbPending
          trace := s.trace ++ [.i2cStart]
          rsp := some 1 }) ∧
    (AccessPasses .disp s → s.disp ≠ .stopped → exec .dispKick s = .next { s with dispArmed := true, rsp := some 0 })

/-- R202 and R208: the fault, the completion, and, while the wait is not complete, no step of the idle context (R318). -/
def Obligations.WaitDrainCompletesBelowHalf : Prop :=
  ∀ s : State, s.halted = false →
    (s.running.ctx ≠ 0 ∨ s.running.claims ≠ [] →
      exec .dispWaitdrain s = .next (commandFault s .waitContext 0x21000000)) ∧
    (s.running.ctx = 0 → s.running.claims = [] → 2 * s.fifoLen.toNat < s.cfg.cap →
      exec .dispWaitdrain s = .next { s with rsp := some (BitVec.ofNat 32 s.fifoLen.toNat) }) ∧
    (s.running.ctx = 0 → s.running.claims = [] → s.cfg.cap ≤ 2 * s.fifoLen.toNat →
      exec .dispWaitdrain s = .refused .drainWaitIncomplete ∧
      ∀ it, s.item = some it → it.word = 0x21000000 → ∀ t, stepChoice .context s ≠ .next t)

/-- R210: the address byte, in every channel state, whether armed or not. The byte's layout, the 7-bit address above a 0
direction bit, is R204's, which marks it as general knowledge that no source gives: PRESUMED (log entry 13). -/
def Obligations.AddressNeededWritesTheAddress : Prop :=
  ∀ s : State, I2cTurn s → s.i2cPhase = .sbPending →
    exec .evI2cSb s = .next (wrote (BitVec.ofNat 8 (2 * s.cfg.dispAddr7.toNat)) s)

/-- R212: the fault of a byte-ready event in Stopped, which the state machines never let happen. -/
def Obligations.ByteReadyInStopped : Prop :=
  (∀ s : State, ByteReady s → s.disp = .stopped →
    exec .evI2cTxe s = .next (eventFault s .dispStoppedTxe 0xF1000000 0xE)) ∧
  (∀ s : State, BusInv s → ByteReady s → s.disp ≠ .stopped)

/-- R207 and R213: idle logic, in Idle and in Control(0). -/
def Obligations.ByteReadyFetchesAHeader : Prop :=
  ∀ s : State, ByteReady s → s.disp = .idle ∨ s.disp = .control 0 →
    (s.fifoLen = 0 → exec .evI2cTxe s = .next { s with disp := .idle, dispArmed := false }) ∧
    (s.fifoLen ≠ 0 → s.fifoPtr.toNat < s.cfg.cap →
      (0x80 ≤ (oldest s).toNat →
        exec .evI2cTxe s = .next
          (wrote s.cfg.ctrlPrefix { popped s with disp := .control2 (BitVec.ofNat 8 ((oldest s).toNat - 0x80)) })) ∧
      ((oldest s).toNat < 0x80 →
        exec .evI2cTxe s = .next (wrote s.cfg.dataPrefix { popped s with disp := .data (oldest s) })))

/-- R214 and R215: Control(n) and Control2(n). -/
def Obligations.ByteReadyInControl : Prop :=
  ∀ (n : Byte) (s : State), ByteReady s →
    (s.disp = .control n → n ≠ 0 →
      exec .evI2cTxe s = .next (wrote s.cfg.ctrlPrefix { s with disp := .control2 n })) ∧
    (s.disp = .control 0 → exec .evI2cTxe s = exec .evI2cTxe { s with disp := .idle }) ∧
    (s.disp = .control2 0 → exec .evI2cTxe s = .next (eventFault s .dispCtrl2Zero 0xF1000000 0xE)) ∧
    (s.disp = .control2 n → n ≠ 0 → s.fifoLen = 0 → exec .evI2cTxe s = .next { s with dispArmed := false }) ∧
    (s.disp = .control2 n → n ≠ 0 → s.fifoLen ≠ 0 → s.fifoPtr.toNat < s.cfg.cap →
      exec .evI2cTxe s = .next (wrote (oldest s) { popped s with disp := .control (BitVec.ofNat 8 (n.toNat - 1)) }))

/-- R216 and R217: Data(n), and Data(0) with its fold and its restart. -/
def Obligations.ByteReadyInData : Prop :=
  ∀ (n : Byte) (s : State), ByteReady s →
    (s.disp = .data n → n ≠ 0 → s.fifoLen = 0 → exec .evI2cTxe s = .next { s with dispArmed := false }) ∧
    (s.disp = .data n → n ≠ 0 → s.fifoLen ≠ 0 → s.fifoPtr.toNat < s.cfg.cap →
      exec .evI2cTxe s = .next (wrote (oldest s) { popped s with disp := .data (BitVec.ofNat 8 (n.toNat - 1)) })) ∧
    (s.disp = .data 0 → s.fifoLen ≠ 0 → s.fifoPtr.toNat < s.cfg.cap → (oldest s).toNat < 0x80 →
      exec .evI2cTxe s = .next { popped s with disp := .data (oldest s) }) ∧
    (s.disp = .data 0 → (s.fifoLen = 0 ∨ (s.fifoPtr.toNat < s.cfg.cap ∧ 0x80 ≤ (oldest s).toNat)) →
      exec .evI2cTxe s = .next
        { s with disp := .idle, i2cPhase := .sbPending, trace := s.trace ++ [.i2cRestart] })

/-- R218 and R325: an I2C error is recorded and stalls the bus; with TO_STOPPED it also stops the channel. -/
def Obligations.I2cErrorIsRecorded : Prop :=
  ∀ (k : ErrorKind) (s : State), I2cTurn s →
    s.i2cPhase = .sbPending ∨ s.i2cPhase = .txBusy ∨ s.i2cPhase = .txReady →
    (s.cfg.errRecovery = .none →
      exec (.evI2cErr k) s = .next { s with i2cPhase := .stalled, dispLastErr := k }) ∧
    (s.cfg.errRecovery = .toStopped →
      exec (.evI2cErr k) s = .next
        { s with i2cPhase := .stalled, dispLastErr := k, disp := .stopped, dispArmed := false })

/-- The framing law of R219 with the counts of R220: a Control packet of L bytes and a Data packet of M bytes, alone in
the FIFO of an Idle channel, leave it in 2L + M + 1 byte-ready events (each followed by the agent's own step) with every
control byte after its own control prefix and every data byte after one data prefix; the FIFO is then empty, the channel
in Data(0), and one more event restarts the bus. -/
def Obligations.FramingLaw : Prop :=
  ∀ (s : State) (cs ds : List Byte) (rest : List Choice), FifoInv s → ByteReady s → s.disp = .idle →
    1 ≤ cs.length → cs.length ≤ 127 → 1 ≤ ds.length → ds.length ≤ 127 →
    s.fifoList = BitVec.ofNat 8 (0x80 + cs.length) :: cs ++ BitVec.ofNat 8 ds.length :: ds →
    s.schedule =
      (List.replicate (2 * cs.length + ds.length + 1) [Choice.event 0xF1000000, Choice.i2cByteOut]).flatten
        ++ Choice.event 0xF1000000 :: rest →
    ∃ t u,
      Sys2Proof.core.run (2 * (2 * cs.length + ds.length + 1)) s = .next t ∧
      t.trace = s.trace ++
        (cs.flatMap fun b => [WireAction.i2cWrite s.cfg.ctrlPrefix, WireAction.i2cWrite b]) ++
        WireAction.i2cWrite s.cfg.dataPrefix :: ds.map WireAction.i2cWrite ∧
      t.fifoList = [] ∧ t.disp = .data 0 ∧ t.halted = false ∧
      step t = .next u ∧ u.trace = t.trace ++ [WireAction.i2cRestart] ∧ u.disp = .idle ∧ u.schedule = rest

/-! ### SENS (43_sensor.md) -/

/-- R241 and R242. -/
def Obligations.SensorStarts : Prop :=
  ∀ (reg v : Byte) (s : State), s.halted = false →
    AccessFaults .sens (.sensStartRead reg) s ∧ AccessFaults .sens (.sensStartWrite reg v) s ∧
    (AccessPasses .sens s → s.sensTag ≠ .idle → s.sensTag ≠ .finished →
      exec (.sensStartRead reg) s = .next (commandFault s .sensBusy (encode (.sensStartRead reg))) ∧
      exec (.sensStartWrite reg v) s = .next (commandFault s .sensBusy (encode (.sensStartWrite reg v)))) ∧
    (AccessPasses .sens s → s.sensTag = .idle ∨ s.sensTag = .finished →
      exec (.sensStartRead reg) s = .next
        { s with
          sensTag := .readFirst
          sensAction := .read
          spiSel := true
          spiBusy := true
          trace := s.trace ++ [.spiSelect, .spiWrite reg]
          rsp := some 0 } ∧
      exec (.sensStartWrite reg v) s = .next
        { s with
          sensTag := .readFirst
          sensAction := .write v
          spiSel := true
          spiBusy := true
          trace := s.trace ++ [.spiSelect, .spiWrite reg]
          rsp := some 0 })

/-- R243: phase 1 discards the byte and sends 0 for a read, the value for a write. R244: phase 2 captures the byte.
R245: an event in any other state faults, and the bus agent never offers one. -/
def Obligations.SpiCompletionAdvancesTheTransfer : Prop :=
  ∀ (b : Byte) (s : State),
    (SpiComplete s → s.sensTag = .readFirst →
      (s.sensAction = .read →
        exec (.evSpiRx b) s = .next
          { s with sensTag := .readSecond, spiBusy := true, trace := s.trace ++ [.spiWrite 0] }) ∧
      (∀ v, s.sensAction = .write v →
        exec (.evSpiRx b) s = .next
          { s with sensTag := .readSecond, spiBusy := true, trace := s.trace ++ [.spiWrite v] })) ∧
    (SpiComplete s → s.sensTag = .readSecond →
      exec (.evSpiRx b) s = .next
        { s with
          sensTag := .finished
          sensResult := b
          spiSel := false
          spiBusy := false
          trace := s.trace ++ [.spiRelease] }) ∧
    (SpiComplete s → s.sensTag ≠ .readFirst → s.sensTag ≠ .readSecond →
      exec (.evSpiRx b) s = .next (eventFault s .sensUnexpectedEvent (encode (.evSpiRx b)) 0xF)) ∧
    (BusInv s → SpiComplete s → s.sensTag = .readFirst ∨ s.sensTag = .readSecond)

/-- R246, its checks in the order of R304. -/
def Obligations.SpiReceiveFailure : Prop :=
  ∀ (k : ErrorKind) (s : State), SpiComplete s →
    (s.sensTag ≠ .readFirst → s.sensTag ≠ .readSecond →
      exec (.evSpiRxfail k) s = .next (eventFault s .sensUnexpectedEvent (encode (.evSpiRxfail k)) 0xF)) ∧
    (s.sensTag = .readFirst ∨ s.sensTag = .readSecond → s.cfg.rxFailPolicy = .trap →
      exec (.evSpiRxfail k) s = .next (eventFault s .sensRxfail (encode (.evSpiRxfail k)) 0xF)) ∧
    (s.sensTag = .readFirst ∨ s.sensTag = .readSecond → s.cfg.rxFailPolicy = .log →
      exec (.evSpiRxfail k) s = .next { s with spiBusy := false, sensLastErr := k })

/-- The two-phase law of R247, each command and event in its place: the start and the release of its claim by a context
that then runs below PRIO_SPI, and two completions. -/
def Obligations.TwoPhaseLaw : Prop :=
  ∀ (s : State) (held : List Prio) (p : Prio) (reg v x y : Byte),
    Turn { s with running := { s.running with cur := p } } s.cfg.prioSpi →
    s.ceilSens = s.cfg.prioSpi → AccessPasses .sens s → s.running.claims = held ++ [p] →
    s.sensTag = .idle ∨ s.sensTag = .finished →
    ∀ (i : Instr) (sent : Byte), (i = .sensStartRead reg ∧ sent = 0) ∨ (i = .sensStartWrite reg v ∧ sent = v) →
      ∃ s₁ s₂ s₃ s₄,
        exec i s = .next s₁ ∧ exec .arbRelease s₁ = .next s₂ ∧ exec (.evSpiRx x) s₂ = .next s₃ ∧
        exec (.evSpiRx y) s₃ = .next s₄ ∧ s₄.sensTag = .finished ∧ s₄.sensResult = y ∧
        s₄.trace = s.trace ++ [.spiSelect, .spiWrite reg, .spiWrite sent, .spiRelease]

/-! ### RES (44_busresult.md) and CSR (45_system.md) -/

/-- R272 and R273: the first error bit set, by number, decides; with none, the polled flag. -/
def Obligations.ClassifyIsFirstMatch : Prop :=
  ∀ (status : BitVec 5) (polled : Bool) (s : State), s.halted = false →
    (∀ n, n < 5 → status.getLsbD n = true → (∀ m, m < n → status.getLsbD m = false) →
      exec (.resClassify status polled) s = .next { s with rsp := some (BitVec.ofNat 32 (0x11 + n)) }) ∧
    (status = 0 → exec (.resClassify status polled) s = .next { s with rsp := some (if polled then 0 else 1) })

/-- R274 and the laws of R275: one link of a chain; RSP[8] says whether the next step runs. -/
def Obligations.ContinuationShortCircuits : Prop :=
  ∀ (prior next : BusResult) (s : State), s.halted = false →
    (prior = .ok →
      exec (.resCont prior next) s = .next { s with rsp := some (BitVec.ofNat 32 (0x100 + next.code.toNat)) }) ∧
    (prior ≠ .ok → exec (.resCont prior next) s = .next { s with rsp := some (BitVec.ofNat 32 prior.code.toNat) })

/-- R275's consequence: folding a chain left to right with RES.CONT, each link fed the last response's RSP[7:0], ends in
the first result that is not Ok, or in Ok. -/
def Obligations.ChainReportsTheFirstFailure : Prop :=
  ∀ (s : State) (results : List BusResult), s.halted = false →
    results.foldl
      (fun r next =>
        match exec (.resCont r next) s with
        | .next t => ((t.rsp.map fun v => v.a).bind BusResult.ofCode).getD .busy
        | _ => .busy)
      .ok
    = (results.find? fun r => decide (r ≠ .ok)).getD .ok

/-- R290 over the map of R59: the value of each row, its access check, and the halted block's exemption. That FAULT_WORD
is answered with all its 32 bits, bit 31 included, is the model's reading of R290 over R104: DEDUCED (log entry 7). -/
def Obligations.CsrReadAnswersItsRow : Prop :=
  ∀ (c : Csr) (s : State),
    (csrResource c = some .disp ↔ c ∈ [Csr.fifoPtr, .fifoLen, .fifoWptr, .dispState, .dispLastErr]) ∧
    (csrResource c = some .sens ↔ c ∈ [Csr.sensState, .sensResult, .sensLastErr]) ∧
    (s.halted = true → exec (.csrRead c) s = .next { s with rsp := some (BitVec.ofNat 32 (csrFields c s)) }) ∧
    (s.halted = false → csrResource c = none →
      exec (.csrRead c) s = .next { s with rsp := some (BitVec.ofNat 32 (csrFields c s)) }) ∧
    (∀ r, s.halted = false → csrResource c = some r →
      AccessFaults r (.csrRead c) s ∧
      (AccessPasses r s →
        exec (.csrRead c) s = .next { s with rsp := some (BitVec.ofNat 32 (csrFields c s)) }))

/-! ### Handlers, agents and the environment (60_exceptions.md) -/

/-- R315: the trigger sets one pending bit and runs nothing; a trigger of an id that is not in SW_CTX is illegal. -/
def Obligations.TriggerSetsPending : Prop :=
  ∀ (k : CtxId) (s : State), s.halted = false →
    (s.cfg.swEntry k = none →
      exec (.evSwTrigger k) s = .next (eventFault s .illegalCmd (encode (.evSwTrigger k)) 0xD)) ∧
    (∀ e, s.cfg.swEntry k = some e → ∃ bits,
      exec (.evSwTrigger k) s = .next { s with pending := bits } ∧
      ∀ j : CtxId, bits.getLsbD j.toNat = (decide (j = k) || s.pending.getLsbD j.toNat))

/-- R312: the entry of a software handler, and that there is none without its pending bit and its turn (R174, R309). -/
def Obligations.HandlerEntry : Prop :=
  ∀ (k : CtxId) (e : SwEntry) (s : State), s.cfg.swEntry k = some e →
    (¬ (s.isPending k = true ∧ Turn s e.prio) → stepChoice (.enter k) s = .refused .handlerNotDeliverable) ∧
    (s.isPending k = true → Turn s e.prio → ∃ bits,
      stepChoice (.enter k) s = .next
        { s with
          pending := bits
          running := { ctx := k, base := e.prio, cur := e.prio, claims := [],
                       place := { code := e.program, pos := 0, vars := [] } }
          preempted := s.running :: s.preempted } ∧
      ∀ j : CtxId, bits.getLsbD j.toNat = (!decide (j = k) && s.pending.getLsbD j.toNat))

/-- R313: the end of a context's program, and that a handler deliverable at the lowered priority goes first. -/
def Obligations.EndOfProgram : Prop :=
  ∀ s : State, s.halted = false → NothingForced s → s.item = none → ¬ (s.running.ctx = 0 ∧ s.idleDone = true) →
    (s.running.claims ≠ [] → stepChoice .context s = .next (eventFault s .arbClaimLeak 0 s.running.ctx)) ∧
    (∀ f rest, s.running.claims = [] → s.running.ctx ≠ 0 → s.preempted = f :: rest →
      stepChoice .context s = .next { s with running := f, preempted := rest } ∧
      (¬ NothingForced { s with running := f, preempted := rest } →
        stepChoice .context { s with running := f, preempted := rest } = .refused .deliveryForced)) ∧
    (s.running.claims = [] → s.running.ctx = 0 → stepChoice .context s = .next { s with idleDone := true })

/-- R322 and R328: the bus agents' internal steps, each exactly when its condition holds, and refused otherwise. -/
def Obligations.AgentSteps : Prop :=
  ∀ s : State,
    (s.halted = false → s.i2cPhase = .txBusy → stepChoice .i2cByteOut s = .next { s with i2cPhase := .txReady }) ∧
    (s.halted = true ∨ s.i2cPhase ≠ .txBusy → stepChoice .i2cByteOut s = .refused .agentHasNoStep) ∧
    (s.i2cPhase = .txBusy → ¬ Final s) ∧
    (s.halted = false → s.cfg.eventLoss = true → s.i2cPhase = .txReady → s.dispArmed = true →
      stepChoice .loseTxe s = .next { s with dispArmed := false }) ∧
    (s.halted = false → s.cfg.eventLoss = true → s.i2cPhase = .sbPending →
      stepChoice .loseSb s = .next { s with i2cPhase := .stalled }) ∧
    (s.halted = false → s.cfg.eventLoss = true → s.spiBusy = true →
      stepChoice .loseSpi s = .next { s with spiBusy := false }) ∧
    (s.halted = true ∨ s.cfg.eventLoss = false ∨ s.i2cPhase ≠ .txReady ∨ s.dispArmed = false →
      stepChoice .loseTxe s = .refused .agentHasNoStep) ∧
    (s.halted = true ∨ s.cfg.eventLoss = false ∨ s.i2cPhase ≠ .sbPending →
      stepChoice .loseSb s = .refused .agentHasNoStep) ∧
    (s.halted = true ∨ s.cfg.eventLoss = false ∨ s.spiBusy = false →
      stepChoice .loseSpi s = .refused .agentHasNoStep)

/-! ### Frames: what each instruction leaves unchanged whenever it answers a next state -/

/-- The commands that only look: FIFO.PEEK, FIFO.LEN, FIFO.ISEMPTY, DISP.WAITDRAIN, RES.CLASSIFY, RES.CONT, CSR.READ. -/
def Obligations.LooksChangeNothing : Prop :=
  ∀ (i : Instr) (s t : State),
    i = .fifoPeek ∨ i = .fifoLen ∨ i = .fifoIsempty ∨ i = .dispWaitdrain ∨ (∃ a b, i = .resClassify a b) ∨
      (∃ a b, i = .resCont a b) ∨ (∃ c, i = .csrRead c) →
    exec i s = .next t → t = { s with rsp := t.rsp } ∨ ∃ c, c ≠ .none ∧ t = commandFault s c (encode i)

/-- FIFO.WRITE changes FIFO_LEN and at most the one slot at FIFO_WPTR, and stores nothing to a full FIFO; FIFO.READ changes
the cursor and the count and no slot; ARB.CLAIM and ARB.RELEASE the running frame's priority and claims. -/
def Obligations.FifoAndArbFrames : Prop :=
  (∀ (b : Byte) (s t : State), exec (.fifoWrite b) s = .next t →
    (t = { s with buf := t.buf, fifoLen := t.fifoLen, rsp := t.rsp } ∧
      (∀ k, k ≠ (s.fifoPtr.toNat + s.fifoLen.toNat) % s.cfg.cap → Memory.read t.buf k = Memory.read s.buf k) ∧
      (s.fifoLen.toNat = s.cfg.cap → t.buf = s.buf ∧ t.fifoLen = s.fifoLen)) ∨
      ∃ c, c ≠ .none ∧ t = commandFault s c (encode (.fifoWrite b))) ∧
  (∀ s t : State, exec .fifoRead s = .next t →
    t = { s with fifoPtr := t.fifoPtr, fifoLen := t.fifoLen, rsp := t.rsp } ∨
      ∃ c, c ≠ .none ∧ t = commandFault s c (encode .fifoRead)) ∧
  (∀ (i : Instr) (s t : State), i = .arbRelease ∨ (∃ r, i = .arbClaim r) → exec i s = .next t →
    t = { s with
      running := { s.running with claims := t.running.claims, cur := t.running.cur }
      rsp := t.rsp } ∨
      ∃ c, c ≠ .none ∧ t = commandFault s c (encode i))

/-- The display's commands and events change only the channel, the FIFO's cursor and count, the I2C phase and the trace;
in particular a built-in handler's step leaves FRAMES as it is (R314), and no byte of BUF changes. -/
def Obligations.DisplayFrame : Prop :=
  ∀ (i : Instr) (s t : State), i = .dispKick ∨ i = .evI2cSb ∨ i = .evI2cTxe ∨ (∃ k, i = .evI2cErr k) →
    exec i s = .next t →
    t = { s with
      disp := t.disp
      dispArmed := t.dispArmed
      dispLastErr := t.dispLastErr
      fifoPtr := t.fifoPtr
      fifoLen := t.fifoLen
      i2cPhase := t.i2cPhase
      trace := t.trace
      rsp := t.rsp } ∨
    ∃ c ctx, c ≠ .none ∧ (t = commandFault s c (encode i) ∨ t = eventFault s c (encode i) ctx)

/-- The sensor's commands and events change only the transaction, the SPI interface and the trace; a trigger changes only
PENDING. -/
def Obligations.SensorAndTriggerFrames : Prop :=
  (∀ (i : Instr) (s t : State),
    (∃ r, i = .sensStartRead r) ∨ (∃ r v, i = .sensStartWrite r v) ∨ (∃ b, i = .evSpiRx b) ∨
      (∃ k, i = .evSpiRxfail k) →
    exec i s = .next t →
    t = { s with
      sensTag := t.sensTag
      sensAction := t.sensAction
      sensResult := t.sensResult
      sensLastErr := t.sensLastErr
      spiBusy := t.spiBusy
      spiSel := t.spiSel
      trace := t.trace
      rsp := t.rsp } ∨
    ∃ c ctx, c ≠ .none ∧ (t = commandFault s c (encode i) ∨ t = eventFault s c (encode i) ctx)) ∧
  (∀ (k : CtxId) (s t : State), exec (.evSwTrigger k) s = .next t →
    t = { s with pending := t.pending } ∨ ∃ c, c ≠ .none ∧ t = eventFault s c (encode (.evSwTrigger k)) 0xD)

/-- SENS_RESULT is written only by EV.SPI_RX in ReadSecond (R46), and TRACE only grows (R55), by at most one action but
for the two of a sensor start. -/
def Obligations.OutputsOnlyGrow : Prop :=
  ∀ (c : Choice) (s t : State), stepChoice c s = .next t →
    (t.sensResult = s.sensResult ∨ ∃ b, Runs c s (.evSpiRx b) ∧ s.sensTag = .readSecond ∧ t.sensResult = b) ∧
    ∃ l, t.trace = s.trace ++ l ∧
      (l.length ≤ 1 ∨ ∃ r, l = [.spiSelect, .spiWrite r] ∧
        (Runs c s (.sensStartRead r) ∨ ∃ v, Runs c s (.sensStartWrite r v)))

/-- R31 and R49: no step changes a parameter or a ceiling. -/
def Obligations.ParametersNeverChange : Prop :=
  ∀ s t : State, step s = .next t → t.cfg = s.cfg ∧ t.ceilDisp = s.ceilDisp ∧ t.ceilSens = s.ceilSens

/-! ### Faults (60_exceptions.md) -/

/-- R300: a step that halts the block changes nothing but the four fault fields: code, the word executed, the context.
The issuing context gets its response and its own program moves on past the answered command (R57). -/
def Obligations.FaultsArePrecise : Prop :=
  ∀ (c : Choice) (s t : State), s.halted = false → stepChoice c s = .next t → t.halted = true →
    t = { s with
      faultCode := t.faultCode
      faultWord := t.faultWord
      faultCtx := t.faultCtx
      halted := true
      rsp := t.rsp
      running := { s.running with place := t.running.place } } ∧
    t.faultCode ≠ .none ∧
    (∀ w, c = .event w → t.faultWord = w ∧ t.rsp = s.rsp ∧
      (∀ i, decode .event w = .ok i →
        t.faultCtx =
          match i with
          | .evSpiRx _ | .evSpiRxfail _ => 0xF
          | .evSwTrigger _ => 0xD
          | _ => 0xE) ∧
      (∀ e, decode .event w = .error e → t.faultCtx = 0xD)) ∧
    (∀ it, c = .context → s.item = some it →
      t.faultWord = it.word ∧ t.faultCtx = s.running.ctx ∧
        t.rsp = some (BitVec.ofNat 32 (2 ^ 31 + t.faultCode.code.toNat))) ∧
    (c = .context → s.item = none → t.faultWord = 0 ∧ t.faultCtx = s.running.ctx)

/-- R301: every fault has the cause its row gives, and no other step faults. -/
def Obligations.FaultsHaveTheirCauses : Prop :=
  ∀ (c : Choice) (s t : State), s.cfg.wf = true → s.halted = false → stepChoice c s = .next t → t.halted = true →
    FaultCause c s t.faultCode

/-- R302: a halted block answers every command but a valid CSR.READ with its fault code, and nothing changes it: a context
at an item steps, whatever handler is ready above it, and is answered so, or with the CSR's value; events do nothing, no handler is entered, no program ends, no agent steps. That a valid bus event word whose delivery condition
fails is a step without effect, and is not refused as R311 has it, and that the entries, ends and agents' steps are
refused, is the model's reading: DEDUCED (log entry 10), and so is the move of the answered context's place (log entry
19). -/
def Obligations.HaltedBlockIsQuiescent : Prop :=
  ∀ (c : Choice) (s : State), s.halted = true →
    (∀ t, stepChoice c s = .next t →
      t = { s with rsp := t.rsp, running := { s.running with place := t.running.place } }) ∧
    (∀ w, (∀ r, decode .command w ≠ .ok (.csrRead r)) →
      issueCommand w s = .next { s with rsp := some (BitVec.ofNat 32 (2 ^ 31 + s.faultCode.code.toNat)) }) ∧
    (∀ w, presentEvent w s = .next s) ∧
    (∀ k t, stepChoice (.enter k) s ≠ .next t) ∧
    (∀ t, s.item = none → stepChoice .context s ≠ .next t) ∧
    (∀ it, s.item = some it → ¬ (s.running.ctx = 0 ∧ s.idleDone = true) → ∃ v,
      stepChoice .context s = .next
        { s with rsp := some v, running := { s.running with place := placeAfter it v s.running.place } } ∧
      (∀ r, decode .command it.word = .ok (.csrRead r) → v = BitVec.ofNat 32 (csrFields r s)) ∧
      ((∀ r, decode .command it.word ≠ .ok (.csrRead r)) → v = BitVec.ofNat 32 (2 ^ 31 + s.faultCode.code.toNat))) ∧
    (∀ a t, a = .i2cByteOut ∨ a = .loseTxe ∨ a = .loseSb ∨ a = .loseSpi → stepChoice a s ≠ .next t)

/-- The model's own two stops (R14's missing slot, an empty stack) are never reached from a good state. -/
def Obligations.NoStopsFromGoodStates : Prop :=
  ∀ (s : State) (f : Fault), FifoInv s → ArbInv s → step s ≠ .fault f

/-! ### Reset and the invariants -/

/-- R60 and R350: the reset state of any admitted parameter set, whatever the state before; R9 and R351: a set that fails
a constraint has none. What BUF and SENS_RESULT hold is the draw. -/
def Obligations.ResetValues : Prop :=
  ∀ (c : Config) (b : Boot),
    ((State.resetWith c b).isSome = true ↔
      (1 ≤ c.cap ∧ c.cap ≤ 65535 ∧ 2 ≤ c.nprio ∧ c.nprio ≤ 256 ∧
        1 ≤ c.prioI2c.toNat ∧ c.prioI2c.toNat < c.nprio ∧ 1 ≤ c.prioSpi.toNat ∧ c.prioSpi.toNat < c.nprio ∧
        c.swCtx.length ≤ 12 ∧
        (∀ e ∈ c.swCtx, 1 ≤ e.id.toNat ∧ e.id.toNat ≤ 12 ∧ 1 ≤ e.prio.toNat ∧ e.prio.toNat < c.nprio) ∧
        (c.swCtx.map SwEntry.id).Nodup ∧ 1 ≤ c.nestMax ∧ c.nestMax ≤ 255 ∧ c.ctrlPrefix ≠ c.dataPrefix)) ∧
    (∀ s, State.resetWith c b = some s →
      s.cfg = c ∧ s.fifoPtr = 0 ∧ s.fifoLen = 0 ∧ s.disp = .stopped ∧ s.dispArmed = false ∧ s.dispLastErr = .none ∧
      s.sensTag = .idle ∧ s.sensAction = .read ∧ s.sensResult = b.result ∧ s.sensLastErr = .none ∧
      s.frames = [{ ctx := 0, base := 0, cur := 0, claims := [], place := { code := b.idle, pos := 0, vars := [] } }] ∧
      s.ceilDisp = c.prioI2c ∧ s.ceilSens = c.prioSpi ∧ s.pending = 0 ∧
      s.faultCode = .none ∧ s.faultWord = 0 ∧ s.faultCtx = 0 ∧ s.halted = false ∧
      s.i2cPhase = .idle ∧ s.spiBusy = false ∧ s.spiSel = false ∧ s.trace = [] ∧
      (∀ k, k < c.cap → k < b.buf.length → Memory.read s.buf k = b.buf.getD k 0)) ∧
    (∀ s : State, s.applyReset b = State.resetWith s.cfg b)

/-- The reset state of every parameter set under every draw meets every invariant, `State.reset` among them. -/
def Obligations.ResetMeetsTheInvariants : Prop :=
  Inv State.reset ∧ ∀ (c : Config) (b : Boot) (s : State), State.resetWith c b = some s → Inv s

/-- Every step keeps the FIFO's invariant: 0 ≤ FIFO_PTR < CAP, FIFO_LEN ≤ CAP (R33, R34), BUF in its canonical form. -/
def Obligations.StepKeepsFifoInv : Prop :=
  ∀ s t : State, FifoInv s → step s = .next t → FifoInv t

/-- Every step keeps the state machines in step with the bus agents (R212, R221, R240, R326, R327). -/
def Obligations.StepKeepsBusInv : Prop :=
  ∀ s t : State, BusInv s → step s = .next t → BusInv t

/-- Every step keeps the arbiter's invariant: the stack, its priorities and claims, the ceilings, PENDING (R45, R49, R51). -/
def Obligations.StepKeepsArbInv : Prop :=
  ∀ s t : State, ArbInv s → step s = .next t → ArbInv t

/-- Every step keeps the fault record in agreement with HALTED, and a raised fault is never replaced (R52, R303). -/
def Obligations.StepKeepsFaultRecord : Prop :=
  ∀ s t : State, FaultInv s → step s = .next t →
    FaultInv t ∧ (s.halted = true → t.halted = true ∧ t.faultCode = s.faultCode ∧ t.faultWord = s.faultWord ∧
      t.faultCtx = s.faultCtx)

/-! ### The end of a run -/

/-- R319: a final state is changed only by what no agent owes: a trigger, an illegal event word, or an I2C error, which
R325 admits in TX_READY (log entry 14). -/
def Obligations.FinalStatesRest : Prop :=
  ∀ (c : Choice) (s t : State), Final s → stepChoice c s = .next t → ∃ w, c = .event w ∧ Unowed w

/-- R362: the idle context's drain wait at a FIFO at least half full whose channel takes no more bytes is stuck, as `Stuck`
has it: a step nobody owes is still possible (DESIGN CHOICE, log entry 22). -/
def Obligations.WaitOnAStoppedChannelIsStuck : Prop :=
  ∀ (s : State) (it : Item), s.halted = false → s.running.ctx = 0 → s.running.claims = [] → s.idleDone = false →
    s.item = some it → it.word = 0x21000000 → s.cfg.cap ≤ 2 * s.fifoLen.toNat → s.pending = 0 → s.spiBusy = false →
    s.i2cPhase = .idle ∨ s.i2cPhase = .stalled ∨ (s.i2cPhase = .txReady ∧ s.dispArmed = false) → Stuck s
end

