-- ==== Sys2Proof/Laws/Memory.lean ====
section
/-! SUPPORT. The laws of BUF as memory: a read gives the last write, a write leaves every other slot alone, and the
canonical form is kept, so equal contents are equal data. -/

namespace Sys2Proof.Machine

@[simp] theorem Memory.read_nil (i : Nat) : Memory.read [] i = Memory.unlisted := rfl

theorem Memory.read_cons (c : Host.Cell) (m : List Host.Cell) (i : Nat) :
    Memory.read (c :: m) i = if c.1 = i then c.2 else Memory.read m i := rfl

/-- A slot below every listed one reads as unlisted. -/
theorem Memory.read_of_below {m : List Host.Cell} {i : Nat} (h : ∀ c ∈ m, i < c.1) :
    Memory.read m i = Memory.unlisted := by
  induction m with
  | nil => rfl
  | cons c m ih =>
    have hc : i < c.1 := h c (by simp)
    rw [Memory.read_cons, if_neg (by omega)]
    exact ih fun d hd => h d (by simp [hd])

/-- The tail of a canonical memory is canonical. -/
theorem Memory.wf_tail {c : Host.Cell} {m : List Host.Cell} (h : Memory.wf (c :: m)) : Memory.wf m := by
  refine ⟨?_, fun d hd => h.2 d (by simp [hd])⟩
  have := h.1
  simp only [List.map_cons, List.pairwise_cons] at this
  exact this.2

/-- Every slot of a canonical memory's tail lies above its head. -/
theorem Memory.wf_head_lt {c : Host.Cell} {m : List Host.Cell} (h : Memory.wf (c :: m)) : ∀ d ∈ m, c.1 < d.1 := by
  have := h.1
  simp only [List.map_cons, List.pairwise_cons, List.mem_map, forall_exists_index, and_imp] at this
  exact fun d hd => this.1 d.1 d hd rfl

/-- Reading the slot just written gives the value written. -/
theorem Memory.read_write_same {m : List Host.Cell} (h : Memory.wf m) (i : Nat) (v : Byte) :
    Memory.read (Memory.write m i v) i = v := by
  induction m with
  | nil =>
    by_cases hv : v = Memory.unlisted
    · simp [Memory.write, hv]
    · simp [Memory.write, hv, Memory.read]
  | cons c m ih =>
    have hlt := Memory.wf_head_lt h
    by_cases h1 : i < c.1
    · by_cases hv : v = Memory.unlisted
      · rw [Memory.write, if_pos h1, if_pos hv, hv]
        exact Memory.read_of_below fun d hd => by
          rcases List.mem_cons.mp hd with rfl | hd
          · exact h1
          · exact h1.trans (hlt d hd)
      · rw [Memory.write, if_pos h1, if_neg hv, Memory.read_cons, if_pos rfl]
    · by_cases h2 : i = c.1
      · by_cases hv : v = Memory.unlisted
        · rw [Memory.write, if_neg h1, if_pos h2, if_pos hv, hv]
          exact Memory.read_of_below fun d hd => h2 ▸ hlt d hd
        · rw [Memory.write, if_neg h1, if_pos h2, if_neg hv, Memory.read_cons, if_pos rfl]
      · rw [Memory.write, if_neg h1, if_neg h2, Memory.read_cons, if_neg (by omega)]
        exact ih (Memory.wf_tail h)

/-- A write leaves every other slot alone. -/
theorem Memory.read_write_other (m : List Host.Cell) {i j : Nat} (v : Byte) (hij : j ≠ i) :
    Memory.read (Memory.write m i v) j = Memory.read m j := by
  induction m with
  | nil =>
    by_cases hv : v = Memory.unlisted
    · simp [Memory.write, hv]
    · simp [Memory.write, hv, Memory.read, hij.symm]
  | cons c m ih =>
    have hi : ∀ x : Byte, Memory.read ((i, x) :: m) j = Memory.read m j := fun x => by
      rw [Memory.read_cons, if_neg hij.symm]
    simp only [Memory.write]
    split_ifs with h1 hv h2 hv
    · rfl
    · rw [Memory.read_cons, if_neg hij.symm]
    · rw [Memory.read_cons, if_neg (h2 ▸ hij.symm)]
    · rw [hi, Memory.read_cons, if_neg (h2 ▸ hij.symm)]
    · rw [Memory.read_cons, Memory.read_cons, ih]

/-- Where the entries of a written memory come from. -/
theorem Memory.mem_write {m : List Host.Cell} {i : Nat} {v : Byte} {d : Host.Cell}
    (h : d ∈ Memory.write m i v) : d ∈ m ∨ (d = (i, v) ∧ v ≠ Memory.unlisted) := by
  induction m with
  | nil =>
    simp only [Memory.write] at h
    split_ifs at h with hv
    · simp at h
    · exact .inr ⟨by simpa using h, hv⟩
  | cons c m ih =>
    simp only [Memory.write] at h
    split_ifs at h with h1 hv h2 hv
    · exact .inl h
    · rcases List.mem_cons.mp h with rfl | h
      · exact .inr ⟨rfl, hv⟩
      · exact .inl h
    · exact .inl (List.mem_cons_of_mem _ h)
    · rcases List.mem_cons.mp h with rfl | h
      · exact .inr ⟨rfl, hv⟩
      · exact .inl (List.mem_cons_of_mem _ h)
    · rcases List.mem_cons.mp h with rfl | h
      · exact .inl (by simp)
      · exact (ih h).imp (List.mem_cons_of_mem _) id

/-- A list of cells is canonical when its head is below its canonical tail and not an unlisted value. -/
theorem Memory.wf_cons {c : Host.Cell} {m : List Host.Cell} (hm : Memory.wf m) (hlt : ∀ d ∈ m, c.1 < d.1)
    (hc : c.2 ≠ Memory.unlisted) : Memory.wf (c :: m) := by
  refine ⟨?_, ?_⟩
  · simp only [List.map_cons, List.pairwise_cons, List.mem_map, forall_exists_index, and_imp]
    exact ⟨fun _ d hd he => he ▸ hlt d hd, hm.1⟩
  · intro d hd
    rcases List.mem_cons.mp hd with rfl | hd
    · exact hc
    · exact hm.2 d hd

/-- A write keeps the canonical form. -/
theorem Memory.wf_write {m : List Host.Cell} (h : Memory.wf m) (i : Nat) (v : Byte) :
    Memory.wf (Memory.write m i v) := by
  induction m with
  | nil =>
    simp only [Memory.write]
    split_ifs with hv
    · exact h
    · exact Memory.wf_cons h (by simp) hv
  | cons c m ih =>
    have hlt := Memory.wf_head_lt h
    have hm := Memory.wf_tail h
    simp only [Memory.write]
    split_ifs with h1 hv h2 hv
    · exact h
    · refine Memory.wf_cons h (fun d hd => ?_) hv
      rcases List.mem_cons.mp hd with rfl | hd
      · exact h1
      · exact h1.trans (hlt d hd)
    · exact hm
    · exact Memory.wf_cons hm (fun d hd => h2 ▸ hlt d hd) hv
    · refine Memory.wf_cons (ih hm) (fun d hd => ?_) (h.2 c (by simp))
      rcases Memory.mem_write hd with hd | ⟨rfl, -⟩
      · exact hlt d hd
      · show c.1 < i
        omega

/-- A write below a bound keeps every entry below it. -/
theorem Memory.bounded_write {m : List Host.Cell} {n i : Nat} (h : ∀ c ∈ m, c.1 < n) (hi : i < n) (v : Byte) :
    ∀ c ∈ Memory.write m i v, c.1 < n := by
  intro c hc
  rcases Memory.mem_write hc with hc | ⟨rfl, -⟩
  · exact h c hc
  · exact hi

end Sys2Proof.Machine
end

