-- ==== Sys2Proof/Laws/State.lean ====
section
/-! SUPPORT. What each named update of the state leaves in each field, by rfl, so that no proof unfolds a record update. -/

namespace Sys2Proof.Machine

/-! ### respond (Machine/Ops.lean, R104) -/

@[simp] theorem State.respond_cfg (s : State) (v : Word) : (s.respond v).cfg = s.cfg := rfl
@[simp] theorem State.respond_buf (s : State) (v : Word) : (s.respond v).buf = s.buf := rfl
@[simp] theorem State.respond_fifoPtr (s : State) (v : Word) : (s.respond v).fifoPtr = s.fifoPtr := rfl
@[simp] theorem State.respond_fifoLen (s : State) (v : Word) : (s.respond v).fifoLen = s.fifoLen := rfl
@[simp] theorem State.respond_disp (s : State) (v : Word) : (s.respond v).disp = s.disp := rfl
@[simp] theorem State.respond_dispArmed (s : State) (v : Word) : (s.respond v).dispArmed = s.dispArmed := rfl
@[simp] theorem State.respond_dispLastErr (s : State) (v : Word) : (s.respond v).dispLastErr = s.dispLastErr := rfl
@[simp] theorem State.respond_sensTag (s : State) (v : Word) : (s.respond v).sensTag = s.sensTag := rfl
@[simp] theorem State.respond_sensAction (s : State) (v : Word) : (s.respond v).sensAction = s.sensAction := rfl
@[simp] theorem State.respond_sensResult (s : State) (v : Word) : (s.respond v).sensResult = s.sensResult := rfl
@[simp] theorem State.respond_sensLastErr (s : State) (v : Word) : (s.respond v).sensLastErr = s.sensLastErr := rfl
@[simp] theorem State.respond_running (s : State) (v : Word) : (s.respond v).running = s.running := rfl
@[simp] theorem State.respond_preempted (s : State) (v : Word) : (s.respond v).preempted = s.preempted := rfl
@[simp] theorem State.respond_ceilDisp (s : State) (v : Word) : (s.respond v).ceilDisp = s.ceilDisp := rfl
@[simp] theorem State.respond_ceilSens (s : State) (v : Word) : (s.respond v).ceilSens = s.ceilSens := rfl
@[simp] theorem State.respond_pending (s : State) (v : Word) : (s.respond v).pending = s.pending := rfl
@[simp] theorem State.respond_faultCode (s : State) (v : Word) : (s.respond v).faultCode = s.faultCode := rfl
@[simp] theorem State.respond_faultWord (s : State) (v : Word) : (s.respond v).faultWord = s.faultWord := rfl
@[simp] theorem State.respond_faultCtx (s : State) (v : Word) : (s.respond v).faultCtx = s.faultCtx := rfl
@[simp] theorem State.respond_halted (s : State) (v : Word) : (s.respond v).halted = s.halted := rfl
@[simp] theorem State.respond_i2cPhase (s : State) (v : Word) : (s.respond v).i2cPhase = s.i2cPhase := rfl
@[simp] theorem State.respond_spiBusy (s : State) (v : Word) : (s.respond v).spiBusy = s.spiBusy := rfl
@[simp] theorem State.respond_spiSel (s : State) (v : Word) : (s.respond v).spiSel = s.spiSel := rfl
@[simp] theorem State.respond_trace (s : State) (v : Word) : (s.respond v).trace = s.trace := rfl
@[simp] theorem State.respond_rsp (s : State) (v : Word) : (s.respond v).rsp = some v := rfl
@[simp] theorem State.respond_idleDone (s : State) (v : Word) : (s.respond v).idleDone = s.idleDone := rfl
@[simp] theorem State.respond_schedule (s : State) (v : Word) : (s.respond v).schedule = s.schedule := rfl

/-! ### raiseFault (R300) -/

@[simp] theorem State.raiseFault_cfg (s : State) (c : FaultCode) (w : Word) (x : CtxId) : (s.raiseFault c w x).cfg = s.cfg := rfl
@[simp] theorem State.raiseFault_buf (s : State) (c : FaultCode) (w : Word) (x : CtxId) : (s.raiseFault c w x).buf = s.buf := rfl
@[simp] theorem State.raiseFault_fifoPtr (s : State) (c : FaultCode) (w : Word) (x : CtxId) : (s.raiseFault c w x).fifoPtr = s.fifoPtr := rfl
@[simp] theorem State.raiseFault_fifoLen (s : State) (c : FaultCode) (w : Word) (x : CtxId) : (s.raiseFault c w x).fifoLen = s.fifoLen := rfl
@[simp] theorem State.raiseFault_disp (s : State) (c : FaultCode) (w : Word) (x : CtxId) : (s.raiseFault c w x).disp = s.disp := rfl
@[simp] theorem State.raiseFault_dispArmed (s : State) (c : FaultCode) (w : Word) (x : CtxId) : (s.raiseFault c w x).dispArmed = s.dispArmed := rfl
@[simp] theorem State.raiseFault_dispLastErr (s : State) (c : FaultCode) (w : Word) (x : CtxId) : (s.raiseFault c w x).dispLastErr = s.dispLastErr := rfl
@[simp] theorem State.raiseFault_sensTag (s : State) (c : FaultCode) (w : Word) (x : CtxId) : (s.raiseFault c w x).sensTag = s.sensTag := rfl
@[simp] theorem State.raiseFault_sensAction (s : State) (c : FaultCode) (w : Word) (x : CtxId) : (s.raiseFault c w x).sensAction = s.sensAction := rfl
@[simp] theorem State.raiseFault_sensResult (s : State) (c : FaultCode) (w : Word) (x : CtxId) : (s.raiseFault c w x).sensResult = s.sensResult := rfl
@[simp] theorem State.raiseFault_sensLastErr (s : State) (c : FaultCode) (w : Word) (x : CtxId) : (s.raiseFault c w x).sensLastErr = s.sensLastErr := rfl
@[simp] theorem State.raiseFault_running (s : State) (c : FaultCode) (w : Word) (x : CtxId) : (s.raiseFault c w x).running = s.running := rfl
@[simp] theorem State.raiseFault_preempted (s : State) (c : FaultCode) (w : Word) (x : CtxId) : (s.raiseFault c w x).preempted = s.preempted := rfl
@[simp] theorem State.raiseFault_ceilDisp (s : State) (c : FaultCode) (w : Word) (x : CtxId) : (s.raiseFault c w x).ceilDisp = s.ceilDisp := rfl
@[simp] theorem State.raiseFault_ceilSens (s : State) (c : FaultCode) (w : Word) (x : CtxId) : (s.raiseFault c w x).ceilSens = s.ceilSens := rfl
@[simp] theorem State.raiseFault_pending (s : State) (c : FaultCode) (w : Word) (x : CtxId) : (s.raiseFault c w x).pending = s.pending := rfl
@[simp] theorem State.raiseFault_faultCode (s : State) (c : FaultCode) (w : Word) (x : CtxId) : (s.raiseFault c w x).faultCode = c := rfl
@[simp] theorem State.raiseFault_faultWord (s : State) (c : FaultCode) (w : Word) (x : CtxId) : (s.raiseFault c w x).faultWord = w := rfl
@[simp] theorem State.raiseFault_faultCtx (s : State) (c : FaultCode) (w : Word) (x : CtxId) : (s.raiseFault c w x).faultCtx = x := rfl
@[simp] theorem State.raiseFault_halted (s : State) (c : FaultCode) (w : Word) (x : CtxId) : (s.raiseFault c w x).halted = true := rfl
@[simp] theorem State.raiseFault_i2cPhase (s : State) (c : FaultCode) (w : Word) (x : CtxId) : (s.raiseFault c w x).i2cPhase = s.i2cPhase := rfl
@[simp] theorem State.raiseFault_spiBusy (s : State) (c : FaultCode) (w : Word) (x : CtxId) : (s.raiseFault c w x).spiBusy = s.spiBusy := rfl
@[simp] theorem State.raiseFault_spiSel (s : State) (c : FaultCode) (w : Word) (x : CtxId) : (s.raiseFault c w x).spiSel = s.spiSel := rfl
@[simp] theorem State.raiseFault_trace (s : State) (c : FaultCode) (w : Word) (x : CtxId) : (s.raiseFault c w x).trace = s.trace := rfl
@[simp] theorem State.raiseFault_rsp (s : State) (c : FaultCode) (w : Word) (x : CtxId) : (s.raiseFault c w x).rsp = s.rsp := rfl
@[simp] theorem State.raiseFault_idleDone (s : State) (c : FaultCode) (w : Word) (x : CtxId) : (s.raiseFault c w x).idleDone = s.idleDone := rfl
@[simp] theorem State.raiseFault_schedule (s : State) (c : FaultCode) (w : Word) (x : CtxId) : (s.raiseFault c w x).schedule = s.schedule := rfl

/-! ### emit (R15, R320, R321, R326) -/

@[simp] theorem State.emit_cfg (s : State) (a : WireAction) : (s.emit a).cfg = s.cfg := rfl
@[simp] theorem State.emit_buf (s : State) (a : WireAction) : (s.emit a).buf = s.buf := rfl
@[simp] theorem State.emit_fifoPtr (s : State) (a : WireAction) : (s.emit a).fifoPtr = s.fifoPtr := rfl
@[simp] theorem State.emit_fifoLen (s : State) (a : WireAction) : (s.emit a).fifoLen = s.fifoLen := rfl
@[simp] theorem State.emit_disp (s : State) (a : WireAction) : (s.emit a).disp = s.disp := rfl
@[simp] theorem State.emit_dispArmed (s : State) (a : WireAction) : (s.emit a).dispArmed = s.dispArmed := rfl
@[simp] theorem State.emit_dispLastErr (s : State) (a : WireAction) : (s.emit a).dispLastErr = s.dispLastErr := rfl
@[simp] theorem State.emit_sensTag (s : State) (a : WireAction) : (s.emit a).sensTag = s.sensTag := rfl
@[simp] theorem State.emit_sensAction (s : State) (a : WireAction) : (s.emit a).sensAction = s.sensAction := rfl
@[simp] theorem State.emit_sensResult (s : State) (a : WireAction) : (s.emit a).sensResult = s.sensResult := rfl
@[simp] theorem State.emit_sensLastErr (s : State) (a : WireAction) : (s.emit a).sensLastErr = s.sensLastErr := rfl
@[simp] theorem State.emit_running (s : State) (a : WireAction) : (s.emit a).running = s.running := rfl
@[simp] theorem State.emit_preempted (s : State) (a : WireAction) : (s.emit a).preempted = s.preempted := rfl
@[simp] theorem State.emit_ceilDisp (s : State) (a : WireAction) : (s.emit a).ceilDisp = s.ceilDisp := rfl
@[simp] theorem State.emit_ceilSens (s : State) (a : WireAction) : (s.emit a).ceilSens = s.ceilSens := rfl
@[simp] theorem State.emit_pending (s : State) (a : WireAction) : (s.emit a).pending = s.pending := rfl
@[simp] theorem State.emit_faultCode (s : State) (a : WireAction) : (s.emit a).faultCode = s.faultCode := rfl
@[simp] theorem State.emit_faultWord (s : State) (a : WireAction) : (s.emit a).faultWord = s.faultWord := rfl
@[simp] theorem State.emit_faultCtx (s : State) (a : WireAction) : (s.emit a).faultCtx = s.faultCtx := rfl
@[simp] theorem State.emit_halted (s : State) (a : WireAction) : (s.emit a).halted = s.halted := rfl
@[simp] theorem State.emit_i2cPhase (s : State) (a : WireAction) : (s.emit a).i2cPhase = phaseAfter a s.i2cPhase := rfl
@[simp] theorem State.emit_spiBusy (s : State) (a : WireAction) : (s.emit a).spiBusy = busyAfter a s.spiBusy := rfl
@[simp] theorem State.emit_spiSel (s : State) (a : WireAction) : (s.emit a).spiSel = selAfter a s.spiSel := rfl
@[simp] theorem State.emit_trace (s : State) (a : WireAction) : (s.emit a).trace = s.trace ++ [a] := rfl
@[simp] theorem State.emit_rsp (s : State) (a : WireAction) : (s.emit a).rsp = s.rsp := rfl
@[simp] theorem State.emit_idleDone (s : State) (a : WireAction) : (s.emit a).idleDone = s.idleDone := rfl
@[simp] theorem State.emit_schedule (s : State) (a : WireAction) : (s.emit a).schedule = s.schedule := rfl

/-! ### setRunning (the top frame of FRAMES) -/

@[simp] theorem State.setRunning_cfg (s : State) (f : Frame) : (s.setRunning f).cfg = s.cfg := rfl
@[simp] theorem State.setRunning_buf (s : State) (f : Frame) : (s.setRunning f).buf = s.buf := rfl
@[simp] theorem State.setRunning_fifoPtr (s : State) (f : Frame) : (s.setRunning f).fifoPtr = s.fifoPtr := rfl
@[simp] theorem State.setRunning_fifoLen (s : State) (f : Frame) : (s.setRunning f).fifoLen = s.fifoLen := rfl
@[simp] theorem State.setRunning_disp (s : State) (f : Frame) : (s.setRunning f).disp = s.disp := rfl
@[simp] theorem State.setRunning_dispArmed (s : State) (f : Frame) : (s.setRunning f).dispArmed = s.dispArmed := rfl
@[simp] theorem State.setRunning_dispLastErr (s : State) (f : Frame) : (s.setRunning f).dispLastErr = s.dispLastErr := rfl
@[simp] theorem State.setRunning_sensTag (s : State) (f : Frame) : (s.setRunning f).sensTag = s.sensTag := rfl
@[simp] theorem State.setRunning_sensAction (s : State) (f : Frame) : (s.setRunning f).sensAction = s.sensAction := rfl
@[simp] theorem State.setRunning_sensResult (s : State) (f : Frame) : (s.setRunning f).sensResult = s.sensResult := rfl
@[simp] theorem State.setRunning_sensLastErr (s : State) (f : Frame) : (s.setRunning f).sensLastErr = s.sensLastErr := rfl
@[simp] theorem State.setRunning_running (s : State) (f : Frame) : (s.setRunning f).running = f := rfl
@[simp] theorem State.setRunning_preempted (s : State) (f : Frame) : (s.setRunning f).preempted = s.preempted := rfl
@[simp] theorem State.setRunning_ceilDisp (s : State) (f : Frame) : (s.setRunning f).ceilDisp = s.ceilDisp := rfl
@[simp] theorem State.setRunning_ceilSens (s : State) (f : Frame) : (s.setRunning f).ceilSens = s.ceilSens := rfl
@[simp] theorem State.setRunning_pending (s : State) (f : Frame) : (s.setRunning f).pending = s.pending := rfl
@[simp] theorem State.setRunning_faultCode (s : State) (f : Frame) : (s.setRunning f).faultCode = s.faultCode := rfl
@[simp] theorem State.setRunning_faultWord (s : State) (f : Frame) : (s.setRunning f).faultWord = s.faultWord := rfl
@[simp] theorem State.setRunning_faultCtx (s : State) (f : Frame) : (s.setRunning f).faultCtx = s.faultCtx := rfl
@[simp] theorem State.setRunning_halted (s : State) (f : Frame) : (s.setRunning f).halted = s.halted := rfl
@[simp] theorem State.setRunning_i2cPhase (s : State) (f : Frame) : (s.setRunning f).i2cPhase = s.i2cPhase := rfl
@[simp] theorem State.setRunning_spiBusy (s : State) (f : Frame) : (s.setRunning f).spiBusy = s.spiBusy := rfl
@[simp] theorem State.setRunning_spiSel (s : State) (f : Frame) : (s.setRunning f).spiSel = s.spiSel := rfl
@[simp] theorem State.setRunning_trace (s : State) (f : Frame) : (s.setRunning f).trace = s.trace := rfl
@[simp] theorem State.setRunning_rsp (s : State) (f : Frame) : (s.setRunning f).rsp = s.rsp := rfl
@[simp] theorem State.setRunning_idleDone (s : State) (f : Frame) : (s.setRunning f).idleDone = s.idleDone := rfl
@[simp] theorem State.setRunning_schedule (s : State) (f : Frame) : (s.setRunning f).schedule = s.schedule := rfl

/-! ### disarm (R205) -/

@[simp] theorem State.disarm_cfg (s : State) : (s.disarm).cfg = s.cfg := rfl
@[simp] theorem State.disarm_buf (s : State) : (s.disarm).buf = s.buf := rfl
@[simp] theorem State.disarm_fifoPtr (s : State) : (s.disarm).fifoPtr = s.fifoPtr := rfl
@[simp] theorem State.disarm_fifoLen (s : State) : (s.disarm).fifoLen = s.fifoLen := rfl
@[simp] theorem State.disarm_disp (s : State) : (s.disarm).disp = s.disp := rfl
@[simp] theorem State.disarm_dispArmed (s : State) : (s.disarm).dispArmed = false := rfl
@[simp] theorem State.disarm_dispLastErr (s : State) : (s.disarm).dispLastErr = s.dispLastErr := rfl
@[simp] theorem State.disarm_sensTag (s : State) : (s.disarm).sensTag = s.sensTag := rfl
@[simp] theorem State.disarm_sensAction (s : State) : (s.disarm).sensAction = s.sensAction := rfl
@[simp] theorem State.disarm_sensResult (s : State) : (s.disarm).sensResult = s.sensResult := rfl
@[simp] theorem State.disarm_sensLastErr (s : State) : (s.disarm).sensLastErr = s.sensLastErr := rfl
@[simp] theorem State.disarm_running (s : State) : (s.disarm).running = s.running := rfl
@[simp] theorem State.disarm_preempted (s : State) : (s.disarm).preempted = s.preempted := rfl
@[simp] theorem State.disarm_ceilDisp (s : State) : (s.disarm).ceilDisp = s.ceilDisp := rfl
@[simp] theorem State.disarm_ceilSens (s : State) : (s.disarm).ceilSens = s.ceilSens := rfl
@[simp] theorem State.disarm_pending (s : State) : (s.disarm).pending = s.pending := rfl
@[simp] theorem State.disarm_faultCode (s : State) : (s.disarm).faultCode = s.faultCode := rfl
@[simp] theorem State.disarm_faultWord (s : State) : (s.disarm).faultWord = s.faultWord := rfl
@[simp] theorem State.disarm_faultCtx (s : State) : (s.disarm).faultCtx = s.faultCtx := rfl
@[simp] theorem State.disarm_halted (s : State) : (s.disarm).halted = s.halted := rfl
@[simp] theorem State.disarm_i2cPhase (s : State) : (s.disarm).i2cPhase = s.i2cPhase := rfl
@[simp] theorem State.disarm_spiBusy (s : State) : (s.disarm).spiBusy = s.spiBusy := rfl
@[simp] theorem State.disarm_spiSel (s : State) : (s.disarm).spiSel = s.spiSel := rfl
@[simp] theorem State.disarm_trace (s : State) : (s.disarm).trace = s.trace := rfl
@[simp] theorem State.disarm_rsp (s : State) : (s.disarm).rsp = s.rsp := rfl
@[simp] theorem State.disarm_idleDone (s : State) : (s.disarm).idleDone = s.idleDone := rfl
@[simp] theorem State.disarm_schedule (s : State) : (s.disarm).schedule = s.schedule := rfl

/-! ### begin (the start of a step) -/

@[simp] theorem State.begin_cfg (s : State) (cs : List Choice) : (s.begin cs).cfg = s.cfg := rfl
@[simp] theorem State.begin_buf (s : State) (cs : List Choice) : (s.begin cs).buf = s.buf := rfl
@[simp] theorem State.begin_fifoPtr (s : State) (cs : List Choice) : (s.begin cs).fifoPtr = s.fifoPtr := rfl
@[simp] theorem State.begin_fifoLen (s : State) (cs : List Choice) : (s.begin cs).fifoLen = s.fifoLen := rfl
@[simp] theorem State.begin_disp (s : State) (cs : List Choice) : (s.begin cs).disp = s.disp := rfl
@[simp] theorem State.begin_dispArmed (s : State) (cs : List Choice) : (s.begin cs).dispArmed = s.dispArmed := rfl
@[simp] theorem State.begin_dispLastErr (s : State) (cs : List Choice) : (s.begin cs).dispLastErr = s.dispLastErr := rfl
@[simp] theorem State.begin_sensTag (s : State) (cs : List Choice) : (s.begin cs).sensTag = s.sensTag := rfl
@[simp] theorem State.begin_sensAction (s : State) (cs : List Choice) : (s.begin cs).sensAction = s.sensAction := rfl
@[simp] theorem State.begin_sensResult (s : State) (cs : List Choice) : (s.begin cs).sensResult = s.sensResult := rfl
@[simp] theorem State.begin_sensLastErr (s : State) (cs : List Choice) : (s.begin cs).sensLastErr = s.sensLastErr := rfl
@[simp] theorem State.begin_running (s : State) (cs : List Choice) : (s.begin cs).running = s.running := rfl
@[simp] theorem State.begin_preempted (s : State) (cs : List Choice) : (s.begin cs).preempted = s.preempted := rfl
@[simp] theorem State.begin_ceilDisp (s : State) (cs : List Choice) : (s.begin cs).ceilDisp = s.ceilDisp := rfl
@[simp] theorem State.begin_ceilSens (s : State) (cs : List Choice) : (s.begin cs).ceilSens = s.ceilSens := rfl
@[simp] theorem State.begin_pending (s : State) (cs : List Choice) : (s.begin cs).pending = s.pending := rfl
@[simp] theorem State.begin_faultCode (s : State) (cs : List Choice) : (s.begin cs).faultCode = s.faultCode := rfl
@[simp] theorem State.begin_faultWord (s : State) (cs : List Choice) : (s.begin cs).faultWord = s.faultWord := rfl
@[simp] theorem State.begin_faultCtx (s : State) (cs : List Choice) : (s.begin cs).faultCtx = s.faultCtx := rfl
@[simp] theorem State.begin_halted (s : State) (cs : List Choice) : (s.begin cs).halted = s.halted := rfl
@[simp] theorem State.begin_i2cPhase (s : State) (cs : List Choice) : (s.begin cs).i2cPhase = s.i2cPhase := rfl
@[simp] theorem State.begin_spiBusy (s : State) (cs : List Choice) : (s.begin cs).spiBusy = s.spiBusy := rfl
@[simp] theorem State.begin_spiSel (s : State) (cs : List Choice) : (s.begin cs).spiSel = s.spiSel := rfl
@[simp] theorem State.begin_trace (s : State) (cs : List Choice) : (s.begin cs).trace = s.trace := rfl
@[simp] theorem State.begin_rsp (s : State) (cs : List Choice) : (s.begin cs).rsp = none := rfl
@[simp] theorem State.begin_idleDone (s : State) (cs : List Choice) : (s.begin cs).idleDone = s.idleDone := rfl
@[simp] theorem State.begin_schedule (s : State) (cs : List Choice) : (s.begin cs).schedule = cs := rfl

/-! ### advance (R57): only the running context's own place moves -/

@[simp] theorem State.advance_cfg (s : State) (it : Item) : (s.advance it).cfg = s.cfg := by
  unfold State.advance; split <;> rfl
@[simp] theorem State.advance_buf (s : State) (it : Item) : (s.advance it).buf = s.buf := by
  unfold State.advance; split <;> rfl
@[simp] theorem State.advance_fifoPtr (s : State) (it : Item) : (s.advance it).fifoPtr = s.fifoPtr := by
  unfold State.advance; split <;> rfl
@[simp] theorem State.advance_fifoLen (s : State) (it : Item) : (s.advance it).fifoLen = s.fifoLen := by
  unfold State.advance; split <;> rfl
@[simp] theorem State.advance_disp (s : State) (it : Item) : (s.advance it).disp = s.disp := by
  unfold State.advance; split <;> rfl
@[simp] theorem State.advance_dispArmed (s : State) (it : Item) : (s.advance it).dispArmed = s.dispArmed := by
  unfold State.advance; split <;> rfl
@[simp] theorem State.advance_dispLastErr (s : State) (it : Item) : (s.advance it).dispLastErr = s.dispLastErr := by
  unfold State.advance; split <;> rfl
@[simp] theorem State.advance_sensTag (s : State) (it : Item) : (s.advance it).sensTag = s.sensTag := by
  unfold State.advance; split <;> rfl
@[simp] theorem State.advance_sensAction (s : State) (it : Item) : (s.advance it).sensAction = s.sensAction := by
  unfold State.advance; split <;> rfl
@[simp] theorem State.advance_sensResult (s : State) (it : Item) : (s.advance it).sensResult = s.sensResult := by
  unfold State.advance; split <;> rfl
@[simp] theorem State.advance_sensLastErr (s : State) (it : Item) : (s.advance it).sensLastErr = s.sensLastErr := by
  unfold State.advance; split <;> rfl
@[simp] theorem State.advance_preempted (s : State) (it : Item) : (s.advance it).preempted = s.preempted := by
  unfold State.advance; split <;> rfl
@[simp] theorem State.advance_ceilDisp (s : State) (it : Item) : (s.advance it).ceilDisp = s.ceilDisp := by
  unfold State.advance; split <;> rfl
@[simp] theorem State.advance_ceilSens (s : State) (it : Item) : (s.advance it).ceilSens = s.ceilSens := by
  unfold State.advance; split <;> rfl
@[simp] theorem State.advance_pending (s : State) (it : Item) : (s.advance it).pending = s.pending := by
  unfold State.advance; split <;> rfl
@[simp] theorem State.advance_faultCode (s : State) (it : Item) : (s.advance it).faultCode = s.faultCode := by
  unfold State.advance; split <;> rfl
@[simp] theorem State.advance_faultWord (s : State) (it : Item) : (s.advance it).faultWord = s.faultWord := by
  unfold State.advance; split <;> rfl
@[simp] theorem State.advance_faultCtx (s : State) (it : Item) : (s.advance it).faultCtx = s.faultCtx := by
  unfold State.advance; split <;> rfl
@[simp] theorem State.advance_halted (s : State) (it : Item) : (s.advance it).halted = s.halted := by
  unfold State.advance; split <;> rfl
@[simp] theorem State.advance_i2cPhase (s : State) (it : Item) : (s.advance it).i2cPhase = s.i2cPhase := by
  unfold State.advance; split <;> rfl
@[simp] theorem State.advance_spiBusy (s : State) (it : Item) : (s.advance it).spiBusy = s.spiBusy := by
  unfold State.advance; split <;> rfl
@[simp] theorem State.advance_spiSel (s : State) (it : Item) : (s.advance it).spiSel = s.spiSel := by
  unfold State.advance; split <;> rfl
@[simp] theorem State.advance_trace (s : State) (it : Item) : (s.advance it).trace = s.trace := by
  unfold State.advance; split <;> rfl
@[simp] theorem State.advance_rsp (s : State) (it : Item) : (s.advance it).rsp = s.rsp := by
  unfold State.advance; split <;> rfl
@[simp] theorem State.advance_idleDone (s : State) (it : Item) : (s.advance it).idleDone = s.idleDone := by
  unfold State.advance; split <;> rfl
@[simp] theorem State.advance_schedule (s : State) (it : Item) : (s.advance it).schedule = s.schedule := by
  unfold State.advance; split <;> rfl
@[simp] theorem State.advance_running_ctx (s : State) (it : Item) :
    (s.advance it).running.ctx = s.running.ctx := by
  unfold State.advance; split <;> rfl
@[simp] theorem State.advance_running_base (s : State) (it : Item) :
    (s.advance it).running.base = s.running.base := by
  unfold State.advance; split <;> rfl
@[simp] theorem State.advance_running_cur (s : State) (it : Item) :
    (s.advance it).running.cur = s.running.cur := by
  unfold State.advance; split <;> rfl
@[simp] theorem State.advance_running_claims (s : State) (it : Item) :
    (s.advance it).running.claims = s.running.claims := by
  unfold State.advance; split <;> rfl

end Sys2Proof.Machine
end

