-- ==== Sys2Proof/Laws/Ops.lean ====
section
/-! SUPPORT. One lemma per shared operation that says everything it can do; later proofs cite these and unfold nothing. -/

namespace Sys2Proof.Machine

/-! ### The ends of a step -/

/-- A fault response as a number: bit 31 and the code (R104). -/
theorem faultResponse_eq (c : FaultCode) : faultResponse c = BitVec.ofNat 32 (2 ^ 31 + c.code.toNat) := by
  cases c <;> decide

theorem runCommand_halted {s : State} (h : s.halted = true) (w : Word) (a : Attempt) :
    runCommand w s a = .next (s.respond (faultResponse s.faultCode)) := by
  simp [runCommand, h]

theorem runCommand_running {s : State} (h : s.halted = false) (w : Word) (a : Attempt) :
    runCommand w s a =
      match a with
      | .done t => .next t
      | .raise c => .next ((s.raiseFault c w s.running.ctx).respond (faultResponse c))
      | .stop f => .fault f := by
  cases a <;> simp [runCommand, h]

/-- A command that answers a next state answered on a halted block, completed, or raised a fault. -/
theorem runCommand_next {w : Word} {s t : State} {a : Attempt} (h : runCommand w s a = .next t) :
    (s.halted = true ∧ t = s.respond (faultResponse s.faultCode)) ∨
    (s.halted = false ∧ a = .done t) ∨
    (s.halted = false ∧ ∃ c, a = .raise c ∧ t = (s.raiseFault c w s.running.ctx).respond (faultResponse c)) := by
  unfold runCommand at h
  split_ifs at h with hh
  · exact .inl ⟨hh, by injection h with h; exact h.symm⟩
  · have hf : s.halted = false := by simpa using hh
    cases a with
    | done u => exact .inr (.inl ⟨hf, by injection h with h; rw [h]⟩)
    | raise c => exact .inr (.inr ⟨hf, c, rfl, by injection h with h; exact h.symm⟩)
    | stop f => cases h

/-- A command stops only where its rule does. -/
theorem runCommand_fault {w : Word} {s : State} {a : Attempt} {f : Fault} (h : runCommand w s a = .fault f) :
    s.halted = false ∧ a = .stop f := by
  unfold runCommand at h
  split_ifs at h with hh
  have hf : s.halted = false := by simpa using hh
  cases a with
  | done u => cases h
  | raise c => cases h
  | stop g => exact ⟨hf, by injection h with h; rw [h]⟩

theorem runEvent_halted {s : State} (h : s.halted = true) (w : Word) (c : CtxId) (d : Bool) (a : Attempt) :
    runEvent w c d s a = .next s := by
  simp [runEvent, h]

theorem runEvent_running {s : State} (h : s.halted = false) (w : Word) (c : CtxId) (a : Attempt) :
    runEvent w c true s a =
      match a with
      | .done t => .next t
      | .raise code => .next (s.raiseFault code w c)
      | .stop f => .fault f := by
  cases a <;> simp [runEvent, h]

theorem runEvent_undeliverable {s : State} (h : s.halted = false) (w : Word) (c : CtxId) (a : Attempt) :
    runEvent w c false s a = .refused .eventNotDeliverable := by
  simp [runEvent, h]

/-- An event-port step that answers a next state was ignored on a halted block, completed, or raised a fault. -/
theorem runEvent_next {w : Word} {c : CtxId} {d : Bool} {s t : State} {a : Attempt}
    (h : runEvent w c d s a = .next t) :
    (s.halted = true ∧ t = s) ∨
    (s.halted = false ∧ d = true ∧ a = .done t) ∨
    (s.halted = false ∧ d = true ∧ ∃ code, a = .raise code ∧ t = s.raiseFault code w c) := by
  unfold runEvent at h
  split_ifs at h with hh hd
  · exact .inl ⟨hh, by injection h with h; exact h.symm⟩
  · have hf : s.halted = false := by simpa using hh
    have ht : d = true := by simpa using hd
    cases a with
    | done u => exact .inr (.inl ⟨hf, ht, by injection h with h; rw [h]⟩)
    | raise code => exact .inr (.inr ⟨hf, ht, code, rfl, by injection h with h; exact h.symm⟩)
    | stop f => cases h

/-- An event-port step stops only where its rule does. -/
theorem runEvent_fault {w : Word} {c : CtxId} {d : Bool} {s : State} {a : Attempt} {f : Fault}
    (h : runEvent w c d s a = .fault f) : s.halted = false ∧ d = true ∧ a = .stop f := by
  unfold runEvent at h
  split_ifs at h with hh hd
  have hf : s.halted = false := by simpa using hh
  have ht : d = true := by simpa using hd
  cases a with
  | done u => cases h
  | raise code => cases h
  | stop g => exact ⟨hf, ht, by injection h with h; rw [h]⟩

/-- A command is never refused. -/
theorem runCommand_refused {w : Word} {s : State} {a : Attempt} {r : Refusal} : runCommand w s a ≠ .refused r := by
  intro h
  unfold runCommand at h
  split_ifs at h
  cases a <;> cases h

/-- An event word is refused exactly when it cannot be delivered. -/
theorem runEvent_refused {w : Word} {c : CtxId} {d : Bool} {s : State} {a : Attempt} {r : Refusal}
    (h : runEvent w c d s a = .refused r) : s.halted = false ∧ d = false ∧ r = .eventNotDeliverable := by
  unfold runEvent at h
  split_ifs at h with hh hd
  · exact ⟨by simpa using hh, by simpa using hd, by injection h with h; exact h.symm⟩
  · cases a <;> cases h

@[simp] theorem Attempt.unless_none (a : Attempt) : Attempt.unless none a = a := rfl

@[simp] theorem Attempt.unless_some (c : FaultCode) (a : Attempt) : Attempt.unless (some c) a = .raise c := rfl

theorem Attempt.unless_done {c : Option FaultCode} {a : Attempt} {t : State} (h : Attempt.unless c a = .done t) :
    c = none ∧ a = .done t := by
  cases c with
  | none => exact ⟨rfl, h⟩
  | some c => cases h

theorem Attempt.unless_raise {c : Option FaultCode} {a : Attempt} {e : FaultCode}
    (h : Attempt.unless c a = .raise e) : c = some e ∨ (c = none ∧ a = .raise e) := by
  cases c with
  | none => exact .inr ⟨rfl, h⟩
  | some c => exact .inl (by injection h with h; rw [h])

theorem Attempt.unless_stop {c : Option FaultCode} {a : Attempt} {f : Fault} (h : Attempt.unless c a = .stop f) :
    c = none ∧ a = .stop f := by
  cases c with
  | none => exact ⟨rfl, h⟩
  | some c => cases h

/-! ### The access check (R170) -/

theorem State.access_above {s : State} {r : Resource} {base cur : Prio} (h : s.ceil r < base) :
    s.access r base cur = some .arbAboveCeiling := by
  simp [State.access, h]

theorem State.access_unclaimed {s : State} {r : Resource} {base cur : Prio} (h1 : base ≤ s.ceil r)
    (h2 : cur < s.ceil r) : s.access r base cur = some .arbUnclaimed := by
  simp [State.access, BitVec.not_lt.mpr h1, h2]

theorem State.access_passes {s : State} {r : Resource} {base cur : Prio} (h1 : base ≤ s.ceil r)
    (h2 : s.ceil r ≤ cur) : s.access r base cur = none := by
  simp [State.access, BitVec.not_lt.mpr h1, BitVec.not_lt.mpr h2]

theorem State.access_eq_none {s : State} {r : Resource} {base cur : Prio} :
    s.access r base cur = none ↔ base ≤ s.ceil r ∧ s.ceil r ≤ cur := by
  constructor
  · intro h
    unfold State.access at h
    split_ifs at h with h1 h2
    exact ⟨BitVec.not_lt.mp h1, BitVec.not_lt.mp h2⟩
  · exact fun h => State.access_passes h.1 h.2

/-- The access check raises one of the two arbiter codes. -/
theorem State.access_eq_some {s : State} {r : Resource} {base cur : Prio} {c : FaultCode}
    (h : s.access r base cur = some c) : c = .arbAboveCeiling ∨ c = .arbUnclaimed := by
  unfold State.access at h
  split_ifs at h with h1 h2
  · exact .inl (by injection h with h; exact h.symm)
  · exact .inr (by injection h with h; exact h.symm)

/-! ### The FIFO's push and pop -/

theorem State.memRead_of_lt {s : State} {i : Nat} (h : i < s.cfg.cap) :
    s.memRead i = some (Memory.read s.buf i) := by
  simp [State.memRead, h]

theorem State.head_of_low {s : State} (h : s.fifoPtr.toNat < s.cfg.cap) :
    s.head = some (Memory.read s.buf s.fifoPtr.toNat) :=
  State.memRead_of_lt h

theorem State.head_some {s : State} {b : Byte} (h : s.head = some b) :
    s.fifoPtr.toNat < s.cfg.cap ∧ b = Memory.read s.buf s.fifoPtr.toNat := by
  unfold State.head State.memRead at h
  split_ifs at h with hp
  exact ⟨hp, by injection h with h; exact h.symm⟩

theorem State.pop_of_low {s : State} (h : s.fifoPtr.toNat < s.cfg.cap) :
    s.pop = some (Memory.read s.buf s.fifoPtr.toNat, { s with fifoPtr := s.nextPtr, fifoLen := s.fifoLen - 1 }) := by
  simp [State.pop, State.head_of_low h]

/-- Everything a pop does (R206). -/
theorem State.pop_some {s t : State} {b : Byte} (h : s.pop = some (b, t)) :
    s.fifoPtr.toNat < s.cfg.cap ∧ b = Memory.read s.buf s.fifoPtr.toNat ∧
      t = { s with fifoPtr := s.nextPtr, fifoLen := s.fifoLen - 1 } := by
  unfold State.pop at h
  cases hh : s.head with
  | none => simp [hh] at h
  | some v =>
    simp only [hh, Option.map_some, Option.some.injEq, Prod.mk.injEq] at h
    obtain ⟨h1, h2⟩ := State.head_some hh
    exact ⟨h1, by rw [← h.1, h2], h.2.symm⟩

theorem State.wptr_lt {s : State} (h : 0 < s.cfg.cap) : s.fifoWptr < s.cfg.cap := Nat.mod_lt _ h

theorem State.push_of_pos {s : State} (h : 0 < s.cfg.cap) (b : Byte) :
    s.push b = some { s with buf := Memory.write s.buf s.fifoWptr b, fifoLen := s.fifoLen + 1 } := by
  simp [State.push, State.memWrite, State.wptr_lt h]

/-- Everything a push does (R140). -/
theorem State.push_some {s t : State} {b : Byte} (h : s.push b = some t) :
    s.fifoWptr < s.cfg.cap ∧ t = { s with buf := Memory.write s.buf s.fifoWptr b, fifoLen := s.fifoLen + 1 } := by
  unfold State.push State.memWrite at h
  split_ifs at h with hw
  · simp only [Option.map_some, Option.some.injEq] at h
    exact ⟨hw, h.symm⟩
  · simp at h

theorem withSlot_done {α : Type} {v : Option α} {f : α → Attempt} {t : State} (h : withSlot v f = .done t) :
    ∃ x, v = some x ∧ f x = .done t := by
  cases v with
  | none => cases h
  | some x => exact ⟨x, rfl, h⟩

theorem withSlot_raise {α : Type} {v : Option α} {f : α → Attempt} {c : FaultCode} (h : withSlot v f = .raise c) :
    ∃ x, v = some x ∧ f x = .raise c := by
  cases v with
  | none => cases h
  | some x => exact ⟨x, rfl, h⟩

theorem withSlot_stop {α : Type} {v : Option α} {f : α → Attempt} {e : Fault} (h : withSlot v f = .stop e) :
    (v = none ∧ e = .noSuchSlot) ∨ ∃ x, v = some x ∧ f x = .stop e := by
  cases v with
  | none => exact .inl ⟨rfl, by injection h with h; exact h.symm⟩
  | some x => exact .inr ⟨x, rfl, h⟩

@[simp] theorem withSlot_some {α : Type} (x : α) (f : α → Attempt) : withSlot (some x) f = f x := rfl

/-! ### Delivery (R309) -/

theorem State.deliverable_iff {s : State} {h : Handler} :
    s.deliverable h = true ↔ s.halted = false ∧ s.avail h = true ∧ s.running.cur.toNat < h.prio s.cfg := by
  simp [State.deliverable, and_assoc]

theorem State.canDeliver_iff {s : State} {h : Handler} :
    s.canDeliver h = true ↔ s.deliverable h = true ∧ s.forced ≤ h.prio s.cfg := by
  simp [State.canDeliver]

/-- A deliverable handler outranks the running context. -/
theorem State.canDeliver_outranks {s : State} {h : Handler} (hd : s.canDeliver h = true) :
    s.running.cur.toNat < h.prio s.cfg :=
  (State.deliverable_iff.mp (State.canDeliver_iff.mp hd).1).2.2

theorem le_foldr_max {l : List Nat} {x : Nat} (h : x ∈ l) : x ≤ l.foldr max 0 := by
  induction l with
  | nil => simp at h
  | cons y l ih =>
    rcases List.mem_cons.mp h with rfl | h
    · exact le_max_left _ _
    · exact (ih h).trans (le_max_right _ _)

theorem foldr_max_mem {l : List Nat} (h : l.foldr max 0 ≠ 0) : l.foldr max 0 ∈ l := by
  induction l with
  | nil => simp at h
  | cons y l ih =>
    simp only [List.foldr_cons] at h ⊢
    rcases le_total (l.foldr max 0) y with hy | hy
    · rw [max_eq_left hy]; simp
    · rw [max_eq_right hy] at h ⊢
      exact List.mem_cons_of_mem _ (ih h)

/-- `forced` is 0 exactly when no handler is ready and deliverable. -/
theorem State.forced_eq_zero {s : State} :
    s.forced = 0 ↔ ∀ h ∈ s.handlers, ¬ (s.ready h = true ∧ s.deliverable h = true) := by
  constructor
  · intro h0 h hm hr
    have hp : h.prio s.cfg ≤ s.forced :=
      le_foldr_max (List.mem_map_of_mem (List.mem_filter.mpr ⟨hm, by simp [hr.1, hr.2]⟩))
    have := (State.deliverable_iff.mp hr.2).2.2
    omega
  · intro h
    by_contra h0
    obtain ⟨x, hx, -⟩ := List.mem_map.mp (foldr_max_mem h0)
    obtain ⟨hm, hr⟩ := List.mem_filter.mp hx
    exact h x hm (by simpa using hr)

/-- Nothing is forced on a halted block (R302, R309). -/
theorem State.forced_of_halted {s : State} (h : s.halted = true) : s.forced = 0 := by
  rw [State.forced_eq_zero]
  rintro k - ⟨-, hd⟩
  simp [State.deliverable, h] at hd

theorem mapNext_next {r : Result} {f : State → State} {t : State} (h : mapNext r f = .next t) :
    ∃ u, r = .next u ∧ t = f u := by
  cases r with
  | next u => exact ⟨u, rfl, by injection h with h; exact h.symm⟩
  | fault e => cases h
  | refused e => cases h

theorem agentStep_next {p : Bool} {u t : State} {halted : Bool} (h : agentStep p u halted = .next t) :
    halted = false ∧ p = true ∧ t = u := by
  unfold agentStep at h
  split_ifs at h with hh
  simp only [Bool.and_eq_true, Bool.not_eq_true'] at hh
  exact ⟨hh.1, hh.2, by injection h with h; exact h.symm⟩

end Sys2Proof.Machine
end

