-- ==== Sys2Proof/Laws/Exec.lean ====
section
/-! SUPPORT. What exec and a step can do, said once: if they answer a next state, one of these cases holds. Every
invariant is a case analysis over them. -/

namespace Sys2Proof.Machine

/-- What EV.I2C_TXE does when it completes (R213 to R217). -/
inductive TxeDone (s : State) : State → Prop
  | starve (hd : s.disp = .idle ∨ s.disp = .control 0) (he : s.fifoEmpty = true) :
      TxeDone s ({ s with disp := .idle }.disarm)
  | ctrlHeader {b : Byte} {u : State} (hd : s.disp = .idle ∨ s.disp = .control 0) (he : s.fifoEmpty = false)
      (hp : s.pop = some (b, u)) (hb : headerIsControl b = true) :
      TxeDone s ({ u with disp := .control2 (headerLength b) }.emit (.i2cWrite s.cfg.ctrlPrefix))
  | dataHeader {b : Byte} {u : State} (hd : s.disp = .idle ∨ s.disp = .control 0) (he : s.fifoEmpty = false)
      (hp : s.pop = some (b, u)) (hb : headerIsControl b = false) :
      TxeDone s ({ u with disp := .data (headerLength b) }.emit (.i2cWrite s.cfg.dataPrefix))
  | ctrlNext {n : Byte} (hd : s.disp = .control n) (hn : n ≠ 0) :
      TxeDone s ({ s with disp := .control2 n }.emit (.i2cWrite s.cfg.ctrlPrefix))
  | suspend {n : Byte} (hd : s.disp = .control2 n ∨ s.disp = .data n) (hn : n ≠ 0) (he : s.fifoEmpty = true) :
      TxeDone s s.disarm
  | ctrlByte {n b : Byte} {u : State} (hd : s.disp = .control2 n) (hn : n ≠ 0) (he : s.fifoEmpty = false)
      (hp : s.pop = some (b, u)) : TxeDone s ({ u with disp := .control (n - 1) }.emit (.i2cWrite b))
  | dataByte {n b : Byte} {u : State} (hd : s.disp = .data n) (hn : n ≠ 0) (he : s.fifoEmpty = false)
      (hp : s.pop = some (b, u)) : TxeDone s ({ u with disp := .data (n - 1) }.emit (.i2cWrite b))
  | fold {b : Byte} {u : State} (hd : s.disp = .data 0) (he : s.fifoEmpty = false) (hp : s.pop = some (b, u))
      (hb : headerIsControl b = false) : TxeDone s { u with disp := .data (headerLength b) }
  | restart (hd : s.disp = .data 0) : TxeDone s ({ s with disp := .idle }.emit .i2cRestart)

theorem idleLogic_done {s t : State} (hd : s.disp = .idle ∨ s.disp = .control 0) (h : idleLogic s = .done t) :
    TxeDone s t := by
  unfold idleLogic at h
  split_ifs at h with he
  · injection h with h
    exact h ▸ .starve hd he
  · obtain ⟨⟨b, u⟩, hp, h⟩ := withSlot_done h
    have he : s.fifoEmpty = false := by simpa using he
    dsimp only at h
    split_ifs at h with hb
    · injection h with h
      exact h ▸ .ctrlHeader hd he hp hb
    · injection h with h
      exact h ▸ .dataHeader hd he hp (by simpa using hb)

theorem txeByState_done {s t : State} (h : txeByState s = .done t) : TxeDone s t := by
  unfold txeByState at h
  split at h
  · cases h
  · next hd => exact idleLogic_done (.inl hd) h
  · next n hd =>
    unfold txeControl at h
    split_ifs at h with hn
    · injection h with h
      exact h ▸ .ctrlNext hd hn
    · exact idleLogic_done (.inr (by rw [hd, not_not.mp hn])) h
  · next n hd =>
    unfold txeControl2 at h
    split_ifs at h with hn he
    · injection h with h
      exact h ▸ .suspend (.inl hd) hn he
    · obtain ⟨⟨b, u⟩, hp, h⟩ := withSlot_done h
      injection h with h
      exact h ▸ .ctrlByte hd hn (by simpa using he) hp
  · next n hd =>
    split_ifs at h with hn
    · subst hn
      unfold txeDataEnd at h
      split_ifs at h with he
      · injection h with h
        exact h ▸ .restart hd
      · obtain ⟨⟨b, u⟩, hp, h⟩ := withSlot_done h
        dsimp only at h
        split_ifs at h with hb
        · injection h with h
          exact h ▸ .restart hd
        · injection h with h
          exact h ▸ .fold hd (by simpa using he) hp (by simpa using hb)
    · unfold txeData at h
      split_ifs at h with he
      · injection h with h
        exact h ▸ .suspend (.inr hd) hn he
      · obtain ⟨⟨b, u⟩, hp, h⟩ := withSlot_done h
        injection h with h
        exact h ▸ .dataByte hd hn (by simpa using he) hp

/-- What an instruction does when it completes on a block that is not halted. -/
inductive Done (s : State) : Instr → State → Prop
  | writeFull {b : Byte} (ha : s.accessRunning .disp = none) (hf : s.fifoFull = true) :
      Done s (.fifoWrite b) (s.respond (bitResponse false))
  | write {b : Byte} (ha : s.accessRunning .disp = none) (hf : s.fifoFull = false) (hw : s.fifoWptr < s.cfg.cap) :
      Done s (.fifoWrite b)
        { s with buf := Memory.write s.buf s.fifoWptr b, fifoLen := s.fifoLen + 1, rsp := some (bitResponse true) }
  | readEmpty (ha : s.accessRunning .disp = none) (he : s.fifoEmpty = true) : Done s .fifoRead (s.respond 0)
  | read {b : Byte} {u : State} (ha : s.accessRunning .disp = none) (he : s.fifoEmpty = false)
      (hp : s.pop = some (b, u)) : Done s .fifoRead (u.respond (validResponse b))
  | look {i : Instr} {v : Word} (hi : i = .fifoPeek ∨ i = .fifoLen ∨ i = .fifoIsempty ∨ i = .dispWaitdrain ∨
      (∃ st p, i = .resClassify st p) ∨ (∃ a b, i = .resCont a b) ∨ ∃ c, i = .csrRead c) : Done s i (s.respond v)
  | claim {r : Resource} (hb : s.running.base ≤ s.ceil r) (hn : s.running.claims.length ≠ s.cfg.nestMax) :
      Done s (.arbClaim r)
        { s with
          running := { s.running with
            claims := s.running.claims ++ [s.running.cur]
            cur := if s.running.cur < s.ceil r then s.ceil r else s.running.cur }
          rsp := some ((if s.running.cur < s.ceil r then s.ceil r else s.running.cur).setWidth 32) }
  | release {p : Prio} (hl : s.running.claims.getLast? = some p) :
      Done s .arbRelease
        { s with running := { s.running with cur := p, claims := s.running.claims.dropLast },
                 rsp := some (p.setWidth 32) }
  | kickStopped (ha : s.accessRunning .disp = none) (hd : s.disp = .stopped) :
      Done s .dispKick (({ s with disp := .idle, dispArmed := true }.emit .i2cStart).respond (bitResponse true))
  | kick (ha : s.accessRunning .disp = none) (hd : s.disp ≠ .stopped) :
      Done s .dispKick { s with dispArmed := true, rsp := some (bitResponse false) }
  | start {i : Instr} {reg : Byte} {action : SensAction} (hi : i = .sensStartRead reg ∨ ∃ v, i = .sensStartWrite reg v)
      (ha : s.accessRunning .sens = none) (ht : s.sensTag = .idle ∨ s.sensTag = .finished) :
      Done s i
        (({ (s.emit .spiSelect).emit (.spiWrite reg) with sensTag := .readFirst, sensAction := action }).respond 0)
  | addressNeeded (hd : s.canDeliver .i2c = true) (hp : s.i2cPhase = .sbPending) :
      Done s .evI2cSb (s.emit (.i2cWrite (addressByte s.cfg)))
  | byteReady {t : State} (hd : s.canDeliver .i2c = true) (hp : s.i2cPhase = .txReady) (hr : s.dispArmed = true)
      (ht : TxeDone s t) : Done s .evI2cTxe t
  | i2cErr {k : ErrorKind} (hd : s.canDeliver .i2c = true) (hc : s.cfg.errRecovery = .none) :
      Done s (.evI2cErr k) { s with i2cPhase := .stalled, dispLastErr := k }
  | i2cErrStop {k : ErrorKind} (hd : s.canDeliver .i2c = true) (hc : s.cfg.errRecovery = .toStopped) :
      Done s (.evI2cErr k)
        { s with i2cPhase := .stalled, dispLastErr := k, disp := .stopped, dispArmed := false }
  | spiFirst {b : Byte} (hd : s.canDeliver .spi = true) (hb : s.spiBusy = true) (ht : s.sensTag = .readFirst) :
      Done s (.evSpiRx b)
        { ({ s with spiBusy := false }.emit (.spiWrite s.sensValue)) with sensTag := .readSecond }
  | spiSecond {b : Byte} (hd : s.canDeliver .spi = true) (hb : s.spiBusy = true) (ht : s.sensTag = .readSecond) :
      Done s (.evSpiRx b)
        { ({ s with spiBusy := false, sensResult := b }.emit .spiRelease) with sensTag := .finished }
  | spiFail {k : ErrorKind} (hd : s.canDeliver .spi = true) (hb : s.spiBusy = true)
      (ht : s.sensTag = .readFirst ∨ s.sensTag = .readSecond) :
      Done s (.evSpiRxfail k) { s with spiBusy := false, sensLastErr := k }
  | trigger {k : CtxId} (hk : (s.cfg.swEntry k).isSome = true) :
      Done s (.evSwTrigger k) { s with pending := s.pending ||| pendingBit k }

/-- What an instruction raises a fault for, on a block that is not halted (R301). -/
inductive Raises (s : State) : Instr → FaultCode → Prop
  | above {i : Instr} {r : Resource} (ht : touched i = some r ∨ i = .arbClaim r) (h : s.ceil r < (acting i s).1) :
      Raises s i .arbAboveCeiling
  | unclaimed {i : Instr} {r : Resource} (ht : touched i = some r) (hb : (acting i s).1 ≤ s.ceil r)
      (h : (acting i s).2 < s.ceil r) : Raises s i .arbUnclaimed
  | nested {r : Resource} (hb : s.running.base ≤ s.ceil r) (h : s.running.claims.length = s.cfg.nestMax) :
      Raises s (.arbClaim r) .arbNestOverflow
  | nothingHeld (h : s.running.claims = []) : Raises s .arbRelease .arbReleaseEmpty
  | waits (h : s.running.ctx ≠ 0 ∨ s.running.claims ≠ []) : Raises s .dispWaitdrain .waitContext
  | startBusy {i : Instr} {reg : Byte} (hi : i = .sensStartRead reg ∨ ∃ v, i = .sensStartWrite reg v)
      (h : s.sensTag ≠ .idle ∧ s.sensTag ≠ .finished) : Raises s i .sensBusy
  | stopped (hd : s.canDeliver .i2c = true) (hr : s.dispArmed = true) (h : s.disp = .stopped) :
      Raises s .evI2cTxe .dispStoppedTxe
  | emptyPacket (h : s.disp = .control2 0) : Raises s .evI2cTxe .dispCtrl2Zero
  | unexpected {i : Instr} (hi : (∃ b, i = .evSpiRx b) ∨ ∃ k, i = .evSpiRxfail k) (hb : s.spiBusy = true)
      (h : s.sensTag ≠ .readFirst ∧ s.sensTag ≠ .readSecond) : Raises s i .sensUnexpectedEvent
  | rxFail {k : ErrorKind} (h : s.cfg.rxFailPolicy = .trap) : Raises s (.evSpiRxfail k) .sensRxfail
  | badTrigger {k : CtxId} (h : ¬ (s.cfg.swEntry k).isSome = true) : Raises s (.evSwTrigger k) .illegalCmd

theorem Raises.ne_none {s : State} {i : Instr} {c : FaultCode} (h : Raises s i c) : c ≠ .none := by
  cases h <;> decide

/-- FAULT_CTX for an event's fault (R300). -/
def eventCtx : Instr → CtxId
  | .evSpiRx _ => ctxSpi
  | .evSpiRxfail _ => ctxSpi
  | .evSwTrigger _ => ctxEventPort
  | _ => ctxI2c

/-- The five ways exec answers a next state. -/
inductive ExecNext (i : Instr) (s : State) : State → Prop
  | haltedEvent (hh : s.halted = true) (hp : i.port = .event) : ExecNext i s s
  | haltedCommand {v : Word} (hh : s.halted = true) (hp : i.port = .command)
      (hv : v = faultResponse s.faultCode ∨ ∃ c, i = .csrRead c) : ExecNext i s (s.respond v)
  | commandFault {c : FaultCode} (hh : s.halted = false) (hp : i.port = .command) (hc : Raises s i c) :
      ExecNext i s ((s.raiseFault c (encode i) s.running.ctx).respond (faultResponse c))
  | eventFault {c : FaultCode} (hh : s.halted = false) (hp : i.port = .event) (hc : Raises s i c) :
      ExecNext i s (s.raiseFault c (encode i) (eventCtx i))
  | done {t : State} (hh : s.halted = false) (hd : Done s i t) : ExecNext i s t

/-- A command is performed by the top frame of FRAMES (R170). -/
theorem acting_command {i : Instr} (hp : i.port = .command) (s : State) :
    acting i s = (s.running.base, s.running.cur) := by
  unfold acting
  rw [hp]

/-- The access check of an operation raises what R170 says. -/
theorem access_raises {s : State} {i : Instr} {r : Resource} {base cur : Prio} {c : FaultCode} (ht : touched i = some r)
    (ha : acting i s = (base, cur)) (h : s.access r base cur = some c) : Raises s i c := by
  unfold State.access at h
  split_ifs at h with h1 h2
  · injection h with h
    exact h ▸ .above (.inl ht) (by rw [ha]; exact h1)
  · injection h with h
    exact h ▸ .unclaimed ht (by rw [ha]; exact BitVec.not_lt.mp h1) (by rw [ha]; exact h2)

/-- A command's next state, from what its rule completes with and raises. -/
theorem runCommand_execNext {i : Instr} {s t : State} {a : Attempt} (hp : i.port = .command)
    (hd : ∀ u, a = .done u → Done s i u) (hr : ∀ c, a = .raise c → Raises s i c)
    (h : runCommand (encode i) s a = .next t) : ExecNext i s t := by
  rcases runCommand_next h with ⟨hh, rfl⟩ | ⟨hh, ha⟩ | ⟨hh, c, ha, rfl⟩
  · exact .haltedCommand hh hp (.inl rfl)
  · exact .done hh (hd t ha)
  · exact .commandFault hh hp (hr c ha)

/-- The same for a command that begins with access(r). -/
theorem runAccess_execNext {i : Instr} {r : Resource} {s t : State} {a : Attempt} (hp : i.port = .command)
    (ht : touched i = some r)
    (hd : ∀ u, s.accessRunning r = none → a = .done u → Done s i u) (hr : ∀ c, a = .raise c → Raises s i c)
    (h : runCommand (encode i) s (Attempt.unless (s.accessRunning r) a) = .next t) : ExecNext i s t :=
  runCommand_execNext hp (fun u hu => hd u (Attempt.unless_done hu).1 (Attempt.unless_done hu).2)
    (fun c hc => (Attempt.unless_raise hc).elim (access_raises ht (acting_command hp s)) fun hc => hr c hc.2) h

/-- An event's next state, from what its rule completes with and raises. -/
theorem runEvent_execNext {i : Instr} {s t : State} {d : Bool} {a : Attempt} (hp : i.port = .event)
    (hd : ∀ u, d = true → a = .done u → Done s i u) (hr : ∀ c, d = true → a = .raise c → Raises s i c)
    (h : runEvent (encode i) (eventCtx i) d s a = .next t) : ExecNext i s t := by
  rcases runEvent_next h with ⟨hh, rfl⟩ | ⟨hh, hdel, ha⟩ | ⟨hh, hdel, c, ha, rfl⟩
  · exact .haltedEvent hh hp
  · exact .done hh (hd t hdel ha)
  · exact .eventFault hh hp (hr c hdel ha)

/-- The I2C handler's step. -/
theorem runI2c_execNext {i : Instr} {s t : State} {d : Bool} {a : Attempt} (hp : i.port = .event)
    (ht : touched i = some .disp)
    (hx : eventCtx i = ctxI2c) (hd : ∀ u, d = true → s.canDeliver .i2c = true → a = .done u → Done s i u)
    (hr : ∀ c, d = true → s.canDeliver .i2c = true → a = .raise c → Raises s i c) (h : runI2c i d s a = .next t) :
    ExecNext i s t := by
  unfold runI2c at h
  rw [← hx] at h
  refine runEvent_execNext hp (fun u hdel hu => ?_) (fun c hdel hc => ?_) h
  · simp only [Bool.and_eq_true] at hdel
    exact hd u hdel.1 hdel.2 (Attempt.unless_done hu).2
  · simp only [Bool.and_eq_true] at hdel
    rcases Attempt.unless_raise hc with hc | ⟨-, hc⟩
    · refine access_raises ht (by unfold acting; rw [hp, ht]) hc
    · exact hr c hdel.1 hdel.2 hc

/-- The SPI handler's step. -/
theorem runSpi_execNext {i : Instr} {s t : State} {a : Attempt} (hp : i.port = .event) (ht : touched i = some .sens)
    (hx : eventCtx i = ctxSpi)
    (hd : ∀ u, s.spiBusy = true → s.canDeliver .spi = true → a = .done u → Done s i u)
    (hr : ∀ c, s.spiBusy = true → a = .raise c → Raises s i c) (h : runSpi i s a = .next t) : ExecNext i s t := by
  unfold runSpi at h
  rw [← hx] at h
  refine runEvent_execNext hp (fun u hdel hu => ?_) (fun c hdel hc => ?_) h
  · simp only [Bool.and_eq_true] at hdel
    exact hd u hdel.1 hdel.2 (Attempt.unless_done hu).2
  · simp only [Bool.and_eq_true] at hdel
    rcases Attempt.unless_raise hc with hc | ⟨-, hc⟩
    · refine access_raises ht (by unfold acting; rw [hp, ht]) hc
    · exact hr c hdel.1 hc

theorem idleLogic_no_raise {s : State} {c : FaultCode} : idleLogic s ≠ .raise c := by
  intro h
  unfold idleLogic at h
  split_ifs at h
  obtain ⟨_, _, h⟩ := withSlot_raise h
  split_ifs at h

/-- EV.I2C_TXE raises two codes and no other (R212, R215). -/
theorem txeByState_raise {s : State} {c : FaultCode} (h : txeByState s = .raise c) :
    (c = .dispStoppedTxe ∧ s.disp = .stopped) ∨ (c = .dispCtrl2Zero ∧ s.disp = .control2 0) := by
  unfold txeByState at h
  split at h
  · next hd => injection h with h; exact .inl ⟨h.symm, hd⟩
  · exact absurd h idleLogic_no_raise
  · unfold txeControl at h
    split_ifs at h
    exact absurd h idleLogic_no_raise
  · next n hd =>
    unfold txeControl2 at h
    split_ifs at h with hn he
    · injection h with h
      exact .inr ⟨h.symm, by rw [hd, hn]⟩
    · obtain ⟨_, _, h⟩ := withSlot_raise h
      cases h
  · next n hd =>
    split_ifs at h with hn
    · unfold txeDataEnd restart at h
      split_ifs at h
      obtain ⟨_, _, h⟩ := withSlot_raise h
      split_ifs at h
    · unfold txeData at h
      split_ifs at h
      obtain ⟨_, _, h⟩ := withSlot_raise h
      cases h

theorem startTransaction_execNext {i : Instr} {reg : Byte} {action : SensAction} {s t : State}
    (hp : i.port = .command) (hi : i = .sensStartRead reg ∨ ∃ v, i = .sensStartWrite reg v)
    (h : startTransaction i reg action s = .next t) : ExecNext i s t := by
  refine runAccess_execNext hp (by rcases hi with rfl | ⟨v, rfl⟩ <;> rfl) (fun u ha hu => ?_) (fun c hc => ?_) h
  · split_ifs at hu with ht
    injection hu with hu
    exact hu ▸ .start hi ha (by tauto)
  · split_ifs at hc with ht
    injection hc with hc
    exact hc ▸ .startBusy hi ht

/-- The wait is not complete (R202, R208). -/
theorem State.waiting_iff {s : State} : s.waiting = true ↔
    s.halted = false ∧ s.running.ctx = 0 ∧ s.running.claims = [] ∧ s.cfg.cap ≤ 2 * s.fifoLen.toNat := by
  simp [State.waiting, State.drained, and_assoc]

theorem exec_waitdrain_waiting {s : State} (h : s.waiting = true) :
    exec .dispWaitdrain s = .refused .drainWaitIncomplete := by
  simp only [exec, execDispWaitdrain]
  rw [if_pos h]

/-- DISP.WAITDRAIN is a command like any other where its wait is not incomplete. -/
theorem exec_waitdrain_command {s : State} (h : ¬ s.waiting = true) :
    exec .dispWaitdrain s = runCommand (encode .dispWaitdrain) s
      (if s.running.ctx ≠ 0 ∨ s.running.claims ≠ [] then .raise .waitContext
      else .done (s.respond (s.fifoLen.setWidth 32))) := by
  simp only [exec, execDispWaitdrain]
  rw [if_neg h]

/-- The same for an outcome that is not the wait's refusal. -/
theorem exec_waitdrain {s : State} {o : Result} (h : exec .dispWaitdrain s = o)
    (ho : o ≠ .refused .drainWaitIncomplete) :
    runCommand (encode .dispWaitdrain) s
      (if s.running.ctx ≠ 0 ∨ s.running.claims ≠ [] then .raise .waitContext
      else .done (s.respond (s.fifoLen.setWidth 32))) = o := by
  by_cases hw : s.waiting = true
  · exact absurd (h.symm.trans (exec_waitdrain_waiting hw)) ho
  · exact (exec_waitdrain_command hw).symm.trans h

/-- If exec answers a next state, one of the five cases of `ExecNext` holds. -/
theorem exec_next {i : Instr} {s t : State} (h : exec i s = .next t) : ExecNext i s t := by
  cases i with
  | fifoWrite b =>
    refine runAccess_execNext rfl rfl (fun u ha hu => ?_) (fun c hc => ?_) h
    · split_ifs at hu with hf
      · injection hu with hu
        exact hu ▸ .writeFull ha hf
      · obtain ⟨v, hv, hu⟩ := withSlot_done hu
        obtain ⟨hw, rfl⟩ := State.push_some hv
        injection hu with hu
        exact hu ▸ .write ha (by simpa using hf) hw
    · split_ifs at hc
      obtain ⟨_, _, hc⟩ := withSlot_raise hc
      cases hc
  | fifoRead =>
    refine runAccess_execNext rfl rfl (fun u ha hu => ?_) (fun c hc => ?_) h
    · split_ifs at hu with he
      · injection hu with hu
        exact hu ▸ .readEmpty ha he
      · obtain ⟨⟨b, v⟩, hv, hu⟩ := withSlot_done hu
        injection hu with hu
        exact hu ▸ .read ha (by simpa using he) hv
    · split_ifs at hc
      obtain ⟨_, _, hc⟩ := withSlot_raise hc
      cases hc
  | fifoPeek =>
    refine runAccess_execNext rfl rfl (fun u ha hu => ?_) (fun c hc => ?_) h
    · split_ifs at hu with he
      · injection hu with hu
        exact hu ▸ .look (by simp)
      · obtain ⟨b, -, hu⟩ := withSlot_done hu
        injection hu with hu
        exact hu ▸ .look (by simp)
    · split_ifs at hc
      obtain ⟨_, _, hc⟩ := withSlot_raise hc
      cases hc
  | fifoLen =>
    refine runAccess_execNext rfl rfl (fun u ha hu => ?_) (fun c hc => ?_) h
    · injection hu with hu
      exact hu ▸ .look (by simp)
    · cases hc
  | fifoIsempty =>
    refine runAccess_execNext rfl rfl (fun u ha hu => ?_) (fun c hc => ?_) h
    · injection hu with hu
      exact hu ▸ .look (by simp)
    · cases hc
  | arbClaim r =>
    refine runCommand_execNext rfl (fun u hu => ?_) (fun c hc => ?_) h
    · by_cases hb : s.ceil r < s.running.base
      · simp [hb] at hu
      · by_cases hn : s.running.claims.length = s.cfg.nestMax
        · simp [hb, hn] at hu
        · rw [if_neg hb, if_neg hn] at hu
          injection hu with hu
          exact hu ▸ .claim (BitVec.not_lt.mp hb) hn
    · by_cases hb : s.ceil r < s.running.base
      · rw [if_pos hb] at hc
        injection hc with hc
        exact hc ▸ .above (.inr rfl) hb
      · rw [if_neg hb] at hc
        by_cases hn : s.running.claims.length = s.cfg.nestMax
        · rw [if_pos hn] at hc
          injection hc with hc
          exact hc ▸ .nested (BitVec.not_lt.mp hb) hn
        · rw [if_neg hn] at hc
          cases hc
  | arbRelease =>
    refine runCommand_execNext rfl (fun u hu => ?_) (fun c hc => ?_) h
    · split at hu
      · cases hu
      · next p hl =>
        injection hu with hu
        exact hu ▸ .release hl
    · split at hc
      · next hl =>
        injection hc with hc
        exact hc ▸ .nothingHeld (List.getLast?_eq_none_iff.mp hl)
      · cases hc
  | dispKick =>
    refine runAccess_execNext rfl rfl (fun u ha hu => ?_) (fun c hc => ?_) h
    · split_ifs at hu with hd
      · injection hu with hu
        exact hu ▸ .kickStopped ha hd
      · injection hu with hu
        exact hu ▸ .kick ha hd
    · split_ifs at hc
  | dispWaitdrain =>
    refine runCommand_execNext rfl (fun u hu => ?_) (fun c hc => ?_) (exec_waitdrain h (by simp))
    · split_ifs at hu with hx
      injection hu with hu
      exact hu ▸ .look (by simp)
    · split_ifs at hc with hx
      injection hc with hc
      exact hc ▸ .waits hx
  | sensStartRead reg => exact startTransaction_execNext rfl (.inl rfl) h
  | sensStartWrite reg v => exact startTransaction_execNext rfl (.inr ⟨v, rfl⟩) h
  | resClassify st p =>
    have h' : runCommand (encode (.resClassify st p)) s
        (.done (s.respond ((classify st p).code.setWidth 32))) = .next t := h
    refine runCommand_execNext rfl (fun u hu => ?_) (fun c hc => ?_) h'
    · injection hu with hu
      exact hu ▸ .look (by simp)
    · cases hc
  | resCont a b =>
    refine runCommand_execNext rfl (fun u hu => ?_) (fun c hc => ?_) h
    · cases a <;> (injection hu with hu; exact hu ▸ .look (by simp))
    · cases a <;> cases hc
  | csrRead c =>
    by_cases hh : s.halted = true
    · have h' : (.next (s.respond (csrValue c s)) : Result) = .next t := by
        simpa [exec, execCsrRead, hh] using h
      injection h' with h'
      exact h' ▸ .haltedCommand hh rfl (.inr ⟨c, rfl⟩)
    · have h' : runCommand (encode (.csrRead c)) s
          (Attempt.unless (csrAccess c s) (.done (s.respond (csrValue c s)))) = .next t := by
        simpa [exec, execCsrRead, hh] using h
      refine runCommand_execNext rfl (fun u hu => ?_) (fun e he => ?_) h'
      · obtain ⟨-, hu⟩ := Attempt.unless_done hu
        injection hu with hu
        exact hu ▸ .look (by simp)
      · rcases Attempt.unless_raise he with he | ⟨-, he⟩
        · unfold csrAccess at he
          split at he
          · next r hr => exact access_raises hr (acting_command rfl s) he
          · cases he
        · cases he
  | evI2cSb =>
    refine runI2c_execNext rfl rfl rfl (fun u hc hd hu => ?_) (fun c _ _ hc => ?_) h
    · injection hu with hu
      exact hu ▸ .addressNeeded hd (by simpa using hc)
    · cases hc
  | evI2cTxe =>
    refine runI2c_execNext rfl rfl rfl (fun u hc hd hu => ?_) (fun c hc hd hu => ?_) h
    · simp only [Bool.and_eq_true, beq_iff_eq] at hc
      exact .byteReady hd hc.1 hc.2 (txeByState_done hu)
    · simp only [Bool.and_eq_true, beq_iff_eq] at hc
      rcases txeByState_raise hu with ⟨rfl, hs⟩ | ⟨rfl, hs⟩
      · exact .stopped hd hc.2 hs
      · exact .emptyPacket hs
  | evI2cErr k =>
    refine runI2c_execNext rfl rfl rfl (fun u _ hd hu => ?_) (fun c _ _ hc => ?_) h
    · split at hu
      · next hc =>
        injection hu with hu
        exact hu ▸ .i2cErr hd hc
      · next hc =>
        injection hu with hu
        exact hu ▸ .i2cErrStop hd hc
    · split at hc <;> cases hc
  | evSpiRx b =>
    refine runSpi_execNext rfl rfl rfl (fun u hb hd hu => ?_) (fun c hb hc => ?_) h
    · split at hu
      · next ht =>
        injection hu with hu
        exact hu ▸ .spiFirst hd hb ht
      · next ht =>
        injection hu with hu
        exact hu ▸ .spiSecond hd hb ht
      all_goals cases hu
    · split at hc
      · cases hc
      · cases hc
      all_goals
        next ht =>
          injection hc with hc
          exact hc ▸ .unexpected (.inl ⟨b, rfl⟩) hb (by rw [ht]; decide)
  | evSpiRxfail k =>
    refine runSpi_execNext rfl rfl rfl (fun u hb hd hu => ?_) (fun c hb hc => ?_) h
    · split_ifs at hu with ht
      split at hu
      · cases hu
      · injection hu with hu
        exact hu ▸ .spiFail hd hb (by tauto)
    · split_ifs at hc with ht
      · injection hc with hc
        exact hc ▸ .unexpected (.inr ⟨k, rfl⟩) hb ht
      · split at hc
        · next hp =>
          injection hc with hc
          exact hc ▸ .rxFail hp
        · cases hc
  | evSwTrigger k =>
    refine runEvent_execNext rfl (fun u hd hu => ?_) (fun c _ hc => ?_) h
    · split_ifs at hu with hk
      injection hu with hu
      exact hu ▸ .trigger hk
    · split_ifs at hc with hk
      injection hc with hc
      exact hc ▸ .badTrigger hk

/-- exec refuses an event for its delivery condition, a drain wait while it is not complete, and nothing else. -/
theorem exec_refused {i : Instr} {s : State} {r : Refusal} (h : exec i s = .refused r) :
    (i.port = .event ∧ s.halted = false ∧ r = .eventNotDeliverable) ∨
      (i = .dispWaitdrain ∧ s.waiting = true ∧ r = .drainWaitIncomplete) := by
  cases i with
  | csrRead c =>
    simp only [exec, execCsrRead] at h
    split_ifs at h
    exact absurd h runCommand_refused
  | evI2cSb => exact .inl ⟨rfl, (runEvent_refused h).1, (runEvent_refused h).2.2⟩
  | evI2cTxe => exact .inl ⟨rfl, (runEvent_refused h).1, (runEvent_refused h).2.2⟩
  | evI2cErr k => exact .inl ⟨rfl, (runEvent_refused h).1, (runEvent_refused h).2.2⟩
  | evSpiRx b => exact .inl ⟨rfl, (runEvent_refused h).1, (runEvent_refused h).2.2⟩
  | evSpiRxfail k => exact .inl ⟨rfl, (runEvent_refused h).1, (runEvent_refused h).2.2⟩
  | evSwTrigger k => exact .inl ⟨rfl, (runEvent_refused h).1, (runEvent_refused h).2.2⟩
  | fifoWrite b => exact absurd h runCommand_refused
  | fifoRead => exact absurd h runCommand_refused
  | fifoPeek => exact absurd h runCommand_refused
  | fifoLen => exact absurd h runCommand_refused
  | fifoIsempty => exact absurd h runCommand_refused
  | arbClaim r => exact absurd h runCommand_refused
  | arbRelease => exact absurd h runCommand_refused
  | dispKick => exact absurd h runCommand_refused
  | dispWaitdrain =>
    by_cases hw : s.waiting = true
    · rw [exec_waitdrain_waiting hw] at h
      injection h with h
      exact .inr ⟨rfl, hw, h.symm⟩
    · exact absurd ((exec_waitdrain_command hw).symm.trans h) runCommand_refused
  | sensStartRead reg => exact absurd h runCommand_refused
  | sensStartWrite reg v => exact absurd h runCommand_refused
  | resClassify st p =>
    simp only [exec, execResClassify] at h
    exact absurd h runCommand_refused
  | resCont a b => exact absurd h runCommand_refused

/-! ### A step -/

/-- The ways a choice answers a next state, from the state it starts in. -/
inductive ChoiceNext (c : Choice) (s : State) : State → Prop
  | event {w : Word} {i : Instr} {t : State} (hc : c = .event w) (hd : decode .event w = .ok i)
      (hx : exec i s = .next t) : ChoiceNext c s t
  | illegalEvent {w : Word} {e : DecodeError} (hc : c = .event w) (hd : decode .event w = .error e)
      (hh : s.halted = false) : ChoiceNext c s (s.raiseFault .illegalCmd w ctxEventPort)
  | ignoredEvent {w : Word} (hc : c = .event w) (hh : s.halted = true) : ChoiceNext c s s
  | enter {k : CtxId} {e : SwEntry} (hc : c = .enter k) (he : s.cfg.swEntry k = some e)
      (hd : s.canDeliver (.sw k) = true) :
      ChoiceNext c s
        { s with
          pending := s.pending &&& ~~~(pendingBit k)
          running := { ctx := k, base := e.prio, cur := e.prio, claims := [], place := placeAtStart e.program }
          preempted := s.running :: s.preempted }
  | command {it : Item} {i : Instr} {t : State} (hc : c = .context) (hf : s.forced = 0) (hi : s.item = some it)
      (hd : decode .command it.word = .ok i) (hx : exec i s = .next t) : ChoiceNext c s (t.advance it)
  | illegalCommand {it : Item} {e : DecodeError} (hc : c = .context) (hf : s.forced = 0) (hi : s.item = some it)
      (hd : decode .command it.word = .error e) (hh : s.halted = false) :
      ChoiceNext c s
        (((s.raiseFault .illegalCmd it.word s.running.ctx).respond (faultResponse .illegalCmd)).advance it)
  | answeredCommand {it : Item} (hc : c = .context) (hf : s.forced = 0) (hi : s.item = some it)
      (hh : s.halted = true) : ChoiceNext c s ((s.respond (faultResponse s.faultCode)).advance it)
  | leak (hc : c = .context) (hf : s.forced = 0) (hi : s.item = none) (hh : s.halted = false) (hl : s.running.claims ≠ []) :
      ChoiceNext c s (s.raiseFault .arbClaimLeak 0 s.running.ctx)
  | handlerEnds {f : Frame} {rest : List Frame} (hc : c = .context) (hf : s.forced = 0) (hi : s.item = none)
      (hh : s.halted = false) (hl : s.running.claims = []) (hx : s.running.ctx ≠ 0) (hp : s.preempted = f :: rest) :
      ChoiceNext c s { s with running := f, preempted := rest }
  | idleEnds (hc : c = .context) (hf : s.forced = 0) (hi : s.item = none) (hh : s.halted = false)
      (hl : s.running.claims = []) (hx : s.running.ctx = 0) : ChoiceNext c s { s with idleDone := true }
  | byteOut (hc : c = .i2cByteOut) (hh : s.halted = false) (hp : s.i2cPhase = .txBusy) :
      ChoiceNext c s { s with i2cPhase := .txReady }
  | loseTxe (hc : c = .loseTxe) (hh : s.halted = false) (hp : s.i2cPhase = .txReady) (hr : s.dispArmed = true) :
      ChoiceNext c s s.disarm
  | loseSb (hc : c = .loseSb) (hh : s.halted = false) (hp : s.i2cPhase = .sbPending) :
      ChoiceNext c s { s with i2cPhase := .stalled }
  | loseSpi (hc : c = .loseSpi) (hh : s.halted = false) (hb : s.spiBusy = true) :
      ChoiceNext c s { s with spiBusy := false }

theorem presentEvent_next {w : Word} {s t : State} (h : presentEvent w s = .next t) :
    ChoiceNext (.event w) s t := by
  unfold presentEvent at h
  split at h
  · next i hd => exact .event rfl hd h
  · next e hd =>
    rcases runEvent_next h with ⟨hh, rfl⟩ | ⟨hh, -, ha⟩ | ⟨hh, -, c, ha, rfl⟩
    · exact .ignoredEvent rfl hh
    · cases ha
    · injection ha with ha
      exact ha ▸ .illegalEvent rfl hd hh

theorem endOfProgram_next {s t : State} (hf : s.forced = 0) (hi : s.item = none) (h : endOfProgram s = .next t) :
    ChoiceNext .context s t := by
  unfold endOfProgram at h
  split_ifs at h with hh hl hx
  · injection h with h
    exact h ▸ .leak rfl hf hi (by simpa using hh) hl
  · split at h
    · next f rest hp =>
      injection h with h
      exact h ▸ .handlerEnds rfl hf hi (by simpa using hh) (not_not.mp hl) hx hp
    · cases h
  · injection h with h
    exact h ▸ .idleEnds rfl hf hi (by simpa using hh) (not_not.mp hl) (not_not.mp hx)

theorem contextStep_next {s t : State} (h : contextStep s = .next t) : ChoiceNext .context s t := by
  unfold contextStep at h
  split_ifs at h with hf hi
  have hf : s.forced = 0 := not_not.mp hf
  split at h
  · next it hit =>
    obtain ⟨u, hu, rfl⟩ := mapNext_next h
    unfold issueCommand at hu
    split at hu
    · next i hd => exact .command rfl hf hit hd hu
    · next e hd =>
      rcases runCommand_next hu with ⟨hh, rfl⟩ | ⟨hh, ha⟩ | ⟨hh, c, ha, rfl⟩
      · exact .answeredCommand rfl hf hit hh
      · cases ha
      · injection ha with ha
        exact ha ▸ .illegalCommand rfl hf hit hd hh
  · next hi => exact endOfProgram_next hf hi h

/-- If a choice answers a next state, one of the cases of `ChoiceNext` holds. -/
theorem stepChoice_next {c : Choice} {s t : State} (h : stepChoice c s = .next t) : ChoiceNext c s t := by
  cases c with
  | event w => exact presentEvent_next h
  | enter k =>
    simp only [stepChoice, enterHandler] at h
    split at h
    · cases h
    · next e he =>
      split_ifs at h with hd
      injection h with h
      exact h ▸ .enter rfl he hd
  | context => exact contextStep_next h
  | i2cByteOut =>
    obtain ⟨hh, hp, rfl⟩ := agentStep_next h
    exact .byteOut rfl hh (by simpa using hp)
  | loseTxe =>
    obtain ⟨hh, hp, rfl⟩ := agentStep_next h
    simp only [Bool.and_eq_true, beq_iff_eq] at hp
    exact .loseTxe rfl hh hp.1.2 hp.2
  | loseSb =>
    obtain ⟨hh, hp, rfl⟩ := agentStep_next h
    simp only [Bool.and_eq_true, beq_iff_eq] at hp
    exact .loseSb rfl hh hp.2
  | loseSpi =>
    obtain ⟨hh, hp, rfl⟩ := agentStep_next h
    simp only [Bool.and_eq_true] at hp
    exact .loseSpi rfl hh hp.2

end Sys2Proof.Machine
end

