-- ==== Sys2Proof/Laws/Delivery.lean ====
section
/-! SUPPORT. Delivery in the statements' terms: `forced` and `canDeliver` (R309) against NothingForced and Turn. -/

namespace Sys2Proof.Machine

/-- What a handler's being ready says. -/
theorem State.ready_avail {s : State} {h : Handler} (hr : s.ready h = true) : s.avail h = true := by
  cases h with
  | i2c =>
    revert hr
    simp only [State.ready, State.avail]
    cases s.i2cPhase <;> simp
  | spi => cases hr
  | sw k => exact hr

theorem State.forced_of_nothing {s : State} (h : NothingForced s) : s.forced = 0 := by
  rw [State.forced_eq_zero]
  rintro k hm ⟨hr, hd⟩
  have h1 := (State.deliverable_iff.mp hd).2.2
  have h2 := h k hm hr
  omega

theorem State.forced_zero_iff {s : State} (hh : s.halted = false) : s.forced = 0 ↔ NothingForced s := by
  refine ⟨fun h0 k hm hr => ?_, State.forced_of_nothing⟩
  by_contra hc
  exact State.forced_eq_zero.mp h0 k hm
    ⟨hr, State.deliverable_iff.mpr ⟨hh, State.ready_avail hr, not_le.mp hc⟩⟩

/-- `forced` is at most p exactly when no ready handler has a priority above p, for a p above ARB_CUR. -/
theorem State.forced_le_iff {s : State} {p : Prio} (hh : s.halted = false) (hp : s.running.cur < p) :
    s.forced ≤ p.toNat ↔
      (s.i2cPhase = .sbPending ∨ (s.i2cPhase = .txReady ∧ s.dispArmed = true) → s.cfg.prioI2c ≤ p) ∧
      ∀ k e, s.cfg.swEntry k = some e → s.isPending k = true → e.prio ≤ p := by
  have hp' : s.running.cur.toNat < p.toNat := hp
  constructor
  · intro h
    have key : ∀ k ∈ s.handlers, s.ready k = true → k.prio s.cfg ≤ p.toNat := by
      intro k hm hr
      by_cases hc : s.running.cur.toNat < k.prio s.cfg
      · refine le_trans ?_ h
        exact le_foldr_max (List.mem_map_of_mem (List.mem_filter.mpr
          ⟨hm, by simp [hr, State.deliverable_iff.mpr ⟨hh, State.ready_avail hr, hc⟩]⟩))
      · omega
    constructor
    · intro hi
      have hr : s.ready .i2c = true := by
        simp only [State.ready]
        rcases hi with hi | hi <;> simp [hi]
      exact key .i2c (by simp [State.handlers]) hr
    · intro k e he hk
      have hm : e ∈ s.cfg.swCtx := List.mem_of_find?_eq_some he
      have hid : e.id = k := by simpa using List.find?_some he
      have h2 := key (.sw k) (List.mem_append.mpr (.inr (List.mem_map.mpr ⟨e, hm, by rw [hid]⟩))) hk
      simp only [Handler.prio, he] at h2
      exact h2
  · rintro ⟨h1, h2⟩
    by_cases h0 : s.forced = 0
    · omega
    · obtain ⟨k, hk, hf⟩ := List.mem_map.mp (foldr_max_mem h0)
      obtain ⟨-, hr⟩ := List.mem_filter.mp hk
      change Handler.prio s.cfg k = s.forced at hf
      rw [← hf]
      simp only [Bool.and_eq_true] at hr
      cases k with
      | i2c =>
        refine h1 ?_
        have h3 := hr.1
        revert h3
        simp only [State.ready]
        cases s.i2cPhase <;> simp
      | spi => cases hr.1
      | sw k =>
        simp only [Handler.prio]
        cases he : s.cfg.swEntry k with
        | none => simp
        | some e => exact h2 k e he hr.1

/-- A handler of priority p may be delivered exactly when it is available and has its turn. -/
theorem State.canDeliver_iff_turn {s : State} {h : Handler} {p : Prio} (hp : h.prio s.cfg = p.toNat) :
    s.canDeliver h = true ↔ s.avail h = true ∧ Turn s p := by
  rw [State.canDeliver_iff, State.deliverable_iff, hp]
  constructor
  · rintro ⟨⟨h1, h2, h3⟩, h4⟩
    obtain ⟨h5, h6⟩ := (State.forced_le_iff h1 h3).mp h4
    exact ⟨h2, h1, h3, h5, h6⟩
  · rintro ⟨h2, h1, h3, h5, h6⟩
    exact ⟨⟨h1, h2, h3⟩, (State.forced_le_iff h1 h3).mpr ⟨h5, h6⟩⟩

end Sys2Proof.Machine
end

