-- ==== Sys2Proof/Laws/Encoding.lean ====
section
/-! SUPPORT. The word layout of R100: a word is its five fields, and each field reads back from the packed word. The
codes of R50, R59, R270 and R271 read back from their numbers. -/

namespace Sys2Proof

theorem Word.pack_toNat (u o : BitVec 4) (z b a : Byte) :
    (Word.pack u o z b a).toNat =
      u.toNat * 2 ^ 28 + o.toNat * 2 ^ 24 + z.toNat * 2 ^ 16 + b.toNat * 2 ^ 8 + a.toNat := by
  have hu := u.isLt
  have ho := o.isLt
  have hz := z.isLt
  have hb := b.isLt
  have ha := a.isLt
  simp only [Word.pack, BitVec.toNat_append]
  rw [← Nat.shiftLeft_add_eq_or_of_lt ho, ← Nat.shiftLeft_add_eq_or_of_lt hz, ← Nat.shiftLeft_add_eq_or_of_lt hb,
    ← Nat.shiftLeft_add_eq_or_of_lt ha]
  simp only [Nat.shiftLeft_eq]
  omega

theorem Word.unit_toNat (w : Word) : w.unit.toNat = w.toNat / 2 ^ 28 % 2 ^ 4 := by
  simp [Word.unit, BitVec.extractLsb'_toNat, Nat.shiftRight_eq_div_pow]

theorem Word.op_toNat (w : Word) : w.op.toNat = w.toNat / 2 ^ 24 % 2 ^ 4 := by
  simp [Word.op, BitVec.extractLsb'_toNat, Nat.shiftRight_eq_div_pow]

theorem Word.z_toNat (w : Word) : w.z.toNat = w.toNat / 2 ^ 16 % 2 ^ 8 := by
  simp [Word.z, BitVec.extractLsb'_toNat, Nat.shiftRight_eq_div_pow]

theorem Word.b_toNat (w : Word) : w.b.toNat = w.toNat / 2 ^ 8 % 2 ^ 8 := by
  simp [Word.b, BitVec.extractLsb'_toNat, Nat.shiftRight_eq_div_pow]

theorem Word.a_toNat (w : Word) : w.a.toNat = w.toNat % 2 ^ 8 := by
  simp [Word.a, BitVec.extractLsb'_toNat]

@[simp] theorem Word.unit_pack (u o : BitVec 4) (z b a : Byte) : (Word.pack u o z b a).unit = u := by
  apply BitVec.eq_of_toNat_eq
  rw [Word.unit_toNat, Word.pack_toNat]
  omega

@[simp] theorem Word.op_pack (u o : BitVec 4) (z b a : Byte) : (Word.pack u o z b a).op = o := by
  apply BitVec.eq_of_toNat_eq
  rw [Word.op_toNat, Word.pack_toNat]
  omega

@[simp] theorem Word.z_pack (u o : BitVec 4) (z b a : Byte) : (Word.pack u o z b a).z = z := by
  apply BitVec.eq_of_toNat_eq
  rw [Word.z_toNat, Word.pack_toNat]
  omega

@[simp] theorem Word.b_pack (u o : BitVec 4) (z b a : Byte) : (Word.pack u o z b a).b = b := by
  apply BitVec.eq_of_toNat_eq
  rw [Word.b_toNat, Word.pack_toNat]
  omega

@[simp] theorem Word.a_pack (u o : BitVec 4) (z b a : Byte) : (Word.pack u o z b a).a = a := by
  apply BitVec.eq_of_toNat_eq
  rw [Word.a_toNat, Word.pack_toNat]
  omega

/-- Every word is its five fields. -/
theorem Word.pack_fields (w : Word) : Word.pack w.unit w.op w.z w.b w.a = w := by
  apply BitVec.eq_of_toNat_eq
  rw [Word.pack_toNat, Word.unit_toNat, Word.op_toNat, Word.z_toNat, Word.b_toNat, Word.a_toNat]
  have := w.isLt
  omega

/-- The four bytes of a word give it back (R74). -/
theorem Word.ofBytes_bytes (w : Word) :
    Word.ofBytes (w.extractLsb' 0 8) (w.extractLsb' 8 8) (w.extractLsb' 16 8) (w.extractLsb' 24 8) = w := by
  apply BitVec.eq_of_toNat_eq
  simp only [Word.ofBytes, BitVec.toNat_append]
  rw [← Nat.shiftLeft_add_eq_or_of_lt (BitVec.isLt _), ← Nat.shiftLeft_add_eq_or_of_lt (BitVec.isLt _),
    ← Nat.shiftLeft_add_eq_or_of_lt (BitVec.isLt _)]
  simp only [BitVec.extractLsb'_toNat, Nat.shiftLeft_eq, Nat.shiftRight_eq_div_pow]
  have := w.isLt
  omega

theorem ErrorKind.ofCode_code (k : ErrorKind) : ErrorKind.ofCode k.code = some k := by cases k <;> decide

theorem BusResult.ofCode_code (r : BusResult) : BusResult.ofCode r.code = some r := by
  cases r with
  | ok => decide
  | busy => decide
  | error k => cases k <;> decide

theorem Csr.ofNumber_number (c : Csr) : Csr.ofNumber c.number = some c := by cases c <;> decide

theorem Resource.ofNumber_number (r : Resource) : Resource.ofNumber r.number = r := by cases r <;> decide

theorem ErrorKind.code_of_ofCode {n : BitVec 3} {k : ErrorKind} (h : ErrorKind.ofCode n = some k) : k.code = n := by
  simpa using List.find?_some h

theorem BusResult.code_of_ofCode {n : Byte} {r : BusResult} (h : BusResult.ofCode n = some r) : r.code = n := by
  simpa using List.find?_some h

theorem Csr.number_of_ofNumber {n : Byte} {c : Csr} (h : Csr.ofNumber n = some c) : c.number = n := by
  simpa using List.find?_some h

end Sys2Proof
end

