-- ==== Sys2Proof/Laws/PerInstr.lean ====
section
/-! SUPPORT. Per instruction: the port the encoded word belongs to by its UNIT (R101) is the instruction's port. -/

namespace Sys2Proof.Laws.EncodePort

/-- The encoded word belongs to the instruction's port. -/
def Statement (i : Instr) : Prop := portOf (encode i) = i.port

theorem fifoWrite (b : Byte) : Statement (.fifoWrite b) := by
  simp [Statement, portOf, encode, Instr.port]

theorem fifoRead : Statement .fifoRead := by
  simp [Statement, portOf, encode, Instr.port]

theorem fifoPeek : Statement .fifoPeek := by
  simp [Statement, portOf, encode, Instr.port]

theorem fifoLen : Statement .fifoLen := by
  simp [Statement, portOf, encode, Instr.port]

theorem fifoIsempty : Statement .fifoIsempty := by
  simp [Statement, portOf, encode, Instr.port]

theorem arbClaim (r : Resource) : Statement (.arbClaim r) := by
  simp [Statement, portOf, encode, Instr.port]

theorem arbRelease : Statement .arbRelease := by
  simp [Statement, portOf, encode, Instr.port]

theorem dispKick : Statement .dispKick := by
  simp [Statement, portOf, encode, Instr.port]

theorem dispWaitdrain : Statement .dispWaitdrain := by
  simp [Statement, portOf, encode, Instr.port]

theorem sensStartRead (reg : Byte) : Statement (.sensStartRead reg) := by
  simp [Statement, portOf, encode, Instr.port]

theorem sensStartWrite (reg value : Byte) : Statement (.sensStartWrite reg value) := by
  simp [Statement, portOf, encode, Instr.port]

theorem resClassify (status : BitVec 5) (polled : Bool) : Statement (.resClassify status polled) := by
  simp [Statement, portOf, encode, Instr.port]

theorem resCont (prior next : BusResult) : Statement (.resCont prior next) := by
  simp [Statement, portOf, encode, Instr.port]

theorem csrRead (c : Csr) : Statement (.csrRead c) := by
  simp [Statement, portOf, encode, Instr.port]

theorem evI2cSb : Statement .evI2cSb := by
  simp [Statement, portOf, encode, Instr.port]

theorem evI2cTxe : Statement .evI2cTxe := by
  simp [Statement, portOf, encode, Instr.port]

theorem evI2cErr (k : ErrorKind) : Statement (.evI2cErr k) := by
  simp [Statement, portOf, encode, Instr.port]

theorem evSpiRx (b : Byte) : Statement (.evSpiRx b) := by
  simp [Statement, portOf, encode, Instr.port]

theorem evSpiRxfail (k : ErrorKind) : Statement (.evSpiRxfail k) := by
  simp [Statement, portOf, encode, Instr.port]

theorem evSwTrigger (k : CtxId) : Statement (.evSwTrigger k) := by
  simp [Statement, portOf, encode, Instr.port]

end Sys2Proof.Laws.EncodePort
end

