-- ==== Sys2Proof/Laws/Queue.lean ====
section
/-! SUPPORT. The FIFO as a bounded queue: what a push and a pop do to the cursor, the count and the list of R35, and the
three things an instruction can do to it. -/

namespace Sys2Proof.Machine

theorem State.nextPtr_toNat {s : State} (h : FifoInv s) : s.nextPtr.toNat = (s.fifoPtr.toNat + 1) % s.cfg.cap := by
  have h1 := h.capPos
  have h2 := h.capTop
  have h3 : (s.fifoPtr.toNat + 1) % s.cfg.cap < s.cfg.cap := Nat.mod_lt _ (by omega)
  rw [State.nextPtr, BitVec.toNat_ofNat, Nat.mod_eq_of_lt]
  omega

theorem State.len_after_pop {s : State} (he : s.fifoEmpty = false) : (s.fifoLen - 1).toNat + 1 = s.fifoLen.toNat := by
  have h : s.fifoLen ≠ 0 := by simpa [State.fifoEmpty] using he
  have h' : s.fifoLen.toNat ≠ 0 := fun h0 => h (BitVec.eq_of_toNat_eq h0)
  have := s.fifoLen.isLt
  bv_omega

theorem State.len_after_push {s : State} (h : FifoInv s) (hf : s.fifoFull = false) :
    (s.fifoLen + 1).toNat = s.fifoLen.toNat + 1 ∧ s.fifoLen.toNat < s.cfg.cap := by
  have h1 := h.lenTop
  have h2 := h.capTop
  have h3 : s.fifoLen.toNat ≠ s.cfg.cap := by simpa [State.fifoFull] using hf
  constructor
  · bv_omega
  · omega

/-- FifoInv reads four fields. -/
theorem FifoInv.of_eq {s t : State} (h : FifoInv s) (hc : t.cfg = s.cfg) (hb : t.buf = s.buf)
    (hp : t.fifoPtr = s.fifoPtr) (hl : t.fifoLen = s.fifoLen) : FifoInv t := by
  obtain ⟨h1, h2, h3, h4, h5, h6⟩ := h
  constructor <;> simp only [hc, hb, hp, hl] <;> assumption

theorem State.fifoList_length (s : State) : s.fifoList.length = s.fifoLen.toNat := by
  simp [State.fifoList]

theorem State.fifoList_congr {s t : State} (hc : t.cfg = s.cfg) (hb : t.buf = s.buf) (hp : t.fifoPtr = s.fifoPtr)
    (hl : t.fifoLen = s.fifoLen) : t.fifoList = s.fifoList := by
  simp only [State.fifoList, hc, hb, hp, hl]

/-- A pop takes the head of the list. -/
theorem State.fifoList_pop {s t : State} (hv : FifoInv s) (he : s.fifoEmpty = false) (hc : t.cfg = s.cfg)
    (hb : t.buf = s.buf) (hp : t.fifoPtr = s.nextPtr) (hl : t.fifoLen = s.fifoLen - 1) :
    s.fifoList = oldest s :: t.fifoList := by
  simp only [State.fifoList]
  rw [hc, hb, hp, hl, ← State.len_after_pop he, State.nextPtr_toNat hv, List.range_succ_eq_map, List.map_cons,
    List.map_map]
  congr 1
  · rw [Nat.add_zero, Nat.mod_eq_of_lt hv.ptrLow, oldest]
  · refine List.map_congr_left fun k _ => ?_
    simp only [Function.comp, Nat.mod_add_mod]
    congr 2
    omega

/-- While the FIFO is not full, FIFO_WPTR is no occupied slot. -/
theorem State.wptr_free {s : State} (hv : FifoInv s) (hf : s.fifoFull = false) {k : Nat} (hk : k < s.fifoLen.toNat) :
    (s.fifoPtr.toNat + k) % s.cfg.cap ≠ s.fifoWptr := by
  have hl := (State.len_after_push hv hf).2
  have hp := hv.ptrLow
  have hm : ∀ x, x < 2 * s.cfg.cap → x % s.cfg.cap = if x < s.cfg.cap then x else x - s.cfg.cap := by
    intro x hx
    split_ifs with hc
    · exact Nat.mod_eq_of_lt hc
    · rw [Nat.mod_eq_sub_mod (by omega), Nat.mod_eq_of_lt (by omega)]
  rw [State.fifoWptr, hm _ (by omega), hm _ (by omega)]
  split_ifs <;> omega

/-- A push appends to the list. -/
theorem State.fifoList_push {s t : State} {b : Byte} (hv : FifoInv s) (hf : s.fifoFull = false) (hc : t.cfg = s.cfg)
    (hb : t.buf = Memory.write s.buf s.fifoWptr b) (hp : t.fifoPtr = s.fifoPtr) (hl : t.fifoLen = s.fifoLen + 1) :
    t.fifoList = s.fifoList ++ [b] := by
  simp only [State.fifoList]
  rw [hc, hb, hp, hl, (State.len_after_push hv hf).1, List.range_succ, List.map_append]
  congr 1
  · refine List.map_congr_left fun k hk => ?_
    rw [Memory.read_write_other]
    exact State.wptr_free hv hf (by simpa using hk)
  · rw [List.map_singleton, ← State.fifoWptr, Memory.read_write_same hv.bufForm]

/-- EV.I2C_TXE leaves the FIFO as it is, or pops; nothing else of the state but the channel, the phase and TRACE. -/
theorem TxeDone.fifo {s t : State} (h : TxeDone s t) :
    t = { s with disp := t.disp, dispArmed := t.dispArmed, i2cPhase := t.i2cPhase, trace := t.trace } ∨
    (s.fifoEmpty = false ∧
      t = { s with
        fifoPtr := s.nextPtr
        fifoLen := s.fifoLen - 1
        disp := t.disp
        dispArmed := t.dispArmed
        i2cPhase := t.i2cPhase
        trace := t.trace }) := by
  cases h with
  | starve => exact .inl rfl
  | ctrlHeader hd he hp hb =>
    obtain ⟨-, -, rfl⟩ := State.pop_some hp
    exact .inr ⟨he, rfl⟩
  | dataHeader hd he hp hb =>
    obtain ⟨-, -, rfl⟩ := State.pop_some hp
    exact .inr ⟨he, rfl⟩
  | ctrlNext => exact .inl rfl
  | suspend => exact .inl rfl
  | ctrlByte hd hn he hp =>
    obtain ⟨-, -, rfl⟩ := State.pop_some hp
    exact .inr ⟨he, rfl⟩
  | dataByte hd hn he hp =>
    obtain ⟨-, -, rfl⟩ := State.pop_some hp
    exact .inr ⟨he, rfl⟩
  | fold hd he hp =>
    obtain ⟨-, -, rfl⟩ := State.pop_some hp
    exact .inr ⟨he, rfl⟩
  | restart => exact .inl rfl

/-- What a completed instruction does to the FIFO. -/
inductive FifoEffect (i : Instr) (s t : State) : Prop
  | same (hc : t.cfg = s.cfg) (hb : t.buf = s.buf) (hp : t.fifoPtr = s.fifoPtr) (hl : t.fifoLen = s.fifoLen)
  | push (b : Byte) (hi : i = .fifoWrite b) (hf : s.fifoFull = false) (hw : s.fifoWptr < s.cfg.cap)
      (hc : t.cfg = s.cfg) (hb : t.buf = Memory.write s.buf s.fifoWptr b) (hp : t.fifoPtr = s.fifoPtr)
      (hl : t.fifoLen = s.fifoLen + 1)
  | pop (hi : i = .fifoRead ∨ i = .evI2cTxe) (he : s.fifoEmpty = false) (hc : t.cfg = s.cfg) (hb : t.buf = s.buf)
      (hp : t.fifoPtr = s.nextPtr) (hl : t.fifoLen = s.fifoLen - 1)

theorem Done.fifo {i : Instr} {s t : State} (h : Done s i t) : FifoEffect i s t := by
  cases h with
  | write ha hf hw => exact .push _ rfl hf hw rfl rfl rfl rfl
  | read ha he hp =>
    obtain ⟨-, -, rfl⟩ := State.pop_some hp
    exact .pop (.inl rfl) he rfl rfl rfl rfl
  | byteReady hd hp hr ht =>
    rcases ht.fifo with h | ⟨he, h⟩
    · rw [h]
      exact .same rfl rfl rfl rfl
    · rw [h]
      exact .pop (.inr rfl) he rfl rfl rfl rfl
  | _ => exact .same rfl rfl rfl rfl

end Sys2Proof.Machine
end

