-- ==== Sys2Proof/Laws/Steps.lean ====
section
/-! SUPPORT. From instructions to steps: the state a step starts in, what moving a context on changes, where exec
stops, and the one case analysis by which a relation between the states before and after is shown for every step. -/

namespace Sys2Proof.Machine

/-- A step takes one choice from the state it starts in. -/
theorem step_choice {s t : State} (h : step s = .next t) : ∃ c rest, stepChoice c (s.begin rest) = .next t := by
  unfold step at h
  split at h
  · cases h
  · exact ⟨_, _, h⟩

/-- Moving a context on changes its place alone. -/
theorem State.advance_eq (t : State) (it : Item) :
    t.advance it = { t with running := { t.running with place := (t.advance it).running.place } } := by
  unfold State.advance
  split <;> rfl

/-- EV.I2C_TXE's frame. -/
theorem TxeDone.frame {s t : State} (h : TxeDone s t) :
    t = { s with
      disp := t.disp
      dispArmed := t.dispArmed
      fifoPtr := t.fifoPtr
      fifoLen := t.fifoLen
      i2cPhase := t.i2cPhase
      trace := t.trace } := by
  rcases h.fifo with h | ⟨-, h⟩ <;> rw [h]

/-- What no completed instruction touches: the parameters, the ceilings, the frames below the running one, its place,
whether the idle context is done, and the fault record. -/
theorem Done.keeps {i : Instr} {s t : State} (h : Done s i t) :
    t.cfg = s.cfg ∧ t.ceilDisp = s.ceilDisp ∧ t.ceilSens = s.ceilSens ∧ t.preempted = s.preempted ∧
      t.running.place = s.running.place ∧ t.idleDone = s.idleDone ∧ t.halted = s.halted ∧ t.faultCode = s.faultCode ∧
      t.faultWord = s.faultWord ∧ t.faultCtx = s.faultCtx := by
  cases h with
  | read ha he hp =>
    obtain ⟨-, -, rfl⟩ := State.pop_some hp
    exact ⟨rfl, rfl, rfl, rfl, rfl, rfl, rfl, rfl, rfl, rfl⟩
  | byteReady hd hp hr ht =>
    rw [ht.frame]
    exact ⟨rfl, rfl, rfl, rfl, rfl, rfl, rfl, rfl, rfl, rfl⟩
  | _ => exact ⟨rfl, rfl, rfl, rfl, rfl, rfl, rfl, rfl, rfl, rfl⟩

/-- A relation that a fault or a response alone keeps, and that does not read a context's place, holds of every step if
it holds of every completed instruction, of a handler's entry and end, of the idle context's end, and of the bus
agents' steps. -/
theorem stepChoice_rel {R : State → State → Prop} {c : Choice} {s t : State}
    (record : ∀ t : State, t = { s with
      rsp := t.rsp, faultCode := t.faultCode, faultWord := t.faultWord, faultCtx := t.faultCtx, halted := t.halted } →
      R s t)
    (place : ∀ t p, R s t → R s { t with running := { t.running with place := p } })
    (done : ∀ i u, Runs c s i → s.halted = false → Done s i u → R s u)
    (enter : ∀ k e, c = .enter k → s.cfg.swEntry k = some e → s.canDeliver (.sw k) = true →
      R s { s with
        pending := s.pending &&& ~~~(pendingBit k)
        running := { ctx := k, base := e.prio, cur := e.prio, claims := [], place := placeAtStart e.program }
        preempted := s.running :: s.preempted })
    (ends : ∀ f rest, s.halted = false → s.running.claims = [] → s.running.ctx ≠ 0 → s.preempted = f :: rest →
      R s { s with running := f, preempted := rest })
    (idle : R s { s with idleDone := true })
    (byteOut : s.i2cPhase = .txBusy → R s { s with i2cPhase := .txReady })
    (loseTxe : s.i2cPhase = .txReady → s.dispArmed = true → R s s.disarm)
    (loseSb : s.i2cPhase = .sbPending → R s { s with i2cPhase := .stalled })
    (loseSpi : s.spiBusy = true → R s { s with spiBusy := false })
    (h : stepChoice c s = .next t) : R s t := by
  have ex : ∀ i u, Runs c s i → exec i s = .next u → R s u := by
    intro i u hr hu
    rcases exec_next hu with ⟨hh, hp⟩ | ⟨hh, hp⟩ | ⟨hh, hp, hc⟩ | ⟨hh, hp, hc⟩ | ⟨hh, hd⟩
    · exact record _ rfl
    · exact record _ rfl
    · exact record _ rfl
    · exact record _ rfl
    · exact done i u hr hh hd
  cases stepChoice_next h with
  | event hc hd hx => exact ex _ _ (.inl ⟨_, hc, hd⟩) hx
  | illegalEvent => exact record _ rfl
  | ignoredEvent => exact record _ rfl
  | enter hc he hd => exact enter _ _ hc he hd
  | command hc hf hi hd hx =>
    rw [State.advance_eq]
    exact place _ _ (ex _ _ (.inr ⟨_, hc, hi, hd⟩) hx)
  | illegalCommand =>
    rw [State.advance_eq]
    exact place _ _ (record _ rfl)
  | answeredCommand =>
    rw [State.advance_eq]
    exact place _ _ (record _ rfl)
  | leak => exact record _ rfl
  | handlerEnds hc hf hi hh hl hx hp => exact ends _ _ hh hl hx hp
  | idleEnds => exact idle
  | byteOut hc hh hp => exact byteOut hp
  | loseTxe hc hh hp hr => exact loseTxe hp hr
  | loseSb hc hh hp => exact loseSb hp
  | loseSpi hc hh hp => exact loseSpi hp

/-- exec stops only where a slot of BUF does not exist (R14): never under FifoInv. -/
theorem exec_fault {i : Instr} {s : State} {f : Fault} (h : exec i s = .fault f) :
    ¬ (s.fifoPtr.toNat < s.cfg.cap ∧ 0 < s.cfg.cap) := by
  rintro ⟨h1, h2⟩
  cases i with
  | csrRead c =>
    simp only [exec, execCsrRead] at h
    split_ifs at h
    obtain ⟨-, ha⟩ := runCommand_fault h
    obtain ⟨-, ha⟩ := Attempt.unless_stop ha
    cases ha
  | resClassify =>
    simp only [exec, execResClassify] at h
    cases (runCommand_fault h).2
  | resCont a b =>
    have := (runCommand_fault h).2
    cases a <;> cases this
  | fifoWrite b =>
    obtain ⟨-, ha⟩ := Attempt.unless_stop (runCommand_fault h).2
    rw [State.push_of_pos h2] at ha
    split_ifs at ha
    cases ha
  | fifoRead =>
    obtain ⟨-, ha⟩ := Attempt.unless_stop (runCommand_fault h).2
    rw [State.pop_of_low h1] at ha
    split_ifs at ha
    cases ha
  | fifoPeek =>
    obtain ⟨-, ha⟩ := Attempt.unless_stop (runCommand_fault h).2
    rw [State.head_of_low h1] at ha
    split_ifs at ha
    cases ha
  | fifoLen => cases (Attempt.unless_stop (runCommand_fault h).2).2
  | fifoIsempty => cases (Attempt.unless_stop (runCommand_fault h).2).2
  | arbClaim => have := (runCommand_fault h).2; split at this <;> first | cases this | (split at this <;> cases this)
  | arbRelease => have := (runCommand_fault h).2; split at this <;> cases this
  | dispKick => have := (Attempt.unless_stop (runCommand_fault h).2).2; split at this <;> cases this
  | dispWaitdrain => have := (runCommand_fault (exec_waitdrain h (by simp))).2; split at this <;> cases this
  | sensStartRead => have := (Attempt.unless_stop (runCommand_fault h).2).2; split at this <;> cases this
  | sensStartWrite => have := (Attempt.unless_stop (runCommand_fault h).2).2; split at this <;> cases this
  | evI2cSb => cases (Attempt.unless_stop (runEvent_fault h).2.2).2
  | evI2cTxe =>
    have := (Attempt.unless_stop (runEvent_fault h).2.2).2
    have il : idleLogic s ≠ .stop f := by
      intro h; unfold idleLogic at h; rw [State.pop_of_low h1] at h
      split_ifs at h
      rw [withSlot_some] at h
      split_ifs at h
    unfold txeByState at this
    split at this
    · cases this
    · exact il this
    · unfold txeControl at this; split_ifs at this; exact il this
    · unfold txeControl2 at this; rw [State.pop_of_low h1] at this; split_ifs at this; cases this
    · split_ifs at this
      · unfold txeDataEnd restart at this; rw [State.pop_of_low h1] at this
        split_ifs at this
        rw [withSlot_some] at this
        split_ifs at this
      · unfold txeData at this; rw [State.pop_of_low h1] at this; split_ifs at this; cases this
  | evI2cErr => have := (Attempt.unless_stop (runEvent_fault h).2.2).2; split at this <;> cases this
  | evSpiRx => have := (Attempt.unless_stop (runEvent_fault h).2.2).2; split at this <;> cases this
  | evSpiRxfail => have := (Attempt.unless_stop (runEvent_fault h).2.2).2; split at this <;> first | cases this | (split at this <;> cases this)
  | evSwTrigger => have := (runEvent_fault h).2.2; split at this <;> cases this
end Sys2Proof.Machine
end

