-- ==== Sys2Proof/Tests/Slice0.lean ====
section
/-! SUPPORT. The model's own tests: the smoke test of the well-formedness checks, words written out from the encodings
of R106, R107 and R120, one or two single steps per instruction with the results of 95_test_vectors.md, and for every
statement with hypotheses a witness that meets them. -/

namespace Sys2Proof.Tests

open Sys2Proof.Machine

/-! ### Well-formed instructions: each check refuses an ill-formed term -/

theorem test_wf_refuses_i2c_kind_none : (Instr.evI2cErr .none).wf = false := by decide

theorem test_wf_refuses_spi_kind_none : (Instr.evSpiRxfail .none).wf = false := by decide

theorem test_wf_refuses_trigger_ids : [0, 13, 14, 15].all (fun k => !(Instr.evSwTrigger k).wf) = true := by decide

theorem test_wf_accepts_boundaries :
    [Instr.evI2cErr .timeout, .evI2cErr .busError, .evSwTrigger 1, .evSwTrigger 12].all Instr.wf = true := by decide

/-- The parameter constraints of R9: each refuses a set that breaks it alone. -/
theorem test_config_refused :
    [{ Config.test with cap := 0 }, { Config.test with cap := 65536 }, { Config.test with nprio := 1 },
      { Config.test with nprio := 257 }, { Config.test with prioI2c := 0 }, { Config.test with prioI2c := 4 },
      { Config.test with prioSpi := 0 }, { Config.test with nestMax := 0 }, { Config.test with ctrlPrefix := 0x40 }].all
      (fun c => !c.wf) = true ∧
    [{ Config.test with swCtx := [⟨13, 1, []⟩] }, { Config.test with swCtx := [⟨1, 4, []⟩] },
      { Config.test with swCtx := [⟨1, 1, []⟩, ⟨1, 2, []⟩] }].all (fun c : Config => !c.wf) = true ∧
    Config.test.wf = true := by decide

/-! ### Decoding: words written out from the tables, one for every constructor -/

theorem test_decode_fifo :
    decode .command 0b00000000_00000000_00000000_01010101#32 = .ok (.fifoWrite 0x55) ∧
    decode .command 0b00000001_00000000_00000000_00000000#32 = .ok .fifoRead ∧
    decode .command 0b00000010_00000000_00000000_00000000#32 = .ok .fifoPeek ∧
    decode .command 0b00000011_00000000_00000000_00000000#32 = .ok .fifoLen ∧
    decode .command 0b00000100_00000000_00000000_00000000#32 = .ok .fifoIsempty := by decide

theorem test_decode_arb :
    decode .command 0b00010000_00000000_00000000_00000000#32 = .ok (.arbClaim .disp) ∧
    decode .command 0b00010000_00000000_00000000_00000001#32 = .ok (.arbClaim .sens) ∧
    decode .command 0b00010001_00000000_00000000_00000000#32 = .ok .arbRelease := by decide

theorem test_decode_disp :
    decode .command 0b00100000_00000000_00000000_00000000#32 = .ok .dispKick ∧
    decode .command 0b00100001_00000000_00000000_00000000#32 = .ok .dispWaitdrain := by decide

/-- A is the register and B the value (R106, R112). -/
theorem test_decode_sens :
    decode .command 0b00110000_00000000_00000000_00000010#32 = .ok (.sensStartRead 0x02) ∧
    decode .command 0b00110001_00000000_11010001_10000000#32 = .ok (.sensStartWrite 0x80 0xD1) := by decide

/-- A is the prior result and B the next step's (R106). -/
theorem test_decode_res :
    decode .command 0b01000000_00000000_00000001_00000110#32 = .ok (.resClassify 0b00110 true) ∧
    decode .command 0b01000001_00000000_00010001_00000000#32 = .ok (.resCont .ok (.error .timeout)) ∧
    decode .command 0b01000001_00000000_00000001_00010101#32 = .ok (.resCont (.error .busError) .busy) := by decide

/-- Every CSR number of R59, in the order of its map, and the numbers beside its groups. -/
theorem test_decode_csr :
    decode .command 0b01010000_00000000_00000000_00011000#32 = .ok (.csrRead .sensState) ∧
    [0x00, 0x01, 0x02, 0x03, 0x08, 0x09, 0x0A, 0x0B, 0x0C, 0x10, 0x11, 0x18, 0x19, 0x1A, 0x20, 0x21].map Csr.ofNumber
      = Csr.all.map some ∧
    [0x04, 0x07, 0x0D, 0x0F, 0x12, 0x17, 0x1B, 0x1F, 0x22, 0xFF].all (fun n => (Csr.ofNumber n).isNone) = true := by
  decide

theorem test_decode_events :
    decode .event 0b11110000_00000000_00000000_00000000#32 = .ok .evI2cSb ∧
    decode .event 0b11110001_00000000_00000000_00000000#32 = .ok .evI2cTxe ∧
    decode .event 0b11110010_00000000_00000000_00000010#32 = .ok (.evI2cErr .acknowledgeFailure) ∧
    decode .event 0b11111000_00000000_00000000_01011010#32 = .ok (.evSpiRx 0x5A) ∧
    decode .event 0b11111001_00000000_00000000_00000100#32 = .ok (.evSpiRxfail .overrunUnderrun) ∧
    decode .event 0b11111100_00000000_00000000_00000001#32 = .ok (.evSwTrigger 1) := by decide

/-- The illegal command words of 95_test_vectors.md 2.1. -/
theorem test_illegal_commands :
    ([0x60000000, 0xE0000000, 0x05000000, 0x01000001, 0x00010055, 0x00000155, 0x10000002]
      ++ [0x40000020, 0x40000200, 0x41000002, 0x41001600, 0x50000004, 0xF1000000]).all
      (fun w => (decode .command w).toOption.isNone) = true := by decide

/-- The illegal event words there; an id that is not in SW_CTX is refused by the event's meaning. -/
theorem test_illegal_events :
    [0x20000000, 0xF2000000, 0xF2000006, 0xF9000007, 0xFC000000, 0xF3000000].all
      (fun w => (decode .event w).toOption.isNone) = true := by decide

/-- At most one row matches a word (R109): two rows of a port differ in a bit both masks cover. -/
theorem test_rows_disjoint :
    opcodeTable.Pairwise (fun r r' => r.port ≠ r'.port ∨ (r.mask &&& r'.mask) &&& (r.pattern ^^^ r'.pattern) ≠ 0) := by
  decide

/-- R74: the least significant byte first. -/
theorem test_bytes_little_endian :
    Word.bytes 0x3100D180 = [0x80, 0xD1, 0x00, 0x31] ∧
    decodeTableWord 32 0x3100D180 = some (.sensStartWrite 0x80 0xD1) ∧ decodeTableWord 32 0xF2000000 = none := by decide

/-! ### States to step from -/

/-- The next state, if there is one. -/
def nextOf : Result → Option State
  | .next t => some t
  | _ => none

/-- The refusal, if there is one. -/
def refusalOf : Result → Option Refusal
  | .refused r => some r
  | _ => none

/-- The idle context holding one R_DISP claim (95_test_vectors.md: idle+disp). -/
def idleDisp : State := { State.reset with running := { (Frame.idle []) with cur := 3, claims := [0] } }

/-- The idle context holding one R_SENS claim (idle+sens). -/
def idleSens : State := { State.reset with running := { (Frame.idle []) with cur := 2, claims := [0] } }

/-- A frame of software context 1 at priority p. -/
def swFrame (p : Prio) : Frame :=
  { ctx := 1, base := p, cur := p, claims := [], place := { code := [], pos := 0, vars := [] } }

/-- With capacity n. -/
def withCap (n : Nat) (s : State) : State := { s with cfg := { s.cfg with cap := n } }

/-- With these bytes queued from slot p on. -/
def queue (p : Nat) (bs : List Byte) (s : State) : State :=
  { s with
    buf := (bs.zipIdx).foldl (fun m x => Memory.write m ((p + x.2) % s.cfg.cap) x.1) s.buf
    fifoPtr := BitVec.ofNat 16 p
    fifoLen := BitVec.ofNat 16 bs.length }

/-- A channel whose byte-ready event may be delivered. -/
def txReady (d : DispState) (s : State) : State := { s with disp := d, dispArmed := true, i2cPhase := .txReady }

/-- A transfer with a byte outstanding. -/
def spiBusy (t : SensTag) (a : SensAction) (s : State) : State :=
  { s with sensTag := t, sensAction := a, spiBusy := true, spiSel := true }

/-! ### FIFO (95_test_vectors.md 2.2) -/

theorem test_fifo_write_wraps :
    (nextOf (exec (.fifoWrite 0x55) (queue 3 [0xAA, 0xBB] (withCap 4 idleDisp)))).map
      (fun t => (t.rsp, Memory.read t.buf 1, t.fifoPtr, t.fifoLen)) = some (some 0x00000001, 0x55, 3, 3) := by decide

theorem test_fifo_write_full :
    (nextOf (exec (.fifoWrite 0x7F) (queue 0 [0x7E] (withCap 1 idleDisp)))).map (fun t => (t.rsp, t.fifoList))
      = some (some 0, [0x7E]) := by decide

theorem test_fifo_read_wraps :
    (nextOf (exec .fifoRead (queue 3 [0xAA, 0xBB] (withCap 4 idleDisp)))).map (fun t => (t.rsp, t.fifoPtr, t.fifoLen))
      = some (some 0x000001AA, 0, 1) := by decide

theorem test_fifo_read_largest_cap :
    (nextOf (exec .fifoRead (queue 65534 [0x01] (withCap 65535 idleDisp)))).map (fun t => (t.rsp, t.fifoPtr))
      = some (some 0x00000101, 0) := by decide

theorem test_fifo_peek :
    (nextOf (exec .fifoPeek (queue 2 [0x03] (withCap 4 idleDisp)))).map (fun t => (t.rsp, t.fifoPtr, t.fifoLen))
      = some (some 0x00000103, 2, 1) := by decide

theorem test_fifo_len_top :
    (nextOf (exec .fifoLen { withCap 65535 idleDisp with fifoLen := 65535 })).map State.rsp
      = some (some 0x0000FFFF) := by decide

theorem test_fifo_isempty :
    (nextOf (exec .fifoIsempty idleDisp)).map State.rsp = some (some 1) ∧
    (nextOf (exec .fifoIsempty (queue 5 [1, 2, 3] idleDisp))).map State.rsp = some (some 0) := by decide

/-- F16: the R_SENS claim does not cover R_DISP. -/
theorem test_fifo_write_unclaimed :
    (nextOf (exec (.fifoWrite 0x01) idleSens)).map (fun t => (t.rsp, t.faultWord, t.fifoLen))
      = some (some 0x80000008, 0x00000001, 0) := by decide

/-! ### ARB (2.3) -/

theorem test_claim_nested_keeps_priority :
    (nextOf (exec (.arbClaim .sens) idleDisp)).map (fun t => (t.rsp, t.running.cur, t.running.claims))
      = some (some 3, 3, [0, 3]) := by decide

theorem test_claim_above_ceiling :
    (nextOf (exec (.arbClaim .sens) { State.reset with running := swFrame 3 })).map (fun t => (t.rsp, t.faultCtx))
      = some (some 0x80000007, 1) := by decide

theorem test_release_restores :
    (nextOf (exec .arbRelease { idleDisp with running := { idleDisp.running with claims := [0, 2] } })).map
      (fun t => (t.rsp, t.running.cur, t.running.claims)) = some (some 2, 2, [0]) := by decide

theorem test_release_empty :
    (nextOf (exec .arbRelease State.reset)).map (fun t => (t.rsp, t.halted)) = some (some 0x80000005, true) := by decide

/-! ### DISP (2.4, 2.5) -/

theorem test_kick_from_stopped :
    (nextOf (exec .dispKick idleDisp)).map (fun t => (t.rsp, t.disp, t.i2cPhase, t.trace))
      = some (some 1, .idle, .sbPending, [.i2cStart]) := by decide

theorem test_kick_rearms :
    (nextOf (exec .dispKick { txReady .idle idleDisp with dispArmed := false })).map
      (fun t => (t.rsp, t.disp, t.dispArmed, t.trace)) = some (some 0, .idle, true, []) := by decide

/-- D7 and D8: 2 × 3 < 7 completes, 2 × 4 ≥ 7 waits. -/
theorem test_waitdrain_odd_cap :
    (nextOf (exec .dispWaitdrain (queue 0 [1, 2, 3] (withCap 7 State.reset)))).map State.rsp = some (some 3) ∧
    nextOf (exec .dispWaitdrain (queue 0 [1, 2, 3, 4] (withCap 7 State.reset))) = none := by decide

theorem test_waitdrain_inside_claim :
    (nextOf (exec .dispWaitdrain idleDisp)).map (fun t => (t.rsp, t.faultWord)) = some (some 0x8000000B, 0x21000000) := by
  decide

theorem test_address_needed :
    (nextOf (exec .evI2cSb { State.reset with i2cPhase := .sbPending })).map (fun t => (t.trace, t.i2cPhase))
      = some ([.i2cWrite 0x78], .txBusy) := by decide

/-- V4. -/
theorem test_byte_ready_control_header :
    (nextOf (exec .evI2cTxe (txReady .idle (queue 0 [0x82, 0x20, 0x00] State.reset)))).map
      (fun t => (t.trace, t.disp, t.fifoList)) = some ([.i2cWrite 0x80], .control2 2, [0x20, 0x00]) := by decide

/-- V15: the fold. -/
theorem test_byte_ready_fold :
    (nextOf (exec .evI2cTxe (txReady (.data 0) (queue 6 [0x02, 0xAA, 0xBB] State.reset)))).map
      (fun t => (t.trace, t.disp, t.fifoList, t.i2cPhase)) = some ([], .data 2, [0xAA, 0xBB], .txReady) := by decide

/-- V20: ERR_RECOVERY = TO_STOPPED. -/
theorem test_i2c_error_to_stopped :
    (nextOf (exec (.evI2cErr .timeout)
      { txReady (.data 2) State.reset with cfg := { Config.test with errRecovery := .toStopped } })).map
      (fun t => (t.disp, t.dispArmed, t.dispLastErr, t.i2cPhase)) = some (.stopped, false, .timeout, .stalled) := by decide

/-- B11: a word whose condition does not hold is refused. -/
theorem test_byte_ready_refused : refusalOf (exec .evI2cTxe State.reset) = some .eventNotDeliverable := by decide

/-! ### SENS (2.6) -/

theorem test_start_read :
    (nextOf (exec (.sensStartRead 0x02) idleSens)).map (fun t => (t.rsp, t.sensTag, t.trace))
      = some (some 0, .readFirst, [.spiSelect, .spiWrite 0x02]) := by decide

/-- A11: the ceiling check comes before F_SENS_BUSY. -/
theorem test_start_read_check_order :
    (nextOf (exec (.sensStartRead 0x02) (spiBusy .readFirst .read { State.reset with running := swFrame 3 }))).map State.rsp
      = some (some 0x80000007) := by decide

theorem test_start_write :
    (nextOf (exec (.sensStartWrite 0x80 0xD1) { idleSens with sensTag := .finished })).map
      (fun t => (t.sensAction, t.trace)) = some (.write 0xD1, [.spiSelect, .spiWrite 0x80]) := by decide

theorem test_start_write_busy :
    (nextOf (exec (.sensStartWrite 0x01 0x02) { idleSens with sensTag := .readSecond })).map
      (fun t => (t.rsp, t.sensTag)) = some (some 0x80000004, .readSecond) := by decide

/-- S7: the value is the second byte sent. -/
theorem test_spi_rx_phase_one :
    (nextOf (exec (.evSpiRx 0xFF) (spiBusy .readFirst (.write 0xD1) State.reset))).map
      (fun t => (t.sensTag, t.trace, t.spiBusy)) = some (.readSecond, [.spiWrite 0xD1], true) := by decide

theorem test_spi_rx_phase_two :
    (nextOf (exec (.evSpiRx 0x5A) (spiBusy .readSecond .read State.reset))).map
      (fun t => (t.sensTag, t.sensResult, t.spiSel, t.spiBusy)) = some (.finished, 0x5A, false, false) := by decide

theorem test_spi_rxfail_logged :
    (nextOf (exec (.evSpiRxfail .overrunUnderrun) (spiBusy .readSecond .read State.reset))).map
      (fun t => (t.sensLastErr, t.sensTag, t.spiSel, t.spiBusy)) = some (.overrunUnderrun, .readSecond, true, false) := by
  decide

/-- S11: a trapped failure undoes the delivery's write of SPI_BUSY. -/
theorem test_spi_rxfail_trapped :
    (nextOf (exec (.evSpiRxfail .timeout)
      { spiBusy .readFirst .read State.reset with cfg := { Config.test with rxFailPolicy := .trap } })).map
      (fun t => (t.faultCode.code, t.faultCtx, t.spiBusy)) = some (0x0C, 0xF, true) := by decide

/-! ### RES (E2, E7), CSR (2.8) and the trigger (2.10) -/

theorem test_classify :
    ([(0x00, false), (0x00, true), (0x1F, true), (0x1E, false), (0x1C, false), (0x18, true), (0x10, true)].map
      fun p => (nextOf (exec (.resClassify p.1 p.2) State.reset)).bind State.rsp)
      = [0x01, 0x00, 0x11, 0x12, 0x13, 0x14, 0x15].map some := by decide

theorem test_cont :
    ([(.error .timeout, .ok), (.error .busError, .busy), (.ok, .busy), (.ok, .ok), (.busy, .error .busError),
      (.error .none, .ok)].map fun p => (nextOf (exec (.resCont p.1 p.2) State.reset)).bind State.rsp)
      = [0x011, 0x015, 0x101, 0x100, 0x001, 0x010].map some := by decide

theorem test_csr_sens_state :
    (nextOf (exec (.csrRead .sensState) { idleSens with sensTag := .finished, sensAction := .write 0xD1 })).map State.rsp
      = some (some 0x00D10105) := by decide

/-- H5 and H3: the fault record, and a row of R_DISP read on a halted block with no claim. -/
theorem test_csr_halted :
    ([Csr.fault, .fifoLen].map fun c =>
      (nextOf (exec (.csrRead c) (eventFault (queue 0 [1] State.reset) .dispCtrl2Zero 0xF1000000 0xE))).bind State.rsp)
      = [some 0x0000E102, some 1] := by decide

theorem test_trigger_sets_bit :
    (nextOf (exec (.evSwTrigger 1) State.reset)).map State.pending = some 0x0002 := by decide

theorem test_trigger_unknown_id :
    (nextOf (exec (.evSwTrigger 2) State.reset)).map (fun t => (t.faultCode.code, t.faultCtx, t.faultWord))
      = some (0x0A, 0xD, 0xFC000002) := by decide

/-! ### Steps around the instructions -/

/-- N2: the entry of software handler 1. -/
theorem test_handler_entry :
    (nextOf (step { State.reset with pending := 2, schedule := [.enter 1] })).map
      (fun t => (t.running, t.preempted, t.pending)) = some (swFrame 1, [Frame.idle []], 0) := by decide

/-- H6: a software handler that ends with a claim. -/
theorem test_claim_leak :
    (nextOf (step { State.reset with
      running := { swFrame 1 with cur := 3, claims := [1] }, preempted := [Frame.idle []], schedule := [.context] })).map
      (csrValue .fault) = some 0x00001109 := by decide

/-- M4: a forced delivery goes before the idle context's next command. -/
theorem test_forced_first :
    refusalOf (step { State.reset with
      running := Frame.idle [command .fifoLen], pending := 2, schedule := [.context] }) = some .deliveryForced := by decide

/-- `put`'s loop goes back to its claim on a rejected write and on past its release on an accepted one (R113, R114). -/
theorem test_put_retries :
    (placeAfter { word := 0x11000000, bind := none, loops := [⟨.field nameW 0 0 1, 2⟩] } 0
      { code := put 0x20, pos := 2, vars := [(nameW, 0)] }).pos = 0 ∧
    (placeAfter { word := 0x11000000, bind := none, loops := [⟨.field nameW 0 0 1, 2⟩] } 0
      { code := put 0x20, pos := 2, vars := [(nameW, 1)] }).pos = 3 ∧
    (put 0x20).map Item.word = [0x10000000, 0x00000020, 0x11000000] ∧
    ((put 0x20).getLast?.map Item.loops) = some [⟨.field nameW 0 0 1, 2⟩] := by decide

/-- The wait loop that R368 advises goes on while the transfer is in ReadFirst without an error, ends in Finished, and gives
up on a recorded failure. -/
theorem test_wait_gives_up :
    ((sensPollOrFail 9).getLast?.map fun it =>
      [[(nameS, (1 : Word)), (9, 0)], [(nameS, 0x105), (9, 0)], [(nameS, 1), (9, 4)]].map fun vars =>
        (placeAfter it 0 { code := [], pos := 3, vars := vars }).pos) = some [0, 4, 4] := by decide

/-- The phases' codes (R53). -/
theorem test_phase_codes :
    [I2cPhase.idle, .sbPending, .txBusy, .txReady, .stalled].map I2cPhase.code = [0, 1, 2, 3, 4] := by decide

/-- `disp.write_cmd 0x20, 0x00` (95_test_vectors.md P2, items 1 to 4); no byte expands to nothing, 128 bytes are refused. -/
theorem test_write_cmd_expands :
    (dispWriteCmd [0x20, 0x00]).map (fun p => p.map Item.word)
      = some ([0x10000000, 0x00000082, 0x11000000] ++ [0x10000000, 0x00000020, 0x11000000]
        ++ [0x10000000, 0x00000000, 0x11000000] ++ [0x10000000, 0x20000000, 0x11000000]) ∧
    dispWriteCmd [] = some [] := by decide

theorem test_write_data_too_long : dispWriteData (List.replicate 128 0) = none := by
  simp [dispWriteData, writePacket]

/-- State.reset is the reset state of the test configuration with every draw 0. -/
theorem test_reset_is_an_instance : State.resetWith Config.test ⟨[], [], 0, []⟩ = some State.reset := by decide

/-- Every row's instruction runs as the first one after reset, once its word is put where the next step takes it. -/
theorem test_fetch_fifo :
    [0x00000055, 0x01000000, 0x02000000, 0x03000000, 0x04000000].all
      (fun w => (nextOf (step (State.reset.withFetchWord 32 w))).isSome) = true := by decide

theorem test_fetch_arb_disp :
    [0x10000001, 0x11000000, 0x20000000, 0x21000000].all
      (fun w => (nextOf (step (State.reset.withFetchWord 32 w))).isSome) = true := by decide

theorem test_fetch_sens_res_csr :
    [0x30000002, 0x3100D180, 0x40000106, 0x41001100, 0x50000018].all
      (fun w => (nextOf (step (State.reset.withFetchWord 32 w))).isSome) = true := by decide

theorem test_fetch_events :
    [0xF0000000, 0xF1000000, 0xF2000002, 0xF800005A, 0xF9000004, 0xFC000001].all
      (fun w => (nextOf (step (State.reset.withFetchWord 32 w))).isSome) = true := by decide

/-! ### Witnesses: for every statement with hypotheses, states and operands that meet them all, at the edges of each clause -/

theorem wit_decode_inverts :
    [Instr.evI2cErr .timeout, .evSpiRxfail .busError, .evSwTrigger 1, .evSwTrigger 12, .resCont .busy (.error .none),
      .sensStartWrite 0xFF 0x00].all Instr.wf = true := by decide

theorem wit_encode_back : decode .event 0xFC00000C = .ok (.evSwTrigger 12) ∧ decode .command 0x000000FF = .ok (.fifoWrite 0xFF) := by
  decide

/-- A legal word of each row that has a value check, at an edge of the check. -/
theorem wit_legal_words :
    Config.test.wf = true ∧
    [("RES.CONT", Port.command, (0x41001510 : Word)), ("CSR.READ", .command, 0x50000021), ("EV.I2C_ERR", .event, 0xF2000005),
      ("EV.SPI_RXFAIL", .event, 0xF9000001), ("EV.SW_TRIGGER", .event, 0xFC000001)].all (fun x =>
        opcodeTable.any fun r => r.mnemonic == x.1 && r.port == x.2.1 && x.2.2 &&& r.mask == r.pattern) = true ∧
    RowCheck Config.test ⟨"RES.CONT", .command, 0x41000000, 0xFFFF0000⟩ 0x41001510 ∧
    RowCheck Config.test ⟨"CSR.READ", .command, 0x50000000, 0xFFFFFF00⟩ 0x50000021 ∧
    RowCheck Config.test ⟨"EV.SW_TRIGGER", .event, 0xFC000000, 0xFFFFFFF0⟩ 0xFC000001 :=
  ⟨by decide, by decide, ⟨by decide, by decide, by decide, by decide⟩, ⟨by decide, by decide, by decide, by decide⟩,
    by decide, by decide, by decide, by decide⟩

theorem illegal_of_no_row (c : Config) (p : Port) (w : Word)
    (h : opcodeTable.all (fun r => !(r.port == p && w &&& r.mask == r.pattern)) = true) : Illegal c p w := by
  rintro ⟨r, hr, ⟨hp, hw⟩, -⟩
  simpa [hp, hw] using List.all_eq_true.mp h r hr

theorem wit_illegal_words :
    State.reset.halted = false ∧ State.reset.cfg.wf = true ∧
    (0x60000000 : Word).unit.toNat = 0x6 ∧ (0xE0000000 : Word).unit.toNat = 0xE ∧
    Illegal State.reset.cfg .command 0xF1000000 ∧ Illegal State.reset.cfg .event 0x20000000 ∧
    ¬ Illegal State.reset.cfg .command 0x00000055 ∧ ¬ Illegal State.reset.cfg .event 0xFC000001 :=
  ⟨by decide, by decide, by decide, by decide, illegal_of_no_row _ _ _ (by decide), illegal_of_no_row _ _ _ (by decide),
    fun h => h ⟨⟨"FIFO.WRITE", .command, 0x00000000, 0xFFFFFF00⟩, by decide, ⟨rfl, by decide⟩,
      by decide, by decide, by decide, by decide⟩,
    fun h => h ⟨⟨"EV.SW_TRIGGER", .event, 0xFC000000, 0xFFFFFFF0⟩, by decide, ⟨rfl, by decide⟩,
      by decide, by decide, by decide, by decide⟩⟩

/-- Id 2 is no row of this SW_CTX table, so its trigger word fails the value check of R107. -/
theorem wit_illegal_trigger : Illegal State.reset.cfg .event 0xFC000002 := by
  rintro ⟨r, hr, ⟨hp, hw⟩, hk⟩
  have h := List.all_eq_true.mp (by decide : opcodeTable.all (fun r =>
    !(r.port == .event && (0xFC000002 : Word) &&& r.mask == r.pattern) || r.mnemonic == "EV.SW_TRIGGER") = true) r hr
  simp only [hp, hw, beq_self_eq_true, Bool.and_self, Bool.not_true, Bool.false_or, beq_iff_eq] at h
  exact absurd (hk.2.2.2 h) (by decide)

/-- The handlers of a state with nothing pending and the bus quiet force nothing. -/
theorem nothingForced_of (s : State) (hp : s.pending = 0) (hi : s.ready .i2c = false) : NothingForced s := by
  intro h _ hr
  cases h with
  | i2c => rw [hi] at hr; cases hr
  | spi => cases hr
  | sw k => simp [State.ready, State.isPending, hp] at hr

/-- The turn of a bus handler in a state with nothing pending. -/
theorem turn_of (s : State) (p : Prio) (hh : s.halted = false) (hp : s.pending = 0) (hc : s.running.cur < p)
    (hi : s.ready .i2c = false ∨ s.cfg.prioI2c ≤ p) : Turn s p := by
  refine ⟨hh, hc, fun h => ?_, fun k e _ hk => ?_⟩
  · rcases hi with hi | hi
    · exfalso
      revert hi
      simp only [State.ready]
      rcases h with h | h <;> simp [h]
    · exact hi
  · simp [State.isPending, hp] at hk

theorem wit_step_event :
    ({ State.reset with schedule := [.event 0xFC000001] }).schedule = Choice.event 0xFC000001 :: [] ∧
    decode .event 0xFC000001 = .ok (.evSwTrigger 1) ∧ decode .event 0x20000000 = .error .wrongPort := by decide

/-- An item of the idle context whose command gives a response. -/
def atItem (w : Word) (s : State) : State :=
  { s with running := { s.running with place := { code := [⟨w, none, []⟩], pos := 0, vars := [] } }, schedule := [.context] }

theorem wit_step_command :
    let s := atItem 0x03000000 idleDisp
    let t : State := { s with schedule := [], rsp := none }
    s.schedule = Choice.context :: [] ∧ NothingForced t ∧ ¬ (t.running.ctx = 0 ∧ t.idleDone = true) ∧
      t.running.place.code[t.running.place.pos]? = some ⟨0x03000000, none, []⟩ ∧
      decode .command 0x03000000 = .ok .fifoLen ∧
      ∃ u v, exec .fifoLen t = .next u ∧ u.rsp = some v :=
  ⟨rfl, nothingForced_of _ rfl rfl, by decide, rfl, by decide, _, _, rfl, rfl⟩

/-- The clause of a command that has no step, and the clause of a stop (a cursor at CAP, which no run reaches). -/
theorem wit_step_command_others :
    exec .dispWaitdrain (queue 0 [1, 2, 3, 4] State.reset) = .refused .drainWaitIncomplete ∧
    (∃ f, exec .fifoPeek { queue 0 [1] idleDisp with fifoPtr := 8 } = .fault f) :=
  ⟨rfl, _, rfl⟩

/-- H5 (95_test_vectors.md): on the halted block the I2C handler stays ready above ARB_CUR, and the context still steps. -/
theorem wit_step_command_halted :
    let s := eventFault (atItem 0x03000000 (txReady (.control2 0) State.reset)) .dispCtrl2Zero 0xF1000000 0xE
    s.halted = true ∧ s.ready .i2c = true ∧ s.running.cur < s.cfg.prioI2c ∧
      ¬ (s.running.ctx = 0 ∧ s.idleDone = true) ∧ s.item = some ⟨0x03000000, none, []⟩ ∧
      (nextOf (step s)).map State.rsp = some (some 0x80000002) := by decide

/-- Illegal command words at the context's place: H4's csr.read 0x04, and a step that faults on it. -/
theorem wit_step_command_illegal :
    decode .command 0x50000004 = .error .valueCheck ∧
      (nextOf (step (atItem 0x50000004 State.reset))).map (fun t => (t.rsp, t.faultWord)) =
        some (some 0x8000000A, 0x50000004) := by decide

/-- An operand that fits its field is assembled whatever its row's value check (H4), one that does not fit is refused
(R112). -/
theorem test_assemble_operands :
    assemble "csr.read 0x04" = some 0x50000004 ∧ assemble "csr.read 256" = none ∧
    assemble "res.cont 2, 0" = some 0x41000002 ∧ assemble "ev.i2c_err 6" = some 0xF2000006 ∧
    assemble "ev.i2c_err 8" = none ∧ assemble "ev.spi_rxfail 0" = some 0xF9000000 ∧
    assemble "ev.sw_trigger 15" = some 0xFC00000F ∧ assemble "ev.sw_trigger 16" = none ∧
    assemble "fifo.write 256" = none := by decide

/-- Two loops that end with one item, which binds nothing, as R114's release does: the inner test holds on a name bound
before, the outer one fails; and a loop whose tests all hold. -/
theorem wit_places :
    let it : Item := { word := 0x11000000, bind := none, loops := [⟨.field 5 2 0 5, 1⟩] ++ ⟨.field 6 7 0 0, 2⟩ :: [] }
    let p : Place := { code := [], pos := 3, vars := [(5, 0x0D), (6, 0x01)] }
    (∀ m ∈ [(⟨.field 5 2 0 5, 1⟩ : LoopEnd)], testHolds (placeAfter it 7 p).vars m.test = true) ∧
      testHolds (placeAfter it 7 p).vars (.field 6 7 0 0) = false ∧ (placeAfter it 7 p).pos = 1 ∧
      (∀ l ∈ it.loops, testHolds (placeAfter it 7 { p with vars := [(5, 0x05), (6, 0x100)] }).vars l.test = true) ∧
      (0 : Nat) ≤ 2 ∧ p.vars.lookup 5 = some 0x0D := by decide

/-- N8: PRIO_I2C = PRIO_SPI, both handlers deliverable. -/
theorem wit_ties :
    let s : State := { spiBusy .readFirst .read (txReady .idle State.reset) with cfg := { Config.test with prioI2c := 2 } }
    s.halted = false ∧ s.avail .i2c = true ∧ s.avail .spi = true ∧ Handler.prio s.cfg .i2c = Handler.prio s.cfg .spi ∧
      s.canDeliver .i2c = true := by decide

theorem wit_not_halted : State.reset.halted = false := by decide

/-- AccessFaults, both clauses, for both resources; and AccessPasses at both of its edges. -/
theorem wit_access :
    (∀ r, State.ceil { State.reset with running := swFrame 200 } r < (swFrame 200).base) ∧
    (∀ r, State.reset.running.base ≤ State.reset.ceil r ∧ State.reset.running.cur < State.reset.ceil r) ∧
    AccessPasses .disp idleDisp ∧ AccessPasses .sens idleSens ∧ AccessPasses .sens idleDisp ∧
    AccessPasses .disp { State.reset with running := swFrame 3 } := by
  refine ⟨fun r => by cases r <;> decide, fun r => by cases r <;> decide, ?_⟩
  unfold AccessPasses
  decide

theorem wit_fifo_write :
    let full := queue 3 [1, 2, 3, 4] (withCap 4 idleDisp)
    let room := queue 3 [1, 2, 3] (withCap 4 idleDisp)
    AccessPasses .disp full ∧ full.fifoLen.toNat = full.cfg.cap ∧
      AccessPasses .disp room ∧ room.fifoLen.toNat ≠ room.cfg.cap ∧ 0 < room.cfg.cap := by
  unfold AccessPasses
  decide

theorem wit_fifo_read :
    let some1 := queue 3 [1] (withCap 4 idleDisp)
    AccessPasses .disp idleDisp ∧ idleDisp.fifoLen = 0 ∧
      AccessPasses .disp some1 ∧ some1.fifoLen ≠ 0 ∧ some1.fifoPtr.toNat < some1.cfg.cap := by
  unfold AccessPasses
  decide

/-- A queue of at most four bytes in a capacity of four meets the FIFO invariant. -/
theorem wit_fifo_inv (s : State) (hs : s = queue 3 [1, 2] (withCap 4 idleDisp) ∨ s = queue 3 [1, 2, 3, 4] (withCap 4 idleDisp)
    ∨ s = withCap 4 idleDisp) : FifoInv s := by
  rcases hs with rfl | rfl | rfl
  all_goals exact ⟨by decide, by decide, by decide, by decide, by decide, by decide⟩

/-- Room, full and empty: the premises of each clause of the bounded queue, the two next states among them. -/
theorem wit_bounded_queue :
    ∀ s, s = queue 3 [1, 2] (withCap 4 idleDisp) ∨ s = queue 3 [1, 2, 3, 4] (withCap 4 idleDisp) ∨ s = withCap 4 idleDisp →
      FifoInv s ∧ s.halted = false ∧ AccessPasses .disp s ∧ (∃ t, exec (.fifoWrite 9) s = .next t) ∧
        ∃ u, exec .fifoRead s = .next u := by
  intro s hs
  refine ⟨wit_fifo_inv s hs, ?_⟩
  rcases hs with rfl | rfl | rfl
  all_goals exact ⟨rfl, by unfold AccessPasses; decide, ⟨_, rfl⟩, _, rfl⟩

/-- A step that writes and one that reads, from a state that meets the FIFO invariant. -/
theorem wit_fifo_steps :
    (∃ t, stepChoice .context (atItem 0x00000009 (queue 3 [1, 2] (withCap 4 idleDisp))) = .next t ∧
      t.fifoList = [1, 2, 9]) ∧
    (∃ t, stepChoice .context (atItem 0x01000000 (queue 3 [1, 2] (withCap 4 idleDisp))) = .next t ∧ t.fifoList = [2]) ∧
    FifoInv (atItem 0x00000009 (queue 3 [1, 2] (withCap 4 idleDisp))) :=
  ⟨⟨_, rfl, by decide⟩, ⟨_, rfl, by decide⟩, by decide, by decide, by decide, by decide, by decide, by decide⟩

theorem wit_stores : FifoInv (queue 3 [1, 2] (withCap 4 idleDisp)) ∧
    ∃ t, exec (.fifoWrite 9) (queue 3 [1, 2] (withCap 4 idleDisp)) = .next t :=
  ⟨wit_fifo_inv _ (.inl rfl), _, rfl⟩

/-- Two states that differ in a vacant slot alone, and a step from one of them. -/
theorem wit_vacant :
    let s₁ := atItem 0x02000000 (queue 3 [1, 2] (withCap 4 idleDisp))
    let s₂ : State := { s₁ with buf := Memory.write s₁.buf 1 7 }
    FifoInv s₁ ∧ FifoInv s₂ ∧ SameButVacant s₁ s₂ ∧ s₁.buf ≠ s₂.buf ∧ ∃ t, stepChoice .context s₁ = .next t := by
  refine ⟨⟨by decide, by decide, by decide, by decide, by decide, by decide⟩,
    ⟨by decide, by decide, by decide, by decide, by decide, by decide⟩, ⟨rfl, by decide⟩, by decide, _, rfl⟩

theorem wit_claim :
    let above : State := { State.reset with running := swFrame 3 }
    let deep : State := { idleDisp with running := { idleDisp.running with claims := [0, 2] } }
    above.ceil .sens < above.running.base ∧
      deep.running.base ≤ deep.ceil .disp ∧ deep.running.claims.length = deep.cfg.nestMax ∧
      idleDisp.running.base ≤ idleDisp.ceil .disp ∧ idleDisp.running.claims.length ≠ idleDisp.cfg.nestMax := by decide

theorem wit_release : State.reset.running.claims = [] ∧ idleDisp.running.claims = [] ++ [0] := by decide

/-- The arbiter's invariant with a preempted claim: the idle context inside an R_SENS claim, a software handler of
priority 3 above it. -/
def preempting : State :=
  { State.reset with
    cfg := { Config.test with swCtx := [⟨1, 3, []⟩] }
    running := swFrame 3
    preempted := [idleSens.running] }

theorem wit_arb_inv : ArbInv preempting where
  cfgWf := by decide
  ceilDispIs := rfl
  ceilSensIs := rfl
  frameInv := by
    intro f hf
    simp only [preempting, List.mem_cons, List.not_mem_nil, or_false] at hf
    rcases hf with rfl | rfl
    · exact ⟨by decide, by decide, by decide⟩
    · exact ⟨by decide, by decide, by decide⟩
  stacked := ⟨⟨⟨1, 3, []⟩, by decide, rfl, rfl⟩, by decide, rfl, rfl⟩
  pendingIds := by decide

theorem wit_mutual_exclusion :
    ArbInv preempting ∧ preempting.running :: preempting.preempted = [swFrame 3] ++ idleSens.running :: [] ∧
      preempting.ceil .sens ≤ idleSens.running.cur :=
  ⟨wit_arb_inv, rfl, by decide⟩

theorem wit_kick : AccessPasses .disp idleDisp ∧ idleDisp.disp = .stopped ∧ AccessPasses .disp (txReady (.data 2) idleDisp) ∧
    (txReady (.data 2) idleDisp).disp ≠ .stopped := by
  unfold AccessPasses
  decide

/-- The drain wait's edges: 2 × 3 < 7, 7 ≤ 2 × 4, and CAP = 8 ≤ 2 × 4. -/
theorem wit_waitdrain :
    (swFrame 1).ctx ≠ 0 ∧ idleDisp.running.claims ≠ [] ∧ State.reset.running.ctx = 0 ∧ State.reset.running.claims = [] ∧
      2 * (queue 0 [1, 2, 3] (withCap 7 State.reset)).fifoLen.toNat < 7 ∧
      7 ≤ 2 * (queue 0 [1, 2, 3, 4] (withCap 7 State.reset)).fifoLen.toNat ∧
      (queue 0 [1, 2, 3, 4] State.reset).cfg.cap ≤ 2 * (queue 0 [1, 2, 3, 4] State.reset).fifoLen.toNat := by decide

/-- An I2C handler's turn: nothing pending, the idle context outside every claim. -/
theorem i2cTurn_of (s : State) (hh : s.halted = false) (hp : s.pending = 0) (hc : s.running.cur < s.cfg.prioI2c)
    (hd : s.ceilDisp = s.cfg.prioI2c) : I2cTurn s :=
  ⟨turn_of s _ hh hp hc (.inr (BitVec.le_refl _)), hd⟩

theorem byteReady_of (d : DispState) (p : Nat) (bs : List Byte) : ByteReady (txReady d (queue p bs State.reset)) :=
  ⟨i2cTurn_of _ rfl rfl (by decide : (0 : Prio) < 3) rfl, rfl, rfl⟩

theorem wit_address_needed :
    I2cTurn { State.reset with i2cPhase := .sbPending } ∧ ({ State.reset with i2cPhase := .sbPending }).i2cPhase = .sbPending :=
  ⟨i2cTurn_of _ rfl rfl (by decide) rfl, rfl⟩

/-- V2, reached by setting the state; and an Idle channel that meets the bus invariant. -/
theorem wit_byte_ready_stopped :
    ByteReady (txReady .stopped (queue 0 [] State.reset)) ∧ (txReady .stopped (queue 0 [] State.reset)).disp = .stopped ∧
      BusInv (txReady .idle (queue 0 [] State.reset)) ∧ ByteReady (txReady .idle (queue 0 [] State.reset)) := by
  refine ⟨byteReady_of _ _ _, rfl, ⟨?_, ?_, ?_, ?_, ?_, ?_⟩, byteReady_of _ _ _⟩ <;> decide

/-- The header clauses, at both edges of bit 7 and at the last slot. -/
theorem wit_byte_ready_header :
    [(.idle, 0, []), (.control 0, 7, [0x80]), (.idle, 7, [0xFF]), (.control 0, 0, [0x00]), (.idle, 0, [0x7F])].all
      (fun x : DispState × Nat × List Byte =>
        let s := txReady x.1 (queue x.2.1 x.2.2 State.reset)
        (s.disp == .idle || s.disp == .control 0) && decide (s.fifoPtr.toNat < s.cfg.cap)) = true ∧
    0x80 ≤ (oldest (txReady .idle (queue 7 [0x80] State.reset))).toNat ∧
    (oldest (txReady .idle (queue 0 [0x7F] State.reset))).toNat < 0x80 ∧
    ∀ d p bs, ByteReady (txReady d (queue p bs State.reset)) :=
  ⟨by decide, by decide, by decide, byteReady_of⟩

theorem wit_byte_ready_control :
    let s := fun d bs => txReady d (queue 7 bs State.reset)
    (s (.control 1) []).disp = .control 1 ∧ (s (.control 0) []).disp = .control 0 ∧
      (s (.control2 0) []).disp = .control2 0 ∧ (s (.control2 1) []).fifoLen = 0 ∧
      (s (.control2 127) [9]).fifoLen ≠ 0 ∧ (s (.control2 127) [9]).fifoPtr.toNat < 8 ∧
      ∀ d p bs, ByteReady (txReady d (queue p bs State.reset)) :=
  ⟨rfl, rfl, rfl, by decide, by decide, by decide, byteReady_of⟩

/-- Data(0)'s two clauses exclude each other: a header below 0x80 folds, one from 0x80 on restarts. -/
theorem wit_byte_ready_data :
    let s := fun d bs => txReady d (queue 7 bs State.reset)
    (s (.data 1) []).fifoLen = 0 ∧ (s (.data 1) [9]).fifoLen ≠ 0 ∧
      (oldest (s (.data 0) [0x7F])).toNat < 0x80 ∧ 0x80 ≤ (oldest (s (.data 0) [0x80])).toNat ∧
      (s (.data 0) []).fifoLen = 0 ∧ (s (.data 0) [0x80]).fifoPtr.toNat < 8 ∧
      ∀ d p bs, ByteReady (txReady d (queue p bs State.reset)) :=
  ⟨by decide, by decide, by decide, by decide, by decide, by decide, byteReady_of⟩

theorem wit_i2c_error :
    let s := txReady (.data 2) State.reset
    let u : State := { s with cfg := { Config.test with errRecovery := .toStopped } }
    I2cTurn s ∧ s.i2cPhase = .txReady ∧ s.cfg.errRecovery = .none ∧ I2cTurn u ∧ u.cfg.errRecovery = .toStopped ∧
      I2cTurn { s with i2cPhase := .txBusy } ∧ I2cTurn { s with i2cPhase := .sbPending } :=
  ⟨i2cTurn_of _ rfl rfl (by decide) rfl, rfl, rfl, i2cTurn_of _ rfl rfl (by decide) rfl, rfl,
    i2cTurn_of _ rfl rfl (by decide) rfl, i2cTurn_of _ rfl rfl (by decide) rfl⟩

/-- E3's packets, from slot 5 on, so that they wrap. -/
theorem wit_framing :
    let s₀ := txReady .idle (queue 5 [0x82, 0x20, 0x00, 0x03, 0x01, 0x02, 0x03] State.reset)
    let s : State := { s₀ with
      schedule := (List.replicate (2 * 2 + 3 + 1) [Choice.event 0xF1000000, Choice.i2cByteOut]).flatten
        ++ Choice.event 0xF1000000 :: [] }
    FifoInv s ∧ ByteReady s ∧ s.disp = .idle ∧
      s.fifoList = BitVec.ofNat 8 (0x80 + [0x20, 0x00].length) :: [0x20, 0x00] ++ BitVec.ofNat 8 [1, 2, 3].length :: [1, 2, 3] :=
  ⟨⟨by decide, by decide, by decide, by decide, by decide, by decide⟩,
    ⟨i2cTurn_of _ rfl rfl (by decide : (0 : Prio) < 3) rfl, rfl, rfl⟩, rfl, by decide⟩

theorem wit_sensor_starts :
    AccessPasses .sens idleSens ∧ idleSens.sensTag = .idle ∧
    AccessPasses .sens { idleSens with sensTag := .finished } ∧
    AccessPasses .sens (spiBusy .readFirst .read idleSens) ∧ (spiBusy .readFirst .read idleSens).sensTag ≠ .idle ∧
    (spiBusy .readFirst .read idleSens).sensTag ≠ .finished := by
  unfold AccessPasses
  decide

theorem spiComplete_of (t : SensTag) (a : SensAction) (c : Config) (h : c.prioSpi = 2) :
    SpiComplete { spiBusy t a State.reset with cfg := c } :=
  ⟨turn_of _ _ rfl rfl (by show (0 : Prio) < c.prioSpi; rw [h]; decide) (.inl rfl), h.symm, rfl⟩

theorem wit_spi_rx :
    SpiComplete (spiBusy .readFirst .read State.reset) ∧ SpiComplete (spiBusy .readFirst (.write 0xD1) State.reset) ∧
      SpiComplete (spiBusy .readSecond .read State.reset) ∧ SpiComplete (spiBusy .finished .read State.reset) ∧
      BusInv { spiBusy .readSecond .read State.reset with trace := [] } := by
  refine ⟨spiComplete_of _ _ _ rfl, spiComplete_of _ _ _ rfl, spiComplete_of _ _ _ rfl, spiComplete_of _ _ _ rfl,
    ⟨?_, ?_, ?_, ?_, ?_, ?_⟩⟩ <;> decide

theorem wit_spi_rxfail :
    SpiComplete (spiBusy .idle .read State.reset) ∧ SpiComplete (spiBusy .readFirst .read State.reset) ∧
      State.reset.cfg.rxFailPolicy = .log ∧
      SpiComplete { spiBusy .readSecond .read State.reset with cfg := { Config.test with rxFailPolicy := .trap } } :=
  ⟨spiComplete_of _ _ _ rfl, spiComplete_of _ _ _ rfl, rfl, spiComplete_of _ _ _ rfl⟩

theorem wit_two_phase :
    Turn { idleSens with running := { idleSens.running with cur := 0 } } idleSens.cfg.prioSpi ∧
      idleSens.ceilSens = idleSens.cfg.prioSpi ∧ AccessPasses .sens idleSens ∧ idleSens.running.claims = [] ++ [0] ∧
      idleSens.sensTag = .idle ∧ Instr.sensStartWrite 0x80 0xD1 = .sensStartWrite 0x80 0xD1 :=
  ⟨turn_of _ _ rfl rfl (by decide) (.inl rfl), rfl, by unfold AccessPasses; decide, rfl, rfl, rfl⟩

/-- The first and the last error bit, and none. -/
theorem wit_classify :
    (0b11111 : BitVec 5).getLsbD 0 = true ∧ (0b10000 : BitVec 5).getLsbD 4 = true ∧
      (∀ m, m < 4 → (0b10000 : BitVec 5).getLsbD m = false) ∧ (0 : BitVec 5) = 0 := by decide

theorem wit_cont : BusResult.ok = .ok ∧ BusResult.busy ≠ .ok ∧ BusResult.error .none ≠ .ok ∧ State.reset.halted = false := by
  decide

theorem wit_csr :
    csrResource .fault = none ∧ csrResource .fifoLen = some .disp ∧ csrResource .sensResult = some .sens ∧
      AccessPasses .disp idleDisp ∧ AccessPasses .sens idleSens ∧
      (eventFault State.reset .dispCtrl2Zero 0xF1000000 0xE).halted = true := by
  unfold AccessPasses
  decide

theorem wit_trigger : State.reset.cfg.swEntry 2 = none ∧ State.reset.cfg.swEntry 1 = some ⟨1, 1, []⟩ := by decide

theorem wit_handler_entry :
    let s : State := { State.reset with pending := 2 }
    s.cfg.swEntry 1 = some ⟨1, 1, []⟩ ∧ s.isPending 1 = true ∧ Turn s 1 ∧
      ¬ (State.reset.isPending 1 = true ∧ Turn State.reset 1) := by
  refine ⟨by decide, by decide, ⟨rfl, by decide, by decide, ?_⟩, fun h => absurd h.1 (by decide)⟩
  intro k e he _
  have hm : e ∈ Config.test.swCtx := List.mem_of_find?_eq_some he
  simp only [Config.test, List.mem_singleton] at hm
  subst hm
  decide

/-- The three clauses: a leak, a handler's return (with a handler forced below it and without), the idle context. -/
theorem wit_end_of_program :
    let leak : State := { State.reset with running := { swFrame 1 with cur := 3, claims := [1] }, preempted := [Frame.idle []] }
    let back : State := { State.reset with running := swFrame 1, preempted := [Frame.idle []], pending := 2 }
    NothingForced leak ∧ leak.item = none ∧ leak.running.claims ≠ [] ∧
      NothingForced back ∧ back.item = none ∧ back.running.claims = [] ∧ back.running.ctx ≠ 0 ∧
      back.preempted = Frame.idle [] :: [] ∧ ¬ NothingForced { back with running := Frame.idle [], preempted := [] } ∧
      NothingForced State.reset ∧ State.reset.item = none ∧ ¬ (State.reset.running.ctx = 0 ∧ State.reset.idleDone = true) := by
  unfold NothingForced
  decide

theorem wit_agent_steps :
    let lossy : State := { State.reset with cfg := { Config.test with eventLoss := true } }
    ({ State.reset with i2cPhase := .txBusy }).halted = false ∧ State.reset.i2cPhase ≠ .txBusy ∧
      State.reset.cfg.eventLoss = false ∧ lossy.halted = false ∧ lossy.cfg.eventLoss = true ∧
      (txReady .idle lossy).i2cPhase = .txReady ∧ (txReady .idle lossy).dispArmed = true ∧
      (spiBusy .readFirst .read lossy).spiBusy = true ∧
      stepChoice .loseTxe { lossy with i2cPhase := .txReady } = .refused .agentHasNoStep ∧
      stepChoice .loseTxe { lossy with i2cPhase := .txBusy, dispArmed := true } = .refused .agentHasNoStep ∧
      stepChoice .loseSb (txReady .idle lossy) = .refused .agentHasNoStep ∧
      stepChoice .loseSpi lossy = .refused .agentHasNoStep :=
  ⟨by decide, by decide, by decide, by decide, by decide, by decide, by decide, by decide, rfl, rfl, rfl, rfl⟩

/-- Each frame statement's instructions answer a next state. -/
theorem wit_frames :
    [Instr.fifoPeek, .fifoLen, .fifoIsempty, .dispWaitdrain, .resClassify 1 false, .resCont .ok .ok, .csrRead .fault,
      .fifoWrite 1, .fifoRead, .arbClaim .disp, .arbRelease, .dispKick].all (fun i => (nextOf (exec i idleDisp)).isSome)
      = true ∧
    [Instr.sensStartRead 1, .sensStartWrite 1 2].all (fun i => (nextOf (exec i idleSens)).isSome) = true ∧
    [Instr.evI2cTxe, .evI2cErr .timeout].all (fun i => (nextOf (exec i (txReady .idle State.reset))).isSome) = true ∧
    [Instr.evSpiRx 1, .evSpiRxfail .timeout].all
      (fun i => (nextOf (exec i (spiBusy .readFirst .read State.reset))).isSome) = true ∧
    (nextOf (exec .evI2cSb { State.reset with i2cPhase := .sbPending })).isSome = true ∧
    (nextOf (exec (.evSwTrigger 1) State.reset)).isSome = true := by decide

theorem wit_outputs :
    (∃ t, stepChoice .context (atItem 0x30000002 idleSens) = .next t ∧ t.trace = [.spiSelect, .spiWrite 0x02]) ∧
    (∃ t, stepChoice (.event 0xF800005A) (spiBusy .readSecond .read State.reset) = .next t ∧ t.sensResult = 0x5A) :=
  ⟨⟨_, rfl, by decide⟩, _, rfl, by decide⟩

theorem wit_parameters : ∃ t, step { State.reset with schedule := [.context] } = .next t := ⟨_, rfl⟩

/-- A faulting command, a faulting delivery, an illegal event word and a leak. -/
theorem wit_faults :
    (∃ t, stepChoice .context (atItem 0x00000001 State.reset) = .next t ∧ t.halted = true ∧ t.faultCtx = 0) ∧
    (∃ t, stepChoice (.event 0xF1000000) (txReady (.control2 0) State.reset) = .next t ∧ t.halted = true ∧ t.faultCtx = 0xE) ∧
    (∃ t, stepChoice (.event 0x20000000) State.reset = .next t ∧ t.halted = true ∧ t.faultCtx = 0xD) ∧
    (∃ t, stepChoice .context { State.reset with running := { swFrame 1 with cur := 3, claims := [1] } } = .next t ∧
      t.halted = true ∧ t.faultWord = 0) ∧
    State.reset.cfg.wf = true ∧ State.reset.halted = false :=
  ⟨⟨_, rfl, rfl, rfl⟩, ⟨_, rfl, rfl, rfl⟩, ⟨_, rfl, rfl, rfl⟩, ⟨_, rfl, rfl, rfl⟩, by decide, rfl⟩

theorem wit_halted :
    let s := eventFault (atItem 0x10000000 State.reset) .arbUnclaimed 0x00000001 0
    s.halted = true ∧ (∃ t, stepChoice .context s = .next t ∧ t.rsp = some 0x80000008) ∧
      (∃ t, stepChoice (.event 0xFC000001) s = .next t) ∧ ∀ r, decode .command 0x10000000 ≠ .ok (.csrRead r) :=
  ⟨rfl, ⟨_, rfl, by decide⟩, ⟨_, rfl⟩, fun r h => by cases (show Except.ok (Instr.arbClaim .disp) = .ok (.csrRead r) from h)⟩

/-- The smallest and the largest of each range R9 admits; a state that is its own reset's start. -/
theorem wit_reset :
    ({ Config.test with cap := 1, nprio := 256, prioI2c := 255, prioSpi := 1, swCtx := [], nestMax := 255 }).wf = true ∧
    ({ Config.test with cap := 65535, swCtx := [⟨12, 3, []⟩, ⟨1, 1, []⟩], nestMax := 1 }).wf = true ∧
    (∃ s, State.resetWith Config.test ⟨[], [7, 0, 9], 5, []⟩ = some s ∧ Memory.read s.buf 2 = 9 ∧ Memory.read s.buf 1 = 0) :=
  ⟨by decide, by decide, _, rfl, by decide, by decide⟩

theorem wit_fifo_inv_step :
    FifoInv { queue 3 [1, 2] (withCap 4 idleDisp) with schedule := [.context] } ∧
      ∃ t, step { atItem 0x01000000 (queue 3 [1, 2] (withCap 4 idleDisp)) with schedule := [.context] } = .next t :=
  ⟨⟨by decide, by decide, by decide, by decide, by decide, by decide⟩, _, rfl⟩

theorem wit_bus_inv_step :
    BusInv { txReady (.control2 127) (queue 0 [] State.reset) with schedule := [.event 0xF1000000] } ∧
      ∃ t, step { txReady (.control2 127) (queue 0 [] State.reset) with schedule := [.event 0xF1000000] } = .next t := by
  refine ⟨⟨?_, ?_, ?_, ?_, ?_, ?_⟩, _, rfl⟩ <;> decide

theorem wit_arb_inv_step : ArbInv preempting ∧ ∃ t, step { preempting with schedule := [.context] } = .next t :=
  ⟨wit_arb_inv, _, rfl⟩

theorem wit_fault_record :
    FaultInv (eventFault State.reset .illegalCmd 0x20000000 0xD) ∧ FaultInv { State.reset with schedule := [.context] } ∧
      ∃ t, step { eventFault State.reset .illegalCmd 0x20000000 0xD with schedule := [.event 0x20000000] } = .next t :=
  ⟨⟨by decide, by decide⟩, ⟨by decide, by decide⟩, _, rfl⟩

theorem wit_final :
    Final { State.reset with idleDone := true } ∧ ∃ t, stepChoice (.event 0xFC000001) { State.reset with idleDone := true } = .next t :=
  ⟨⟨rfl, ⟨rfl, rfl, rfl, rfl⟩, rfl, rfl, .inl rfl⟩, _, rfl⟩

/-- R362 (a), with the wait at exactly half capacity. -/
theorem wit_stuck :
    let s := atItem 0x21000000 (queue 0 [1, 2, 3, 4] State.reset)
    s.halted = false ∧ s.running.ctx = 0 ∧ s.running.claims = [] ∧ s.idleDone = false ∧
      s.item = some ⟨0x21000000, none, []⟩ ∧ s.cfg.cap ≤ 2 * s.fifoLen.toNat ∧ s.pending = 0 ∧ s.spiBusy = false ∧
      s.i2cPhase = .idle := by decide

end Sys2Proof.Tests
end

section
/-! PROOFS for the statements on the good states: every step keeps the arbiter's invariant (O57), no step from a good
state ends in a stop of the model (O52), and the reset states are good (O54). -/

namespace Sys2Proof.Machine

/-! ### PENDING and SW_CTX (R8, R51) -/

/-- An entry that SW_CTX gives for an id stands in it and has that id. -/
theorem Config.mem_of_swEntry {c : Config} {k : CtxId} {e : SwEntry} (h : c.swEntry k = some e) :
    e ∈ c.swCtx ∧ e.id = k :=
  ⟨List.mem_of_find?_eq_some h, by simpa using List.find?_some h⟩

theorem getLsbD_pendingBit (j k : CtxId) : (pendingBit j).getLsbD k.toNat = decide (k = j) := by
  have hj : j.toNat < 16 := j.isLt
  have hbit : pendingBit j = BitVec.twoPow 16 j.toNat := rfl
  simp [hbit, hj, BitVec.toNat_inj, eq_comm]

/-- Setting PENDING[j] makes no other context pending (R315). -/
theorem State.isPending_set {s t : State} {j k : CtxId} (ht : t.pending = s.pending ||| pendingBit j) :
    t.isPending k = (s.isPending k || decide (k = j)) := by
  simp [State.isPending, ht, getLsbD_pendingBit]

/-- Clearing PENDING[j] makes no context pending (R312). -/
theorem State.isPending_of_clear {s t : State} {j k : CtxId} (ht : t.pending = s.pending &&& ~~~(pendingBit j))
    (hk : t.isPending k = true) : s.isPending k = true := by
  simp only [State.isPending, ht, BitVec.getLsbD_and, Bool.and_eq_true] at hk
  exact hk.1

/-! ### One frame (R45, R172, R173, R312) -/

/-- A frame's invariant does not read its place. -/
theorem FrameInv.withPlace {c : Config} {f : Frame} (h : FrameInv c f) (p : Place) :
    FrameInv c { f with place := p } :=
  ⟨h.depth, h.rising, h.first⟩

/-- A frame with no claim, at its base priority. -/
theorem FrameInv.fresh (c : Config) (k : CtxId) (p : Prio) (pl : Place) :
    FrameInv c { ctx := k, base := p, cur := p, claims := [], place := pl } :=
  ⟨Nat.zero_le _, List.pairwise_singleton _ _, rfl⟩

/-- A claim below NEST_MAX saves the current priority and does not lower it (R172). -/
theorem FrameInv.claim {c : Config} {f : Frame} {p : Prio} (h : FrameInv c f) (hn : f.claims.length ≠ c.nestMax)
    (hp : f.cur ≤ p) : FrameInv c { f with claims := f.claims ++ [f.cur], cur := p } where
  depth := by
    have := h.depth
    simp only [List.length_append, List.length_singleton]
    omega
  rising := by
    have hlast : ∀ q ∈ f.claims ++ [f.cur], q ≤ p := by
      intro q hq
      rcases List.mem_append.mp hq with hq | hq
      · exact BitVec.le_trans ((List.pairwise_append.mp h.rising).2.2 q hq f.cur (by simp)) hp
      · exact List.mem_singleton.mp hq ▸ hp
    exact List.pairwise_append.mpr ⟨h.rising, List.pairwise_singleton _ _, by simpa using hlast⟩
  first := by
    rw [List.head?_append_of_ne_nil _ (by simp)]
    exact h.first

/-- A release restores the last saved priority (R173): the saved priorities with it are the ones saved before. -/
theorem FrameInv.release {c : Config} {f : Frame} {p : Prio} (h : FrameInv c f) (hl : f.claims.getLast? = some p) :
    FrameInv c { f with claims := f.claims.dropLast, cur := p } := by
  have hc : f.claims.dropLast ++ [p] = f.claims := List.dropLast_append_getLast? p hl
  refine ⟨?_, ?_, ?_⟩
  · exact (List.dropLast_sublist _).length_le.trans h.depth
  · rw [hc]
    exact (List.pairwise_append.mp h.rising).1
  · have hne : f.claims ≠ [] := fun h0 => by simp [h0] at hl
    rw [hc, ← h.first, List.head?_append_of_ne_nil _ hne]

/-! ### The stack (R45, R312, R316) -/

/-- Of the top frame the stack reads the context and the base priority alone. -/
theorem Stacked.of_top {c : Config} {f g : Frame} {rest : List Frame} (h : Stacked c f rest) (hc : g.ctx = f.ctx)
    (hb : g.base = f.base) : Stacked c g rest := by
  cases rest with
  | nil => exact ⟨hc.trans h.1, hb.trans h.2⟩
  | cons r rest => simpa only [Stacked, hc, hb] using h

/-! ### The arbiter's invariant -/

/-- ArbInv reads six fields. -/
theorem ArbInv.of_eq {s t : State} (h : ArbInv s) (hc : t.cfg = s.cfg) (hd : t.ceilDisp = s.ceilDisp)
    (hs : t.ceilSens = s.ceilSens) (hr : t.running = s.running) (hp : t.preempted = s.preempted)
    (hq : t.pending = s.pending) : ArbInv t := by
  obtain ⟨h1, h2, h3, h4, h5, h6⟩ := h
  constructor <;> simp only [State.isPending, hc, hd, hs, hr, hp, hq] <;> assumption

/-- The top frame may be replaced by a good one of the same context and base priority. -/
theorem ArbInv.setRunning {s : State} (h : ArbInv s) {f : Frame} (hf : FrameInv s.cfg f)
    (hc : f.ctx = s.running.ctx) (hb : f.base = s.running.base) : ArbInv (s.setRunning f) :=
  { h with
    frameInv := List.forall_mem_cons.mpr ⟨hf, (List.forall_mem_cons.mp h.frameInv).2⟩
    stacked := h.stacked.of_top hc hb }

/-- The running frame's own invariant. -/
theorem ArbInv.top {s : State} (h : ArbInv s) : FrameInv s.cfg s.running := h.frameInv _ (by simp)

/-- Taking a choice off the schedule keeps the invariant (R104). -/
theorem ArbInv.begin {s : State} (h : ArbInv s) (rest : List Choice) : ArbInv (s.begin rest) :=
  h.of_eq rfl rfl rfl rfl rfl rfl

/-- Moving the running context's place keeps the invariant (R57). -/
theorem ArbInv.withPlace {s : State} (h : ArbInv s) (p : Place) :
    ArbInv { s with running := { s.running with place := p } } :=
  h.setRunning (h.top.withPlace p) rfl rfl

/-- A completed instruction keeps the arbiter's invariant: a claim and a release change the top frame, a trigger sets a
bit of an id in SW_CTX, and no other touches what the invariant reads. -/
theorem Done.keepsArbInv {i : Instr} {s t : State} (h : ArbInv s) (hd : Done s i t) : ArbInv t := by
  cases hd with
  | claim hb hn =>
    refine (h.setRunning (h.top.claim hn ?_) rfl rfl).of_eq rfl rfl rfl rfl rfl rfl
    split_ifs with hlt
    · exact BitVec.le_of_lt hlt
    · exact BitVec.le_refl _
  | release hl => exact (h.setRunning (h.top.release hl) rfl rfl).of_eq rfl rfl rfl rfl rfl rfl
  | trigger hk =>
    refine { h with pendingIds := fun j hj => ?_ }
    rw [State.isPending_set rfl, Bool.or_eq_true, decide_eq_true_iff] at hj
    rcases hj with hj | rfl
    · exact h.pendingIds j hj
    · exact hk
  | read ha he hp =>
    obtain ⟨-, -, rfl⟩ := State.pop_some hp
    exact h.of_eq rfl rfl rfl rfl rfl rfl
  | byteReady hd hp hr ht =>
    rw [ht.frame]
    exact h.of_eq rfl rfl rfl rfl rfl rfl
  | _ => exact h.of_eq rfl rfl rfl rfl rfl rfl

/-- A software handler's entry puts a fresh frame above one that it outranks (R309, R312). -/
theorem ArbInv.enter {s : State} (h : ArbInv s) {k : CtxId} {e : SwEntry} (he : s.cfg.swEntry k = some e)
    (hd : s.canDeliver (.sw k) = true) :
    ArbInv { s with
      pending := s.pending &&& ~~~(pendingBit k)
      running := { ctx := k, base := e.prio, cur := e.prio, claims := [], place := placeAtStart e.program }
      preempted := s.running :: s.preempted } where
  cfgWf := h.cfgWf
  ceilDispIs := h.ceilDispIs
  ceilSensIs := h.ceilSensIs
  frameInv := List.forall_mem_cons.mpr ⟨FrameInv.fresh _ _ _ _, h.frameInv⟩
  stacked := by
    obtain ⟨hm, hid⟩ := Config.mem_of_swEntry he
    have houtranks : s.running.cur.toNat < e.prio.toNat := by
      simpa only [Handler.prio, he] using State.canDeliver_outranks hd
    exact ⟨⟨e, hm, hid, rfl⟩, houtranks, h.stacked⟩
  pendingIds j hj := h.pendingIds j (State.isPending_of_clear rfl hj)

/-- A software handler's end leaves the rest of the stack (R313). -/
theorem ArbInv.ends {s : State} (h : ArbInv s) {f : Frame} {rest : List Frame} (hp : s.preempted = f :: rest) :
    ArbInv { s with running := f, preempted := rest } :=
  { h with
    frameInv := fun g hg => h.frameInv g (List.mem_cons_of_mem _ (hp ▸ hg))
    stacked := by
      have hs := h.stacked
      rw [hp] at hs
      exact hs.2.2 }

/-- Every choice keeps the arbiter's invariant. -/
theorem stepChoice_keepsArbInv {c : Choice} {s t : State} (h : ArbInv s) (hx : stepChoice c s = .next t) :
    ArbInv t := by
  refine stepChoice_rel (R := fun _ t => ArbInv t)
    (record := fun t ht => ?record) (place := fun t p ht => ht.withPlace p)
    (done := fun i u _ _ hd => hd.keepsArbInv h) (enter := fun k e _ he hd => h.enter he hd)
    (ends := fun f rest _ _ _ hp => h.ends hp)
    (idle := ?idle) (byteOut := fun _ => ?agent) (loseTxe := fun _ _ => ?disarm) (loseSb := fun _ => ?stall)
    (loseSpi := fun _ => ?loss) hx
  case record =>
    rw [ht]
    exact h.of_eq rfl rfl rfl rfl rfl rfl
  all_goals exact h.of_eq rfl rfl rfl rfl rfl rfl

/-! ### Stops of the model -/

theorem mapNext_fault {r : Result} {f : State → State} {e : Fault} (h : mapNext r f = .fault e) : r = .fault e := by
  cases r with
  | next u => cases h
  | fault e' => exact h
  | refused e' => cases h

theorem agentStep_ne_fault {p : Bool} {u : State} {halted : Bool} {f : Fault} : agentStep p u halted ≠ .fault f := by
  intro h
  unfold agentStep at h
  split_ifs at h

theorem presentEvent_fault {w : Word} {s : State} {f : Fault} (h : presentEvent w s = .fault f) :
    ∃ i, exec i s = .fault f := by
  unfold presentEvent at h
  split at h
  · next i _ => exact ⟨i, h⟩
  · cases (runEvent_fault h).2.2

theorem issueCommand_fault {w : Word} {s : State} {f : Fault} (h : issueCommand w s = .fault f) :
    ∃ i, exec i s = .fault f := by
  unfold issueCommand at h
  split at h
  · next i _ => exact ⟨i, h⟩
  · cases (runCommand_fault h).2

theorem enterHandler_ne_fault {k : CtxId} {s : State} {f : Fault} : enterHandler k s ≠ .fault f := by
  intro h
  unfold enterHandler at h
  split at h
  · cases h
  · split_ifs at h

/-- The end of a program stops only where a handler has no frame below it (R45). -/
theorem endOfProgram_fault {s : State} {f : Fault} (h : endOfProgram s = .fault f) :
    s.running.ctx ≠ 0 ∧ s.preempted = [] := by
  unfold endOfProgram at h
  split_ifs at h with _ _ hx
  split at h
  · cases h
  · next hp => exact ⟨hx, hp⟩

/-- A choice stops only where an instruction does, or where a handler ends with no frame below it. -/
theorem stepChoice_fault {c : Choice} {s : State} {f : Fault} (h : stepChoice c s = .fault f) :
    (∃ i, exec i s = .fault f) ∨ (s.running.ctx ≠ 0 ∧ s.preempted = []) := by
  cases c with
  | event w => exact .inl (presentEvent_fault h)
  | enter k => exact absurd h enterHandler_ne_fault
  | context =>
    simp only [stepChoice, contextStep] at h
    split_ifs at h
    split at h
    · exact .inl (issueCommand_fault (mapNext_fault h))
    · exact .inr (endOfProgram_fault h)
  | i2cByteOut => exact absurd h agentStep_ne_fault
  | loseTxe => exact absurd h agentStep_ne_fault
  | loseSb => exact absurd h agentStep_ne_fault
  | loseSpi => exact absurd h agentStep_ne_fault

/-- The frame at the bottom of the stack is the idle context's (R45). -/
theorem Stacked.bottom_idle {c : Config} {f : Frame} {rest : List Frame} (h : Stacked c f rest) (hr : rest = []) :
    f.ctx = 0 := by
  subst hr
  exact h.1

/-- No choice stops in a good state. -/
theorem stepChoice_ne_fault {c : Choice} {s : State} {f : Fault} (hf : FifoInv s) (ha : ArbInv s) :
    stepChoice c s ≠ .fault f := by
  intro h
  rcases stepChoice_fault h with ⟨i, hi⟩ | ⟨hctx, hp⟩
  · exact exec_fault hi ⟨hf.ptrLow, hf.capPos⟩
  · exact hctx (ha.stacked.bottom_idle hp)

/-! ### Reset (R9, R60) -/

/-- The entries of BUF filled from slot i on lie in the slots filled. -/
theorem mem_bufFrom {bs : List Byte} {i : Nat} {c : Host.Cell} (h : c ∈ bufFrom i bs) :
    i ≤ c.1 ∧ c.1 < i + bs.length := by
  induction bs generalizing i with
  | nil => cases h
  | cons b bs ih =>
    have tail : c ∈ bufFrom (i + 1) bs → i ≤ c.1 ∧ c.1 < i + (b :: bs).length := fun hc => by
      have := ih hc
      simp only [List.length_cons]
      omega
    unfold bufFrom at h
    split_ifs at h with hb
    · exact tail h
    · rcases List.mem_cons.mp h with rfl | h
      · simp
      · exact tail h

/-- BUF filled with bytes is in canonical form. -/
theorem wf_bufFrom (i : Nat) (bs : List Byte) : Memory.wf (bufFrom i bs) := by
  induction bs generalizing i with
  | nil => exact ⟨List.Pairwise.nil, by simp [bufFrom]⟩
  | cons b bs ih =>
    unfold bufFrom
    split_ifs with hb
    · exact ih (i + 1)
    · exact Memory.wf_cons (ih (i + 1)) (fun d hd => (mem_bufFrom hd).1) hb

/-- The capacity of an admitted parameter set (R9). -/
theorem Config.wf_cap {c : Config} (h : c.wf = true) : 1 ≤ c.cap ∧ c.cap ≤ 65535 := by
  simp only [Config.wf, Bool.and_eq_true, decide_eq_true_eq] at h
  tauto

/-- The reset state of an admitted parameter set meets every invariant. -/
theorem State.resetWith_inv {c : Config} {b : Boot} {s : State} (h : State.resetWith c b = some s) : Inv s := by
  unfold State.resetWith at h
  split_ifs at h with hwf
  cases h
  obtain ⟨hpos, htop⟩ := Config.wf_cap hwf
  refine ⟨?fifo, ?bus, ?fault, ?arb⟩
  case fifo =>
    refine ⟨hpos, htop, hpos, Nat.zero_le _, wf_bufFrom _ _, fun d hd => ?_⟩
    have hslot := (mem_bufFrom hd).2
    rw [List.length_take] at hslot
    show d.1 < c.cap
    omega
  case bus => constructor <;> simp [State.dispRem, DispState.rem]
  case fault => constructor <;> simp
  case arb =>
    refine ⟨hwf, rfl, rfl, ?_, ⟨rfl, rfl⟩, ?_⟩
    · exact List.forall_mem_singleton.mpr (FrameInv.fresh c 0 0 _)
    · simp [State.isPending]

/-- `State.reset` is the reset state of `Config.test` under the draw of zeros, with nothing to run. -/
theorem State.reset_eq_resetWith : State.resetWith Config.test ⟨[], [], 0, []⟩ = some State.reset := by
  decide

end Sys2Proof.Machine

open Sys2Proof.Machine

/-- Settles O57: each choice keeps the invariant, and taking it off the schedule touches nothing it reads. -/
theorem stepKeepsArbInv : Obligations.StepKeepsArbInv := by
  intro s t h hx
  obtain ⟨c, rest, hc⟩ := step_choice hx
  exact stepChoice_keepsArbInv (h.begin rest) hc

/-- Settles O52: FifoInv keeps every slot that is read in BUF, ArbInv a frame below every software handler's. -/
theorem noStopsFromGoodStates : Obligations.NoStopsFromGoodStates := by
  intro s f hf ha h
  unfold step at h
  split at h
  · cases h
  · next c rest _ =>
    have hb : FifoInv (s.begin rest) := hf.of_eq rfl rfl rfl rfl
    exact stepChoice_ne_fault hb (ha.begin rest) h

/-- Settles O54: `State.reset` is one of the reset states of `State.resetWith`. -/
theorem resetMeetsTheInvariants : Obligations.ResetMeetsTheInvariants :=
  ⟨State.resetWith_inv State.reset_eq_resetWith, fun _ _ _ h => State.resetWith_inv h⟩

end

section
/-! PROOFS for the statements on the FIFO: every step keeps its invariant (O55) and the order of its list (O15), its two
commands act on a bounded queue (O14), and an accepted write alone stores (O17). -/

namespace Sys2Proof.Machine

/-! ### The FIFO over an instruction and over a step (R33 to R35, R142, R146) -/

/-- The state after a byte is stored at FIFO_WPTR and counted (R140). -/
def pushed (b : Byte) (s : State) : State :=
  { s with buf := Memory.write s.buf s.fifoWptr b, fifoLen := s.fifoLen + 1 }

/-- Under the invariant a push stores (R14, R32: its slot exists). -/
theorem State.push_eq {s : State} (h : FifoInv s) (b : Byte) : s.push b = some (pushed b s) :=
  State.push_of_pos h.capPos b

/-- Under the invariant a pop answers the oldest byte. -/
theorem State.pop_eq {s : State} (h : FifoInv s) : s.pop = some (oldest s, popped s) :=
  State.pop_of_low h.ptrLow

theorem fifoList_pushed {s : State} (h : FifoInv s) (hf : s.fifoFull = false) (b : Byte) :
    (pushed b s).fifoList = s.fifoList ++ [b] :=
  State.fifoList_push h hf rfl rfl rfl rfl

theorem fifoList_popped {s : State} (h : FifoInv s) (he : s.fifoEmpty = false) :
    s.fifoList = oldest s :: (popped s).fifoList :=
  State.fifoList_pop h he rfl rfl rfl rfl

/-- What the FIFO is made of is the same in both states. -/
structure SameFifo (s t : State) : Prop where
  cfg     : t.cfg = s.cfg
  buf     : t.buf = s.buf
  fifoPtr : t.fifoPtr = s.fifoPtr
  fifoLen : t.fifoLen = s.fifoLen

/-- An instruction that answers a next state leaves the FIFO alone, pushes, or pops: its fault, and its answer on a
halted block, leave the FIFO alone. -/
theorem exec_fifoEffect {i : Instr} {s t : State} (h : exec i s = .next t) : FifoEffect i s t := by
  cases exec_next h with
  | done hh hd => exact hd.fifo
  | _ => exact .same rfl rfl rfl rfl

/-- No step changes the FIFO but the instruction it runs. -/
theorem stepChoice_fifo {c : Choice} {s t : State} (h : stepChoice c s = .next t) :
    SameFifo s t ∨ ∃ i, Runs c s i ∧ FifoEffect i s t := by
  refine stepChoice_rel (R := fun s t => SameFifo s t ∨ ∃ i, Runs c s i ∧ FifoEffect i s t)
    (record := fun t ht => ?record) (place := fun t p ht => ?place)
    (done := fun i u hr _ hd => .inr ⟨i, hr, hd.fifo⟩) (enter := fun k e _ _ _ => .inl ⟨rfl, rfl, rfl, rfl⟩)
    (ends := fun f rest _ _ _ _ => .inl ⟨rfl, rfl, rfl, rfl⟩) (idle := .inl ⟨rfl, rfl, rfl, rfl⟩)
    (byteOut := fun _ => .inl ⟨rfl, rfl, rfl, rfl⟩) (loseTxe := fun _ _ => .inl ⟨rfl, rfl, rfl, rfl⟩)
    (loseSb := fun _ => .inl ⟨rfl, rfl, rfl, rfl⟩) (loseSpi := fun _ => .inl ⟨rfl, rfl, rfl, rfl⟩) h
  case record =>
    rw [ht]
    exact .inl ⟨rfl, rfl, rfl, rfl⟩
  case place =>
    rcases ht with ⟨hc, hb, hp, hl⟩ | ⟨i, hr, he⟩
    · exact .inl ⟨hc, hb, hp, hl⟩
    · refine .inr ⟨i, hr, ?_⟩
      cases he with
      | same hc hb hp hl => exact .same hc hb hp hl
      | push b hi hf hw hc hb hp hl => exact .push b hi hf hw hc hb hp hl
      | pop hi he hc hb hp hl => exact .pop hi he hc hb hp hl

/-- A push into a FIFO that is not full keeps the invariant (R34). -/
theorem FifoInv.after_push {s : State} (h : FifoInv s) (hf : s.fifoFull = false) (b : Byte) :
    FifoInv (pushed b s) where
  capPos := h.capPos
  capTop := h.capTop
  ptrLow := h.ptrLow
  lenTop := by
    obtain ⟨hcount, hroom⟩ := State.len_after_push h hf
    exact hcount ▸ hroom
  bufForm := Memory.wf_write h.bufForm _ _
  bufSlots := Memory.bounded_write h.bufSlots (State.wptr_lt h.capPos) _

/-- A pop from a FIFO that is not empty keeps the invariant (R33, R34). -/
theorem FifoInv.after_pop {s : State} (h : FifoInv s) (he : s.fifoEmpty = false) : FifoInv (popped s) where
  capPos := h.capPos
  capTop := h.capTop
  ptrLow := (State.nextPtr_toNat h).trans_lt (Nat.mod_lt _ h.capPos)
  lenTop := by
    have hcount : (popped s).fifoLen.toNat + 1 = s.fifoLen.toNat := State.len_after_pop he
    exact (Nat.le_of_lt (Nat.lt_of_succ_le hcount.le)).trans h.lenTop
  bufForm := h.bufForm
  bufSlots := h.bufSlots

/-- Taking a choice off the schedule keeps the invariant (R104). -/
theorem FifoInv.begin {s : State} (h : FifoInv s) (rest : List Choice) : FifoInv (s.begin rest) :=
  h.of_eq rfl rfl rfl rfl

/-- Whatever an instruction does to the FIFO keeps its invariant. -/
theorem FifoEffect.keepsFifoInv {i : Instr} {s t : State} (h : FifoInv s) (he : FifoEffect i s t) : FifoInv t := by
  cases he with
  | same hc hb hp hl => exact h.of_eq hc hb hp hl
  | push b hi hf hw hc hb hp hl => exact (h.after_push hf b).of_eq hc hb hp hl
  | pop hi he hc hb hp hl => exact (h.after_pop he).of_eq hc hb hp hl

/-- What an instruction may do to the FIFO, on the list of R35. -/
theorem FifoEffect.list {i : Instr} {s t : State} (h : FifoInv s) (he : FifoEffect i s t) :
    t.fifoList = s.fifoList ∨
    (∃ b, i = .fifoWrite b ∧ s.fifoList.length < s.cfg.cap ∧ t.fifoList = s.fifoList ++ [b]) ∨
    ∃ x, (i = .fifoRead ∨ i = .evI2cTxe) ∧ s.fifoList = x :: t.fifoList := by
  cases he with
  | same hc hb hp hl => exact .inl (State.fifoList_congr hc hb hp hl)
  | push b hi hf hw hc hb hp hl =>
    refine .inr (.inl ⟨b, hi, ?_, State.fifoList_push h hf hc hb hp hl⟩)
    rw [State.fifoList_length]
    exact (State.len_after_push h hf).2
  | pop hi he hc hb hp hl => exact .inr (.inr ⟨oldest s, hi, State.fifoList_pop h he hc hb hp hl⟩)

/-- Every choice keeps the FIFO's invariant. -/
theorem stepChoice_keepsFifoInv {c : Choice} {s t : State} (h : FifoInv s) (hx : stepChoice c s = .next t) :
    FifoInv t := by
  rcases stepChoice_fifo hx with hs | ⟨i, -, he⟩
  · exact h.of_eq hs.cfg hs.buf hs.fifoPtr hs.fifoLen
  · exact he.keepsFifoInv h

/-! ### The FIFO's two commands (R140, R141) -/

/-- The check of R170 in the model's own terms. -/
theorem AccessPasses.accessRunning {r : Resource} {s : State} (h : AccessPasses r s) : s.accessRunning r = none :=
  State.access_passes h.1 h.2

/-- Where its access check passes, a command's outcome is its rule's. -/
theorem runCommand_passes {r : Resource} {s : State} (ha : AccessPasses r s) (w : Word) (a : Attempt) :
    runCommand w s (Attempt.unless (s.accessRunning r) a) = runCommand w s a := by
  rw [ha.accessRunning, Attempt.unless_none]

theorem exec_fifoWrite_full {s : State} (hh : s.halted = false) (ha : AccessPasses .disp s)
    (hf : s.fifoFull = true) (b : Byte) : exec (.fifoWrite b) s = .next (s.respond (bitResponse false)) := by
  simp only [exec, execFifoWrite, runCommand_passes ha, hf, if_true, runCommand_running hh]

theorem exec_fifoWrite_room {s : State} (h : FifoInv s) (hh : s.halted = false) (ha : AccessPasses .disp s)
    (hf : s.fifoFull = false) (b : Byte) :
    exec (.fifoWrite b) s = .next ((pushed b s).respond (bitResponse true)) := by
  simp [exec, execFifoWrite, runCommand_passes ha, hf, runCommand_running hh, State.push_eq h]

theorem exec_fifoRead_empty {s : State} (hh : s.halted = false) (ha : AccessPasses .disp s)
    (he : s.fifoEmpty = true) : exec .fifoRead s = .next (s.respond 0) := by
  simp only [exec, execFifoRead, runCommand_passes ha, he, if_true, runCommand_running hh]

theorem exec_fifoRead_oldest {s : State} (h : FifoInv s) (hh : s.halted = false) (ha : AccessPasses .disp s)
    (he : s.fifoEmpty = false) :
    exec .fifoRead s = .next ((popped s).respond (validResponse (oldest s))) := by
  simp [exec, execFifoRead, runCommand_passes ha, he, runCommand_running hh, State.pop_eq h]

/-- A found byte's response as a number: the valid bit above the byte (R141). -/
theorem validResponse_eq (b : Byte) : validResponse b = BitVec.ofNat 32 (2 ^ 8 + b.toNat) := by
  apply BitVec.eq_of_toNat_eq
  have hb := b.isLt
  simp only [validResponse, BitVec.toNat_setWidth, BitVec.toNat_append, BitVec.toNat_ofNat]
  rw [← Nat.shiftLeft_add_eq_or_of_lt hb]
  simp

theorem State.fifoList_eq_nil {s : State} : s.fifoList = [] ↔ s.fifoEmpty = true := by
  rw [← List.length_eq_zero_iff, State.fifoList_length]
  simp only [State.fifoEmpty, beq_iff_eq]
  exact ⟨fun h => BitVec.eq_of_toNat_eq h, fun h => congrArg BitVec.toNat h⟩

theorem State.fifoFull_iff {s : State} : s.fifoFull = true ↔ s.fifoList.length = s.cfg.cap := by
  simp [State.fifoFull, State.fifoList_length]

/-- On the list of R35 a write appends where there is room and leaves a full list as it is. -/
theorem exec_fifoWrite_queue {s t : State} {b : Byte} (h : FifoInv s) (hh : s.halted = false)
    (ha : AccessPasses .disp s) (hx : exec (.fifoWrite b) s = .next t) :
    (s.fifoList.length = s.cfg.cap → t.fifoList = s.fifoList ∧ t.rsp = some 0) ∧
    (s.fifoList.length < s.cfg.cap → t.fifoList = s.fifoList ++ [b] ∧ t.rsp = some 1) := by
  constructor
  · intro hl
    rw [exec_fifoWrite_full hh ha (State.fifoFull_iff.mpr hl)] at hx
    cases hx
    exact ⟨rfl, rfl⟩
  · intro hl
    have hf : s.fifoFull = false := by
      rw [← Bool.not_eq_true, State.fifoFull_iff]
      omega
    rw [exec_fifoWrite_room h hh ha hf] at hx
    cases hx
    exact ⟨fifoList_pushed h hf b, rfl⟩

/-- On the list of R35 a read takes the head and leaves an empty list as it is. -/
theorem exec_fifoRead_queue {s u : State} (h : FifoInv s) (hh : s.halted = false) (ha : AccessPasses .disp s)
    (hx : exec .fifoRead s = .next u) :
    (s.fifoList = [] → u.fifoList = [] ∧ u.rsp = some 0) ∧
    ∀ x l, s.fifoList = x :: l → u.fifoList = l ∧ u.rsp = some (BitVec.ofNat 32 (2 ^ 8 + x.toNat)) := by
  constructor
  · intro hl
    rw [exec_fifoRead_empty hh ha (State.fifoList_eq_nil.mp hl)] at hx
    cases hx
    exact ⟨hl, rfl⟩
  · intro x l hl
    have he : s.fifoEmpty = false := by
      rw [← Bool.not_eq_true, ← State.fifoList_eq_nil, hl]
      exact List.cons_ne_nil x l
    rw [exec_fifoRead_oldest h hh ha he] at hx
    cases hx
    obtain ⟨hx, hl⟩ := List.cons.inj ((fifoList_popped h he).symm.trans hl)
    rw [← hx, ← validResponse_eq]
    exact ⟨hl, rfl⟩

end Sys2Proof.Machine

open Sys2Proof.Machine

/-- Settles O55: a step leaves the FIFO alone, pushes where there is room, or pops where there is a byte. -/
theorem stepKeepsFifoInv : Obligations.StepKeepsFifoInv := by
  intro s t h hx
  obtain ⟨c, rest, hc⟩ := step_choice hx
  exact stepChoice_keepsFifoInv (h.begin rest) hc

/-- Settles O15: the FIFO changes only by the instruction that the step runs, which appends or takes the head. -/
theorem everyStepKeepsFifoOrder : Obligations.EveryStepKeepsFifoOrder := by
  intro c s t h hx
  rcases stepChoice_fifo hx with hs | ⟨i, hr, he⟩
  · exact .inl (State.fifoList_congr hs.cfg hs.buf hs.fifoPtr hs.fifoLen)
  · rcases he.list h with hl | ⟨b, rfl, hn, hl⟩ | ⟨x, rfl | rfl, hl⟩
    · exact .inl hl
    · exact .inr (.inl ⟨b, hr, hn, hl⟩)
    · exact .inr (.inr ⟨x, .inl hr, hl⟩)
    · exact .inr (.inr ⟨x, .inr hr, hl⟩)

/-- Settles O14: where the access check passes, a write is `pushed` unless the list is full and a read is `popped`
unless it is empty. -/
theorem fifoCommandsActOnAQueue : Obligations.FifoCommandsActOnAQueue := by
  intro b s t u h hh ha ht hu
  obtain ⟨hfull, hroom⟩ := exec_fifoWrite_queue h hh ha ht
  obtain ⟨hempty, hhead⟩ := exec_fifoRead_queue h hh ha hu
  exact ⟨s.fifoList_length, hfull, hroom, hempty, hhead⟩

/-- Settles O17: of what an instruction can do to the FIFO only a push stores. -/
theorem onlyAcceptedWritesStore : Obligations.OnlyAcceptedWritesStore := by
  intro i s t h hx
  cases exec_fifoEffect hx with
  | same hc hb hp hl => exact .inl fun k => by rw [hb]
  | pop hi he hc hb hp hl => exact .inl fun k => by rw [hb]
  | push b hi hf hw hc hb hp hl =>
    refine .inr ⟨b, hi, by simpa [State.fifoFull] using hf, ?_, fun k hk => ?_⟩
    · rw [hb, Memory.read_write_same h.bufForm]
    · rw [hb, Memory.read_write_other _ _ hk]

end

section
/-! PROOFS that what a slot of BUF which is not occupied holds is never observed (O18): two states that differ in such
slots alone are carried through each rule, each instruction and each choice side by side. -/

namespace Sys2Proof.Machine

/-! ### What a slot that is not occupied holds (R38) -/

/-- The state with other contents in BUF. -/
def State.withBuf (s : State) (m : List Host.Cell) : State := { s with buf := m }

section
variable (s : State) (m : List Host.Cell)

@[simp] theorem State.withBuf_cfg : (s.withBuf m).cfg = s.cfg := rfl
@[simp] theorem State.withBuf_disp : (s.withBuf m).disp = s.disp := rfl
@[simp] theorem State.withBuf_sensTag : (s.withBuf m).sensTag = s.sensTag := rfl
@[simp] theorem State.withBuf_running : (s.withBuf m).running = s.running := rfl
@[simp] theorem State.withBuf_preempted : (s.withBuf m).preempted = s.preempted := rfl
@[simp] theorem State.withBuf_rsp : (s.withBuf m).rsp = s.rsp := rfl
@[simp] theorem State.withBuf_item : (s.withBuf m).item = s.item := rfl

/-- No CSR shows a byte of BUF (R59). -/
@[simp] theorem csrValue_withBuf (c : Csr) : csrValue c (s.withBuf m) = csrValue c s := by cases c <;> rfl

@[simp] theorem csrAccess_withBuf (c : Csr) : csrAccess c (s.withBuf m) = csrAccess c s := by cases c <;> rfl

end

/-- Two states differ only in vacant slots when they differ in BUF alone and hold the same list of R35. -/
theorem sameButVacant_iff {s t : State} : SameButVacant s t ↔ t = s.withBuf t.buf ∧ t.fifoList = s.fifoList := by
  constructor
  · rintro ⟨ht, hk⟩
    refine ⟨ht, ?_⟩
    rw [ht]
    exact List.map_congr_left fun k hr => hk k (List.mem_range.mp hr)
  · rintro ⟨ht, hl⟩
    refine ⟨ht, fun k hr => ?_⟩
    rw [ht] at hl
    exact List.map_inj_left.mp hl k (List.mem_range.mpr hr)

theorem SameButVacant.exists_withBuf {s t : State} (h : SameButVacant s t) : ∃ m, t = s.withBuf m :=
  ⟨t.buf, h.1⟩

section
variable {s : State} {m : List Host.Cell}

/-- An update that leaves the FIFO and BUF as they are, and reads no slot, keeps the states alike. -/
theorem SameButVacant.update {t u : State} (h : SameButVacant s (s.withBuf m))
    (ht : t = { t with cfg := s.cfg, buf := s.buf, fifoPtr := s.fifoPtr, fifoLen := s.fifoLen })
    (hu : u = t.withBuf m) : SameButVacant t u := by
  subst hu
  rw [ht]
  exact ⟨rfl, h.2⟩

/-- Both states hold the same oldest byte and, when it is taken, the same rest. -/
theorem SameButVacant.oldest_eq (h : SameButVacant s (s.withBuf m)) (h₁ : FifoInv s) (h₂ : FifoInv (s.withBuf m))
    (he : s.fifoEmpty = false) :
    oldest (s.withBuf m) = oldest s ∧ (popped (s.withBuf m)).fifoList = (popped s).fifoList := by
  have hl := (sameButVacant_iff.mp h).2
  rw [fifoList_popped h₁ he, fifoList_popped h₂ he] at hl
  exact List.cons.inj hl

/-- The head of both states is the same byte (R206). -/
theorem SameButVacant.head (h : SameButVacant s (s.withBuf m)) (h₁ : FifoInv s) (h₂ : FifoInv (s.withBuf m))
    (he : s.fifoEmpty = false) : s.head = some (oldest s) ∧ (s.withBuf m).head = some (oldest s) := by
  refine ⟨State.head_of_low h₁.ptrLow, ?_⟩
  rw [← (h.oldest_eq h₁ h₂ he).1]
  exact State.head_of_low h₂.ptrLow

/-- A pop takes the same byte from both states (R206). -/
theorem SameButVacant.pop (h : SameButVacant s (s.withBuf m)) (h₁ : FifoInv s) (h₂ : FifoInv (s.withBuf m))
    (he : s.fifoEmpty = false) :
    s.pop = some (oldest s, popped s) ∧ (s.withBuf m).pop = some (oldest s, (popped s).withBuf m) ∧
      SameButVacant (popped s) ((popped s).withBuf m) := by
  obtain ⟨hb, hl⟩ := h.oldest_eq h₁ h₂ he
  refine ⟨State.pop_eq h₁, ?_, sameButVacant_iff.mpr ⟨rfl, hl⟩⟩
  rw [← hb]
  exact State.pop_eq h₂

/-- A push stores the same byte in the same slot of both states (R140). -/
theorem SameButVacant.push (h : SameButVacant s (s.withBuf m)) (h₁ : FifoInv s) (h₂ : FifoInv (s.withBuf m))
    (hf : s.fifoFull = false) (b : Byte) :
    SameButVacant (pushed b s) ((pushed b s).withBuf (Memory.write m s.fifoWptr b)) := by
  refine sameButVacant_iff.mpr ⟨rfl, ?_⟩
  calc (pushed b (s.withBuf m)).fifoList
    _ = (s.withBuf m).fifoList ++ [b] := fifoList_pushed h₂ hf b
    _ = s.fifoList ++ [b] := by rw [(sameButVacant_iff.mp h).2]
    _ = (pushed b s).fifoList := (fifoList_pushed h₁ hf b).symm

end

/-- Two rules end alike: in the same fault or stop, or in states that differ in vacant slots alone. -/
inductive SameAttempt : Attempt → Attempt → Prop
  | done {t u : State} (h : SameButVacant t u) : SameAttempt (.done t) (.done u)
  | raise (c : FaultCode) : SameAttempt (.raise c) (.raise c)
  | stop (f : Fault) : SameAttempt (.stop f) (.stop f)

/-- Two outcomes are alike: the same stop or refusal, or states that differ in vacant slots alone. -/
inductive SameResult : Result → Result → Prop
  | next {t u : State} (h : SameButVacant t u) : SameResult (.next t) (.next u)
  | fault (f : Fault) : SameResult (.fault f) (.fault f)
  | refused (r : Refusal) : SameResult (.refused r) (.refused r)

/-- A check that reads no slot lets both rules run or neither. -/
theorem SameAttempt.unless {a b : Attempt} (c : Option FaultCode) (h : SameAttempt a b) :
    SameAttempt (Attempt.unless c a) (Attempt.unless c b) := by
  cases c with
  | none => exact h
  | some c => exact .raise c

/-- Two rules that branch on the same condition end alike when their branches do. -/
theorem SameAttempt.ite {p : Prop} [Decidable p] {a b a' b' : Attempt} (ht : p → SameAttempt a b)
    (hf : ¬ p → SameAttempt a' b') : SameAttempt (if p then a else a') (if p then b else b') := by
  split_ifs with hp
  · exact ht hp
  · exact hf hp

/-- The same for outcomes. -/
theorem SameResult.ite {p : Prop} [Decidable p] {a b a' b' : Result} (ht : p → SameResult a b)
    (hf : ¬ p → SameResult a' b') : SameResult (if p then a else a') (if p then b else b') := by
  split_ifs with hp
  · exact ht hp
  · exact hf hp

section
variable {s : State} {m : List Host.Cell}

/-- A command's outcomes are alike where its rule's are. -/
theorem SameResult.runCommand {a b : Attempt} (w : Word) (h : SameButVacant s (s.withBuf m)) (hab : SameAttempt a b) :
    SameResult (runCommand w s a) (runCommand w (s.withBuf m) b) := by
  refine .ite (fun _ => .next (h.update rfl rfl)) fun _ => ?_
  cases hab with
  | done h' => exact .next h'
  | raise c => exact .next (h.update rfl rfl)
  | stop f => exact .fault f

/-- An event's outcomes are alike where its rule's are. -/
theorem SameResult.runEvent {a b : Attempt} (w : Word) (c : CtxId) (d : Bool) (h : SameButVacant s (s.withBuf m))
    (hab : SameAttempt a b) : SameResult (runEvent w c d s a) (runEvent w c d (s.withBuf m) b) := by
  refine .ite (fun _ => .next h) fun _ => .ite (fun _ => .refused _) fun _ => ?_
  cases hab with
  | done h' => exact .next h'
  | raise e => exact .next (h.update rfl rfl)
  | stop f => exact .fault f

/-- A rule that pops and goes on with the byte it took. -/
theorem SameAttempt.withPop {f g : Byte × State → Attempt} (h : SameButVacant s (s.withBuf m)) (h₁ : FifoInv s)
    (h₂ : FifoInv (s.withBuf m)) (he : ¬ s.fifoEmpty = true)
    (hfg : ∀ b u, SameButVacant u (u.withBuf m) → SameAttempt (f (b, u)) (g (b, u.withBuf m))) :
    SameAttempt (withSlot s.pop f) (withSlot (s.withBuf m).pop g) := by
  obtain ⟨hs, hm, hu⟩ := h.pop h₁ h₂ (by simpa using he)
  rw [hs, hm]
  exact hfg _ _ hu

/-! EV.I2C_TXE, rule by rule (R207, R213 to R217): each pops at most once and reads no other slot. -/

theorem idleLogic_same (h : SameButVacant s (s.withBuf m)) (h₁ : FifoInv s) (h₂ : FifoInv (s.withBuf m)) :
    SameAttempt (idleLogic s) (idleLogic (s.withBuf m)) :=
  .ite (fun _ => .done (h.update rfl rfl)) fun he => .withPop h h₁ h₂ he fun _ _ hu =>
    .ite (fun _ => .done (hu.update rfl rfl)) fun _ => .done (hu.update rfl rfl)

theorem txeControl_same (n : Byte) (h : SameButVacant s (s.withBuf m)) (h₁ : FifoInv s)
    (h₂ : FifoInv (s.withBuf m)) : SameAttempt (txeControl n s) (txeControl n (s.withBuf m)) :=
  .ite (fun _ => .done (h.update rfl rfl)) fun _ => idleLogic_same h h₁ h₂

theorem txeControl2_same (n : Byte) (h : SameButVacant s (s.withBuf m)) (h₁ : FifoInv s)
    (h₂ : FifoInv (s.withBuf m)) : SameAttempt (txeControl2 n s) (txeControl2 n (s.withBuf m)) :=
  .ite (fun _ => .raise _) fun _ => .ite (fun _ => .done (h.update rfl rfl)) fun he =>
    .withPop h h₁ h₂ he fun _ _ hu => .done (hu.update rfl rfl)

theorem txeData_same (n : Byte) (h : SameButVacant s (s.withBuf m)) (h₁ : FifoInv s) (h₂ : FifoInv (s.withBuf m)) :
    SameAttempt (txeData n s) (txeData n (s.withBuf m)) :=
  .ite (fun _ => .done (h.update rfl rfl)) fun he => .withPop h h₁ h₂ he fun _ _ hu => .done (hu.update rfl rfl)

theorem txeDataEnd_same (h : SameButVacant s (s.withBuf m)) (h₁ : FifoInv s) (h₂ : FifoInv (s.withBuf m)) :
    SameAttempt (txeDataEnd s) (txeDataEnd (s.withBuf m)) :=
  .ite (fun _ => .done (h.update rfl rfl)) fun he => .withPop h h₁ h₂ he fun _ _ hu =>
    .ite (fun _ => .done (h.update rfl rfl)) fun _ => .done (hu.update rfl rfl)

theorem txeByState_same (h : SameButVacant s (s.withBuf m)) (h₁ : FifoInv s) (h₂ : FifoInv (s.withBuf m)) :
    SameAttempt (txeByState s) (txeByState (s.withBuf m)) := by
  unfold txeByState
  rw [State.withBuf_disp]
  cases s.disp with
  | stopped => exact .raise _
  | idle => exact idleLogic_same h h₁ h₂
  | control n => exact txeControl_same n h h₁ h₂
  | control2 n => exact txeControl2_same n h h₁ h₂
  | data n => exact .ite (fun _ => txeDataEnd_same h h₁ h₂) fun _ => txeData_same n h h₁ h₂

theorem SameResult.runI2c {a b : Attempt} (i : Instr) (d : Bool) (h : SameButVacant s (s.withBuf m))
    (hab : SameAttempt a b) : SameResult (runI2c i d s a) (runI2c i d (s.withBuf m) b) :=
  .runEvent _ _ _ h (.unless _ hab)

theorem SameResult.runSpi {a b : Attempt} (i : Instr) (h : SameButVacant s (s.withBuf m))
    (hab : SameAttempt a b) : SameResult (runSpi i s a) (runSpi i (s.withBuf m) b) :=
  .runEvent _ _ _ h (.unless _ hab)

theorem startTransaction_same (i : Instr) (reg : Byte) (action : SensAction) (h : SameButVacant s (s.withBuf m)) :
    SameResult (startTransaction i reg action s) (startTransaction i reg action (s.withBuf m)) :=
  .runCommand _ h (.unless _ (.ite (fun _ => .raise _) fun _ => .done (h.update rfl rfl)))

/-- An instruction's outcome does not depend on vacant slots. -/
theorem exec_same (i : Instr) (h : SameButVacant s (s.withBuf m)) (h₁ : FifoInv s) (h₂ : FifoInv (s.withBuf m)) :
    SameResult (exec i s) (exec i (s.withBuf m)) := by
  cases i with
  | fifoWrite b =>
    refine .runCommand _ h (.unless _ (.ite (fun _ => .done (h.update rfl rfl)) fun hf => ?_))
    rw [State.push_eq h₁, State.push_eq h₂]
    exact .done ((h.push h₁ h₂ (by simpa using hf) b).update rfl rfl)
  | fifoRead =>
    exact .runCommand _ h (.unless _ (.ite (fun _ => .done (h.update rfl rfl)) fun he =>
      .withPop h h₁ h₂ he fun _ _ hu => .done (hu.update rfl rfl)))
  | fifoPeek =>
    refine .runCommand _ h (.unless _ (.ite (fun _ => .done (h.update rfl rfl)) fun he => ?_))
    obtain ⟨hs, hm⟩ := h.head h₁ h₂ (by simpa using he)
    rw [hs, hm]
    exact .done (h.update rfl rfl)
  | fifoLen => exact .runCommand _ h (.unless _ (.done (h.update rfl rfl)))
  | fifoIsempty => exact .runCommand _ h (.unless _ (.done (h.update rfl rfl)))
  | arbClaim r =>
    exact .runCommand _ h (.ite (fun _ => .raise _) fun _ => .ite (fun _ => .raise _) fun _ =>
      .done (h.update rfl rfl))
  | arbRelease =>
    refine .runCommand _ h ?_
    rw [State.withBuf_running]
    cases s.running.claims.getLast? with
    | none => exact .raise _
    | some p => exact .done (h.update rfl rfl)
  | dispKick =>
    exact .runCommand _ h (.unless _ (.ite (fun _ => .done (h.update rfl rfl)) fun _ => .done (h.update rfl rfl)))
  | dispWaitdrain =>
    exact .ite (fun _ => .refused _) fun _ => .runCommand _ h (.ite (fun _ => .raise _) fun _ =>
      .done (h.update rfl rfl))
  | sensStartRead reg => exact startTransaction_same _ _ _ h
  | sensStartWrite reg v => exact startTransaction_same _ _ _ h
  | resClassify st p => exact .runCommand (encode (.resClassify st p)) h (.done (h.update rfl rfl))
  | resCont a b =>
    refine .runCommand _ h ?_
    cases a with
    | ok => exact .done (h.update rfl rfl)
    | busy => exact .done (h.update rfl rfl)
    | error k => exact .done (h.update rfl rfl)
  | csrRead c =>
    simp only [exec, execCsrRead, csrValue_withBuf, csrAccess_withBuf]
    exact .ite (fun _ => .next (h.update rfl rfl)) fun _ => .runCommand _ h (.unless _ (.done (h.update rfl rfl)))
  | evI2cSb => exact .runI2c _ _ h (.done (h.update rfl rfl))
  | evI2cTxe => exact .runI2c _ _ h (txeByState_same h h₁ h₂)
  | evI2cErr k =>
    refine .runI2c _ _ h ?_
    rw [State.withBuf_cfg]
    cases s.cfg.errRecovery with
    | none => exact .done (h.update rfl rfl)
    | toStopped => exact .done (h.update rfl rfl)
  | evSpiRx b =>
    refine .runSpi _ h ?_
    rw [State.withBuf_sensTag]
    cases s.sensTag with
    | readFirst => exact .done (h.update rfl rfl)
    | readSecond => exact .done (h.update rfl rfl)
    | _ => exact .raise _
  | evSpiRxfail k =>
    refine .runSpi _ h (.ite (fun _ => .raise _) fun _ => ?_)
    rw [State.withBuf_cfg]
    cases s.cfg.rxFailPolicy with
    | log => exact .done (h.update rfl rfl)
    | trap => exact .raise _
  | evSwTrigger k =>
    exact .runEvent _ _ _ h (.ite (fun _ => .done (h.update rfl rfl)) fun _ => .raise _)

/-- The outcome of a word on either port does not depend on vacant slots. -/
theorem presentEvent_same (w : Word) (h : SameButVacant s (s.withBuf m)) (h₁ : FifoInv s)
    (h₂ : FifoInv (s.withBuf m)) : SameResult (presentEvent w s) (presentEvent w (s.withBuf m)) := by
  unfold presentEvent
  cases decode .event w with
  | ok i => exact exec_same i h h₁ h₂
  | error e => exact .runEvent _ _ _ h (.raise _)

theorem issueCommand_same (w : Word) (h : SameButVacant s (s.withBuf m)) (h₁ : FifoInv s)
    (h₂ : FifoInv (s.withBuf m)) : SameResult (issueCommand w s) (issueCommand w (s.withBuf m)) := by
  unfold issueCommand
  cases decode .command w with
  | ok i => exact exec_same i h h₁ h₂
  | error e => exact .runCommand _ h (.raise _)

theorem enterHandler_same (k : CtxId) (h : SameButVacant s (s.withBuf m)) :
    SameResult (enterHandler k s) (enterHandler k (s.withBuf m)) := by
  unfold enterHandler
  rw [State.withBuf_cfg]
  cases s.cfg.swEntry k with
  | none => exact .refused _
  | some e => exact .ite (fun _ => .next (h.update rfl rfl)) fun _ => .refused _

theorem endOfProgram_same (h : SameButVacant s (s.withBuf m)) :
    SameResult (endOfProgram s) (endOfProgram (s.withBuf m)) := by
  refine .ite (fun _ => .refused _) fun _ => .ite (fun _ => .next (h.update rfl rfl)) fun _ =>
    .ite (fun _ => ?_) fun _ => .next (h.update rfl rfl)
  rw [State.withBuf_preempted]
  cases s.preempted with
  | nil => exact .fault _
  | cons f rest => exact .next (h.update rfl rfl)

/-- Moving the running context on keeps two states alike. -/
theorem SameButVacant.advance {t u : State} (h : SameButVacant t u) (it : Item) :
    SameButVacant (t.advance it) (u.advance it) := by
  obtain ⟨m, rfl⟩ := h.exists_withBuf
  unfold State.advance
  rw [State.withBuf_rsp]
  cases t.rsp with
  | none => exact h
  | some v => exact h.update rfl rfl

theorem SameResult.mapAdvance {r r' : Result} (h : SameResult r r') (it : Item) :
    SameResult (mapNext r fun t => t.advance it) (mapNext r' fun t => t.advance it) := by
  cases h with
  | next h => exact .next (h.advance it)
  | fault f => exact .fault f
  | refused r => exact .refused r

theorem contextStep_same (h : SameButVacant s (s.withBuf m)) (h₁ : FifoInv s) (h₂ : FifoInv (s.withBuf m)) :
    SameResult (contextStep s) (contextStep (s.withBuf m)) := by
  refine .ite (fun _ => .refused _) fun _ => .ite (fun _ => .refused _) fun _ => ?_
  rw [State.withBuf_item]
  cases s.item with
  | none => exact endOfProgram_same h
  | some it => exact (issueCommand_same _ h h₁ h₂).mapAdvance it

theorem agentStep_same {t u : State} (p hh : Bool) (h : SameButVacant t u) :
    SameResult (agentStep p t hh) (agentStep p u hh) :=
  .ite (fun _ => .next h) fun _ => .refused _

/-- A choice's outcome does not depend on vacant slots. -/
theorem stepChoice_same (c : Choice) (h : SameButVacant s (s.withBuf m)) (h₁ : FifoInv s)
    (h₂ : FifoInv (s.withBuf m)) : SameResult (stepChoice c s) (stepChoice c (s.withBuf m)) := by
  cases c with
  | event w => exact presentEvent_same w h h₁ h₂
  | enter k => exact enterHandler_same k h
  | context => exact contextStep_same h h₁ h₂
  | i2cByteOut => exact agentStep_same _ _ (h.update rfl rfl)
  | loseTxe => exact agentStep_same _ _ (h.update rfl rfl)
  | loseSb => exact agentStep_same _ _ (h.update rfl rfl)
  | loseSpi => exact agentStep_same _ _ (h.update rfl rfl)

end

/-- What two alike outcomes say of each other. -/
theorem SameResult.transfer {r r' : Result} (h : SameResult r r') :
    (∀ t, r = .next t → ∃ u, r' = .next u ∧ SameButVacant t u) ∧ (∀ f, r = .fault f → r' = .fault f) ∧
      ∀ e, r = .refused e → r' = .refused e := by
  cases h with
  | @next t u h =>
    refine ⟨fun t' ht => ⟨u, rfl, ?_⟩, fun _ hf => (by cases hf), fun _ he => (by cases he)⟩
    injection ht with ht
    exact ht ▸ h
  | fault f => exact ⟨fun _ ht => (by cases ht), fun _ hf => hf, fun _ he => (by cases he)⟩
  | refused e => exact ⟨fun _ ht => (by cases ht), fun _ hf => (by cases hf), fun _ he => he⟩

end Sys2Proof.Machine

open Sys2Proof.Machine

/-- Settles O18: every read of BUF is of the oldest byte, in an occupied slot, and every store fills the same slot of
both states. -/
theorem vacantSlotsAreNeverObserved : Obligations.VacantSlotsAreNeverObserved := by
  intro c s₁ s₂ h₁ h₂ h
  obtain ⟨m, rfl⟩ := h.exists_withBuf
  exact (stepChoice_same c h h₁ h₂).transfer

end

section
/-! PROOFS for what no step may change: TRACE only grows and SENS_RESULT has one writer (O47), the parameters and the
ceilings stay (O48). -/

namespace Sys2Proof.Machine

/-! ### TRACE and SENS_RESULT (R46, R55) -/

/-- EV.I2C_TXE emits at most one wire action. -/
theorem TxeDone.trace {s t : State} (h : TxeDone s t) : ∃ l, t.trace = s.trace ++ l ∧ l.length ≤ 1 := by
  have hpop : ∀ {b u}, s.pop = some (b, u) → u.trace = s.trace := fun hp => by
    rw [(State.pop_some hp).2.2]
  cases h with
  | starve => exact ⟨[], by simp, by simp⟩
  | suspend => exact ⟨[], by simp, by simp⟩
  | fold hd he hp => exact ⟨[], by simp [hpop hp], by simp⟩
  | ctrlNext => exact ⟨[_], rfl, le_rfl⟩
  | restart => exact ⟨[_], rfl, le_rfl⟩
  | ctrlHeader hd he hp => exact ⟨[_], by simp [hpop hp]; rfl, le_rfl⟩
  | dataHeader hd he hp => exact ⟨[_], by simp [hpop hp]; rfl, le_rfl⟩
  | ctrlByte hd hn he hp => exact ⟨[_], by simp [hpop hp]; rfl, le_rfl⟩
  | dataByte hd hn he hp => exact ⟨[_], by simp [hpop hp]; rfl, le_rfl⟩

/-- A completed instruction appends at most one wire action to TRACE, a sensor start its two. -/
theorem Done.trace {i : Instr} {s t : State} (h : Done s i t) :
    ∃ l, t.trace = s.trace ++ l ∧
      (l.length ≤ 1 ∨ ∃ r, l = [.spiSelect, .spiWrite r] ∧
        (i = .sensStartRead r ∨ ∃ v, i = .sensStartWrite r v)) := by
  cases h with
  | start hi => exact ⟨[.spiSelect, .spiWrite _], by simp, .inr ⟨_, rfl, hi⟩⟩
  | byteReady hd hp hr ht =>
    obtain ⟨l, hl, hn⟩ := ht.trace
    exact ⟨l, hl, .inl hn⟩
  | kickStopped => exact ⟨[_], rfl, .inl le_rfl⟩
  | addressNeeded => exact ⟨[_], rfl, .inl le_rfl⟩
  | spiFirst => exact ⟨[_], rfl, .inl le_rfl⟩
  | spiSecond => exact ⟨[_], rfl, .inl le_rfl⟩
  | read ha he hp => exact ⟨[], by simp [(State.pop_some hp).2.2], .inl (Nat.zero_le _)⟩
  | _ => exact ⟨[], by simp, .inl (Nat.zero_le _)⟩

/-- Of the completed instructions EV.SPI_RX in ReadSecond alone writes SENS_RESULT. -/
theorem Done.sensResult {i : Instr} {s t : State} (h : Done s i t) :
    t.sensResult = s.sensResult ∨ ∃ b, i = .evSpiRx b ∧ s.sensTag = .readSecond ∧ t.sensResult = b := by
  cases h with
  | spiSecond hd hb ht => exact .inr ⟨_, rfl, ht, rfl⟩
  | read ha he hp => exact .inl (by rw [(State.pop_some hp).2.2]; rfl)
  | byteReady hd hp hr ht => exact .inl (by rw [ht.frame])
  | _ => exact .inl rfl

/-- What the step of a choice may do to SENS_RESULT and to TRACE. -/
structure OutputStep (c : Choice) (s t : State) : Prop where
  result : t.sensResult = s.sensResult ∨ ∃ b, Runs c s (.evSpiRx b) ∧ s.sensTag = .readSecond ∧ t.sensResult = b
  trace  : ∃ l, t.trace = s.trace ++ l ∧
    (l.length ≤ 1 ∨ ∃ r, l = [.spiSelect, .spiWrite r] ∧
      (Runs c s (.sensStartRead r) ∨ ∃ v, Runs c s (.sensStartWrite r v)))

theorem OutputStep.quiet {c : Choice} {s t : State} (hr : t.sensResult = s.sensResult) (ht : t.trace = s.trace) :
    OutputStep c s t :=
  ⟨.inl hr, [], by simp [ht], .inl (Nat.zero_le _)⟩

theorem Done.output {c : Choice} {i : Instr} {s t : State} (hr : Runs c s i) (h : Done s i t) : OutputStep c s t where
  result := h.sensResult.imp_right fun ⟨b, hi, ht, hb⟩ => ⟨b, hi ▸ hr, ht, hb⟩
  trace := by
    obtain ⟨l, hl, hn⟩ := h.trace
    refine ⟨l, hl, hn.imp_right fun ⟨r, hlr, hi⟩ => ⟨r, hlr, ?_⟩⟩
    rcases hi with rfl | ⟨v, rfl⟩
    · exact .inl hr
    · exact .inr ⟨v, hr⟩

theorem stepChoice_output {c : Choice} {s t : State} (h : stepChoice c s = .next t) : OutputStep c s t := by
  refine stepChoice_rel (R := OutputStep c)
    (record := fun t ht => ?record) (place := fun t p ht => ⟨ht.result, ht.trace⟩)
    (done := fun i u hr _ hd => hd.output hr) (enter := fun k e _ _ _ => .quiet rfl rfl)
    (ends := fun f rest _ _ _ _ => .quiet rfl rfl) (idle := .quiet rfl rfl)
    (byteOut := fun _ => .quiet rfl rfl) (loseTxe := fun _ _ => .quiet rfl rfl)
    (loseSb := fun _ => .quiet rfl rfl) (loseSpi := fun _ => .quiet rfl rfl) h
  case record =>
    rw [ht]
    exact .quiet rfl rfl

/-! ### The parameters (R31, R49) -/

/-- Both states have the same parameters and ceilings. -/
structure SameParameters (s t : State) : Prop where
  cfg      : t.cfg = s.cfg
  ceilDisp : t.ceilDisp = s.ceilDisp
  ceilSens : t.ceilSens = s.ceilSens

theorem Done.sameParameters {i : Instr} {s t : State} (h : Done s i t) : SameParameters s t := by
  obtain ⟨hc, hd, hs, -⟩ := h.keeps
  exact ⟨hc, hd, hs⟩

theorem stepChoice_sameParameters {c : Choice} {s t : State} (h : stepChoice c s = .next t) : SameParameters s t := by
  refine stepChoice_rel (R := SameParameters)
    (record := fun t ht => ?record) (place := fun t p ht => ⟨ht.cfg, ht.ceilDisp, ht.ceilSens⟩)
    (done := fun i u _ _ hd => hd.sameParameters) (enter := fun k e _ _ _ => ⟨rfl, rfl, rfl⟩)
    (ends := fun f rest _ _ _ _ => ⟨rfl, rfl, rfl⟩) (idle := ⟨rfl, rfl, rfl⟩)
    (byteOut := fun _ => ⟨rfl, rfl, rfl⟩) (loseTxe := fun _ _ => ⟨rfl, rfl, rfl⟩)
    (loseSb := fun _ => ⟨rfl, rfl, rfl⟩) (loseSpi := fun _ => ⟨rfl, rfl, rfl⟩) h
  case record =>
    rw [ht]
    exact ⟨rfl, rfl, rfl⟩

end Sys2Proof.Machine

open Sys2Proof.Machine

/-- Settles O47: only completed instructions write either output. -/
theorem outputsOnlyGrow : Obligations.OutputsOnlyGrow :=
  fun _ _ _ hx => ⟨(stepChoice_output hx).result, (stepChoice_output hx).trace⟩

/-- Settles O48: no completed instruction and no other step writes the parameters or a ceiling. -/
theorem parametersNeverChange : Obligations.ParametersNeverChange := by
  intro s t hx
  obtain ⟨c, rest, hc⟩ := step_choice hx
  obtain ⟨hcfg, hd, hs⟩ := stepChoice_sameParameters hc
  exact ⟨hcfg, hd, hs⟩

end

section
/-! PROOFS that CSR.READ answers its row of the map of R59 (O38). -/

namespace Sys2Proof.Machine

/-! ### CSR.READ (R59, R290) -/

/-- A command whose rule raises a fault (R300). -/
theorem runCommand_raise {s : State} (hh : s.halted = false) (w : Word) (c : FaultCode) :
    runCommand w s (.raise c) = .next (commandFault s c w) :=
  runCommand_running hh w _

/-- A command that begins with access(r) raises the two faults of R170. -/
theorem accessFaults_of_runCommand {r : Resource} {i : Instr} {s : State} {a : Attempt} (hh : s.halted = false)
    (hx : exec i s = runCommand (encode i) s (Attempt.unless (s.accessRunning r) a)) : AccessFaults r i s := by
  constructor
  · intro h
    have ha : s.accessRunning r = some .arbAboveCeiling := State.access_above h
    rw [hx, ha, Attempt.unless_some, runCommand_raise hh]
  · intro hb hc
    have ha : s.accessRunning r = some .arbUnclaimed := State.access_unclaimed hb hc
    rw [hx, ha, Attempt.unless_some, runCommand_raise hh]

/-- A field of n bits above a lower part of k bits. -/
theorem toNat_append_eq {n k : Nat} (a : BitVec n) (b : BitVec k) : (a ++ b).toNat = b.toNat + 2 ^ k * a.toNat := by
  rw [BitVec.toNat_append, ← Nat.shiftLeft_add_eq_or_of_lt b.isLt, Nat.shiftLeft_eq]
  ring

/-- A CSR's word holds its row's fields at their places. -/
theorem csrValue_eq (c : Csr) (s : State) : csrValue c s = BitVec.ofNat 32 (csrFields c s) := by
  have harmed := s.dispArmed.toNat_lt
  have hwrite := s.sensIsWrite.toNat_lt
  have hhalted := s.halted.toNat_lt
  apply BitVec.eq_of_toNat_eq
  cases c with
  | arbBase | dispState | sensState | fault =>
    simp only [csrValue, csrFields, toNat_append_eq, BitVec.toNat_ofBool, BitVec.toNat_ofNat,
      BitVec.ofNat_eq_ofNat]
    omega
  | fifoWptr => simp [csrValue, csrFields, State.fifoWptr]
  | _ => simp [csrValue, csrFields]

theorem exec_csrRead_halted {s : State} (hh : s.halted = true) (c : Csr) :
    exec (.csrRead c) s = .next (s.respond (csrValue c s)) := by
  simp only [exec, execCsrRead, hh, if_true]

theorem exec_csrRead_running {s : State} (hh : s.halted = false) (c : Csr) :
    exec (.csrRead c) s = runCommand (encode (.csrRead c)) s
      (Attempt.unless (csrAccess c s) (.done (s.respond (csrValue c s)))) := by
  simp [exec, execCsrRead, hh]

/-- The access check of a row with a resource (R59). -/
theorem csrAccess_of_some {c : Csr} {r : Resource} (hr : csrResource c = some r) (s : State) :
    csrAccess c s = s.accessRunning r := by
  simp only [csrAccess, hr]

theorem csrAccess_of_none {c : Csr} (hr : csrResource c = none) (s : State) : csrAccess c s = none := by
  simp only [csrAccess, hr]

/-- The value with no check: on a halted block, and where the row's check passes or is none. -/
theorem exec_csrRead_value {c : Csr} {s : State} (h : s.halted = true ∨ csrAccess c s = none) :
    exec (.csrRead c) s = .next { s with rsp := some (BitVec.ofNat 32 (csrFields c s)) } := by
  rw [← csrValue_eq]
  by_cases hh : s.halted = true
  · exact exec_csrRead_halted hh c
  · rw [exec_csrRead_running (by simpa using hh), h.resolve_left hh, Attempt.unless_none,
      runCommand_running (by simpa using hh)]
    rfl

theorem csrResource_eq_disp (c : Csr) :
    csrResource c = some .disp ↔ c ∈ [Csr.fifoPtr, .fifoLen, .fifoWptr, .dispState, .dispLastErr] := by
  cases c <;> decide

theorem csrResource_eq_sens (c : Csr) :
    csrResource c = some .sens ↔ c ∈ [Csr.sensState, .sensResult, .sensLastErr] := by
  cases c <;> decide

end Sys2Proof.Machine

open Sys2Proof.Machine

/-- Settles O38: the value is `csrValue_eq`, and the row's check alone stands before it. -/
theorem csrReadAnswersItsRow : Obligations.CsrReadAnswersItsRow := by
  intro c s
  refine ⟨csrResource_eq_disp c, csrResource_eq_sens c, fun hh => exec_csrRead_value (.inl hh),
    fun _ hr => exec_csrRead_value (.inr (csrAccess_of_none hr s)), fun r hh hr => ⟨?_, fun ha => ?_⟩⟩
  · exact accessFaults_of_runCommand hh ((exec_csrRead_running hh c).trans (by rw [csrAccess_of_some hr]))
  · exact exec_csrRead_value (.inr ((csrAccess_of_some hr s).trans ha.accessRunning))

end

section
/-! PROOFS for the running context's step: it issues the decoded command of its next item (O7), and its place moves as
R113 says (O8). -/

namespace Sys2Proof.Machine

/-! ### Decoding a command (R101, R106, R109) -/

theorem port_of_onlyIf {z : Bool} {i j : Instr} (h : onlyIf z j = .ok i) (hj : j.port = .command) :
    i.port = .command := by
  unfold onlyIf at h
  split_ifs at h
  injection h with h
  exact h ▸ hj

theorem port_of_checked {z : Bool} {o : Option Instr} {i : Instr} (h : checked z o = .ok i)
    (ho : ∀ j, o = some j → j.port = .command) : i.port = .command := by
  unfold checked at h
  split_ifs at h
  cases o with
  | none => cases h
  | some j =>
    injection h with h
    exact h ▸ ho j rfl

theorem decodeFifo_port {op : BitVec 4} {b a : Byte} {i : Instr} (h : decodeFifo op b a = .ok i) :
    i.port = .command := by
  unfold decodeFifo at h
  split_ifs at h <;> exact port_of_onlyIf h rfl

theorem decodeArb_port {op : BitVec 4} {b a : Byte} {i : Instr} (h : decodeArb op b a = .ok i) :
    i.port = .command := by
  unfold decodeArb at h
  split_ifs at h <;> exact port_of_onlyIf h rfl

theorem decodeDisp_port {op : BitVec 4} {b a : Byte} {i : Instr} (h : decodeDisp op b a = .ok i) :
    i.port = .command := by
  unfold decodeDisp at h
  split_ifs at h <;> exact port_of_onlyIf h rfl

theorem decodeSens_port {op : BitVec 4} {b a : Byte} {i : Instr} (h : decodeSens op b a = .ok i) :
    i.port = .command := by
  unfold decodeSens at h
  split_ifs at h
  · exact port_of_onlyIf h rfl
  · injection h with h
    exact h ▸ rfl

theorem decodeRes_port {op : BitVec 4} {b a : Byte} {i : Instr} (h : decodeRes op b a = .ok i) :
    i.port = .command := by
  unfold decodeRes at h
  split_ifs at h
  · exact port_of_onlyIf h rfl
  · refine port_of_checked h fun j hj => ?_
    obtain ⟨prior, -, hj⟩ := Option.bind_eq_some_iff.mp hj
    obtain ⟨next, -, rfl⟩ := Option.map_eq_some_iff.mp hj
    rfl

theorem decodeCsr_port {op : BitVec 4} {b a : Byte} {i : Instr} (h : decodeCsr op b a = .ok i) :
    i.port = .command := by
  unfold decodeCsr at h
  split_ifs at h
  refine port_of_checked h fun j hj => ?_
  obtain ⟨c, -, rfl⟩ := Option.map_eq_some_iff.mp hj
  rfl

/-- A word that decodes on the command port is a command's. -/
theorem decodeCommand_port {w : Word} {i : Instr} (h : decode .command w = .ok i) : i.port = .command := by
  change decodeCommand w = .ok i at h
  unfold decodeCommand at h
  split_ifs at h
  · exact decodeFifo_port h
  · exact decodeArb_port h
  · exact decodeDisp_port h
  · exact decodeSens_port h
  · exact decodeRes_port h
  · exact decodeCsr_port h

/-- A word's four bytes, before others, decode as the word does (R74). -/
theorem decodeBytes_bytes {p : Port} {w : Word} {i : Instr} (h : decode p w = .ok i) (more : List Byte) :
    decodeBytes p (w.bytes ++ more) = .ok (i, more) := by
  show (decode p (Word.ofBytes _ _ _ _)).map (fun i => (i, more)) = .ok (i, more)
  rw [Word.ofBytes_bytes, h]
  rfl

/-! ### A command's response and its context's step (R57, R104, R309) -/

/-- A completed command responds. -/
theorem Done.responds {i : Instr} {s t : State} (h : Done s i t) (hp : i.port = .command) : t.rsp ≠ none := by
  cases h with
  | addressNeeded | byteReady | i2cErr | i2cErrStop | spiFirst | spiSecond | spiFail | trigger => cases hp
  | _ => exact Option.some_ne_none _

/-- A command that answers a next state responds (R104). -/
theorem exec_responds {i : Instr} {s t : State} (hp : i.port = .command) (h : exec i s = .next t) :
    t.rsp ≠ none := by
  cases exec_next h with
  | haltedEvent hh he => rw [hp] at he; cases he
  | eventFault hh he hc => rw [hp] at he; cases he
  | haltedCommand | commandFault => exact Option.some_ne_none _
  | done hh hd => exact hd.responds hp

theorem issueCommand_of_ok {w : Word} {i : Instr} (h : decode .command w = .ok i) (s : State) :
    issueCommand w s = exec i s := by
  simp only [issueCommand, h]

theorem issueCommand_of_error {w : Word} {e : DecodeError} (h : decode .command w = .error e) (s : State) :
    issueCommand w s = .next
      (if s.halted then { s with rsp := some (BitVec.ofNat 32 (2 ^ 31 + s.faultCode.code.toNat)) }
        else commandFault s .illegalCmd w) := by
  simp only [issueCommand, h]
  split_ifs with hh
  · rw [runCommand_halted hh, faultResponse_eq]
    rfl
  · exact runCommand_raise (by simpa using hh) _ _

/-- An issued word that answers a next state is responded to, illegal or not (R104, R300). -/
theorem issueCommand_responds {w : Word} {s t : State} (h : issueCommand w s = .next t) : t.rsp ≠ none := by
  cases hd : decode .command w with
  | ok i =>
    rw [issueCommand_of_ok hd] at h
    exact exec_responds (decodeCommand_port hd) h
  | error e =>
    rw [issueCommand_of_error hd] at h
    injection h with h
    subst h
    split_ifs <;> exact Option.some_ne_none _

/-- Of the commands an incomplete DISP.WAITDRAIN alone has no step (R202). -/
theorem issueCommand_refused {w : Word} {s : State} {r : Refusal} (h : issueCommand w s = .refused r) :
    decode .command w = .ok .dispWaitdrain := by
  cases hd : decode .command w with
  | ok i =>
    rw [issueCommand_of_ok hd] at h
    rcases exec_refused h with ⟨hp, -⟩ | ⟨rfl, -⟩
    · rw [decodeCommand_port hd] at hp
      cases hp
    · rfl
  | error e =>
    rw [issueCommand_of_error hd] at h
    cases h

theorem State.advance_of_rsp {s : State} {v : Word} (h : s.rsp = some v) (it : Item) :
    s.advance it = { s with running := { s.running with place := placeAfter it v s.running.place } } := by
  simp only [State.advance, h, State.setRunning]

/-- The running context's step at an item, with no delivery forced (R309). -/
theorem contextStep_of_item {s : State} {it : Item} (hf : s.forced = 0)
    (he : ¬ (s.running.ctx = 0 ∧ s.idleDone = true)) (hi : s.item = some it) :
    contextStep s = mapNext (issueCommand it.word s) fun t => t.advance it := by
  simp only [contextStep, hf, ne_eq, not_true_eq_false, if_false, if_neg he, hi]

/-! ### A context's place (R57, R113) -/

/-- The pairs of another name do not decide what a name is bound to. -/
theorem lookup_filter_ne {n k : Nat} (h : n ≠ k) (vars : List (Nat × Word)) :
    (vars.filter fun p => p.1 ≠ k).lookup n = vars.lookup n := by
  induction vars with
  | nil => rfl
  | cons p vars ih =>
    obtain ⟨a, w⟩ := p
    by_cases ha : a = k
    · rw [List.filter_cons_of_neg (by simpa using ha), ih, List.lookup_cons, ha, beq_false_of_ne h]
    · rw [List.filter_cons_of_pos (by simpa using ha), List.lookup_cons, List.lookup_cons, ih]

/-- A bound name has its response and every other name its own. -/
theorem lookup_bindName (n k : Nat) (v : Word) (vars : List (Nat × Word)) :
    (bindName k v vars).lookup n = if k = n then some v else vars.lookup n := by
  rw [bindName, List.lookup_cons]
  split_ifs with hk
  · rw [hk, beq_self_eq_true]
  · rw [beq_false_of_ne (Ne.symm hk)]
    exact lookup_filter_ne (Ne.symm hk) vars

/-- After a command completes its item's name is bound to the response, and no other name is changed (R113). -/
theorem lookup_varsAfter (it : Item) (v : Word) (vars : List (Nat × Word)) (n : Nat) :
    (varsAfter it v vars).lookup n = if it.bind = some n then some v else vars.lookup n := by
  unfold varsAfter
  cases it.bind with
  | none => simp
  | some k => simp [lookup_bindName]

/-- Loops whose tests hold are left behind. -/
theorem nextPos_append {vars : List (Nat × Word)} {inner : List LoopEnd}
    (h : ∀ l ∈ inner, testHolds vars l.test = true) (pos : Nat) (outer : List LoopEnd) :
    nextPos vars pos (inner ++ outer) = nextPos vars pos outer := by
  induction inner with
  | nil => rfl
  | cons l inner ih =>
    obtain ⟨hl, hi⟩ := List.forall_mem_cons.mp h
    rw [List.cons_append, nextPos, if_pos hl, ih hi]

/-- A loop whose test is false is done again. -/
theorem nextPos_of_false {vars : List (Nat × Word)} {l : LoopEnd} (h : testHolds vars l.test = false) (pos : Nat)
    (outer : List LoopEnd) : nextPos vars pos (l :: outer) = pos - l.back := by
  simp [nextPos, h]

/-- The loop's end is put at the last item. -/
theorem closeLoop_append (first : Program) (last : Item) (t : Test) (k : Nat) :
    closeLoop t k (first ++ [last]) =
      first ++ [{ last with loops := last.loops ++ [{ test := t, back := k + first.length }] }] := by
  induction first generalizing k with
  | nil => rfl
  | cons i first ih =>
    obtain ⟨j, rest, hj⟩ : ∃ j rest, first ++ [last] = j :: rest := List.exists_cons_of_ne_nil (by simp)
    have hstep : closeLoop t k (i :: (first ++ [last])) = i :: closeLoop t (k + 1) (first ++ [last]) := by
      rw [hj, closeLoop]
    rw [List.cons_append, hstep, ih, List.length_cons, List.cons_append, Nat.add_right_comm, Nat.add_assoc]

theorem testHolds_field {vars : List (Nat × Word)} {n : Nat} {w : Word} (h : vars.lookup n = some w)
    (hi lo value : Nat) :
    testHolds vars (.field n hi lo value) = true ↔ w.toNat / 2 ^ lo % 2 ^ (hi + 1 - lo) = value := by
  simp [testHolds, h, Nat.shiftRight_eq_div_pow]

end Sys2Proof.Machine

open Sys2Proof Sys2Proof.Machine

/-- Settles O7: the step is the issued word's outcome with the place moved by its item, and every command responds. -/
theorem stepRunsTheDecodedCommand : Obligations.StepRunsTheDecodedCommand := by
  intro s t rest it hs ht hf he hi
  refine ⟨fun i hd more => decodeBytes_bytes hd more, fun o ho => ?_⟩
  have hforced : t.forced = 0 := hf.elim State.forced_of_halted State.forced_of_nothing
  have hstep : step s = mapNext (issueCommand it.word t) fun u => u.advance it := by
    rw [← contextStep_of_item hforced he hi, ht]
    simp only [step, hs]
    rfl
  have hissue : o = issueCommand it.word t := by
    rcases ho with ⟨i, hd, rfl⟩ | ⟨e, hd, rfl⟩
    · exact (issueCommand_of_ok hd t).symm
    · exact (issueCommand_of_error hd t).symm
  rw [← hissue] at hstep
  refine ⟨hissue, fun u v hu hv => ?_, fun u hu => ?_, fun r hr => ⟨?_, ?_⟩, fun f hf => ?_⟩
  · rw [hstep, hu, ← State.advance_of_rsp hv it]
    rfl
  · exact issueCommand_responds (hissue.symm.trans hu)
  · exact issueCommand_refused (hissue.symm.trans hr)
  · rw [hstep, hr]
    rfl
  · rw [hstep, hf]
    rfl

/-- Settles O8: the next position is a recursion over the loops that end with the item, the binding one over
the names. -/
theorem placesMoveAsR113Says : Obligations.PlacesMoveAsR113Says := by
  refine ⟨fun it v p => ⟨rfl, lookup_varsAfter it v p.vars⟩, fun it v p h => ?_,
    fun it v p inner outer l hl hi hf => ?_, fun first last t => ?_,
    fun vars n hi lo value w _ hw => testHolds_field hw hi lo value, fun vars t u => ?_⟩
  · have hpos := nextPos_append h p.pos []
    rwa [List.append_nil] at hpos
  · calc (placeAfter it v p).pos
      _ = nextPos (placeAfter it v p).vars p.pos (inner ++ l :: outer) := by rw [← hl]; rfl
      _ = nextPos (placeAfter it v p).vars p.pos (l :: outer) := nextPos_append hi _ _
      _ = p.pos - l.back := nextPos_of_false hf _ _
  · rw [repeatUntil, closeLoop_append, Nat.zero_add]
  · simp [testHolds]

end

section
/-! PROOFS for the reset values of every parameter set and every draw (O53). -/

namespace Sys2Proof.Machine

/-! ### Reset (R9, R60) -/

/-- BUF filled from slot i on reads back the bytes. -/
theorem read_bufFrom {bs : List Byte} {i k : Nat} (h : k < bs.length) :
    Memory.read (bufFrom i bs) (i + k) = bs.getD k 0 := by
  induction bs generalizing i k with
  | nil => cases h
  | cons b bs ih =>
    cases k with
    | zero =>
      have hbelow : Memory.read (bufFrom (i + 1) bs) i = Memory.unlisted :=
        Memory.read_of_below fun c hc => (mem_bufFrom hc).1
      unfold bufFrom
      split_ifs with hb
      · exact hbelow.trans hb.symm
      · exact if_pos rfl
    | succ k =>
      have htail : Memory.read (bufFrom (i + 1) bs) (i + (k + 1)) = bs.getD k 0 := by
        rw [← ih (i := i + 1) (Nat.lt_of_succ_lt_succ h)]
        congr 1
        omega
      unfold bufFrom
      split_ifs with hb
      · exact htail
      · rw [Memory.read_cons, if_neg (by show i ≠ _; omega)]
        exact htail

/-- A handler's priority range with a strict upper bound, where NPRIO is admitted. -/
theorem Config.handlerPrio_iff {c : Config} (h : 2 ≤ c.nprio) (p : Prio) :
    c.handlerPrio p = true ↔ 1 ≤ p.toNat ∧ p.toNat < c.nprio := by
  simp only [Config.handlerPrio, Bool.and_eq_true, decide_eq_true_eq]
  omega

/-- R351: a set that fails R9, and no other, has no reset state. -/
theorem State.resetWith_isSome (c : Config) (b : Boot) : (State.resetWith c b).isSome = true ↔ c.wf = true := by
  unfold State.resetWith
  split_ifs with h <;> simp [h]

/-- Reset fills BUF with the drawn bytes, as far as there are slots (R353). -/
theorem read_bufFrom_take {bs : List Byte} {n k : Nat} (hn : k < n) (hk : k < bs.length) :
    Memory.read (bufFrom 0 (bs.take n)) k = bs.getD k 0 := by
  have hread : Memory.read (bufFrom 0 (bs.take n)) (0 + k) = (bs.take n).getD k 0 :=
    read_bufFrom (by rw [List.length_take]; omega)
  rw [Nat.zero_add] at hread
  exact hread.trans (by simp [List.getD_eq_getElem?_getD, hn])

end Sys2Proof.Machine

open Sys2Proof Sys2Proof.Machine

/-- Settles O53: the constraints are those of `Config.wf`, and the reset state is read off its definition. -/
theorem resetValues : Obligations.ResetValues := by
  intro c b
  refine ⟨(State.resetWith_isSome c b).trans ?constraints, fun s hs => ?values, fun _ => rfl⟩
  case constraints =>
    by_cases hn : 2 ≤ c.nprio
    · simp only [Config.wf, Bool.and_eq_true, decide_eq_true_eq, List.all_eq_true, Config.handlerPrio_iff hn,
        and_assoc]
    · simp [Config.wf, hn]
  case values =>
    unfold State.resetWith at hs
    split_ifs at hs
    cases hs
    exact ⟨rfl, rfl, rfl, rfl, rfl, rfl, rfl, rfl, rfl, rfl, rfl, rfl, rfl, rfl, rfl, rfl, rfl, rfl, rfl, rfl, rfl,
      rfl, fun k hc hk => read_bufFrom_take hc hk⟩

end

section
/-! PROOFS that a step on an event word runs the event it decodes to, or takes the fault of an illegal word (O6). -/

namespace Sys2Proof.Machine

theorem step_of_event {s : State} {w : Word} {rest : List Choice} (h : s.schedule = .event w :: rest) :
    step s = presentEvent w (s.begin rest) := by
  simp only [step, h, stepChoice]

theorem presentEvent_of_ok {w : Word} {i : Instr} (h : decode .event w = .ok i) (s : State) :
    presentEvent w s = exec i s := by
  simp only [presentEvent, h]

/-- An illegal event word is always a step, and its fault's context is the event port's (R300, R311). -/
theorem presentEvent_of_error {w : Word} {e : DecodeError} (h : decode .event w = .error e) (s : State) :
    presentEvent w s = .next (if s.halted then s else eventFault s .illegalCmd w 0xD) := by
  simp only [presentEvent, h]
  split_ifs with hh
  · exact runEvent_halted hh _ _ _ _
  · exact runEvent_running (by simpa using hh) _ _ _

end Sys2Proof.Machine

open Sys2Proof Sys2Proof.Machine

/-- Settles O6: the step presents the word, and what is presented is decoded once. -/
theorem stepRunsTheDecodedEvent : Obligations.StepRunsTheDecodedEvent := by
  intro s t w rest hs ht
  have hstep : step s = presentEvent w t := ht ▸ step_of_event hs
  exact ⟨hstep, fun i hd => hstep.trans (presentEvent_of_ok hd t),
    fun e hd => hstep.trans (presentEvent_of_error hd t)⟩

end

section
/-! PROOFS for the statements on the encoding: decoding inverts encoding (O1), and every word that decodes is an
encoding (O2). -/

namespace Sys2Proof

/-! ### Operand fields (R102, R103)

A field that leaves the high bits of its byte unused is written `x.toNat < 2 ^ k`, in rows and in decoders. -/

/-- The unused high bits of a byte are 0 where the byte is below the field's bound. -/
theorem extractLsb'_eq_zero_iff {k m : Nat} (hkm : k + m = 8) {x : Byte} :
    x.extractLsb' k m = 0 ↔ x.toNat < 2 ^ k := by
  have hx : x.toNat / 2 ^ k < 2 ^ m := by
    rw [Nat.div_lt_iff_lt_mul (Nat.two_pow_pos k), ← Nat.pow_add, Nat.add_comm, hkm]
    exact x.isLt
  rw [← BitVec.toNat_inj, BitVec.extractLsb'_toNat, Nat.shiftRight_eq_div_pow, Nat.mod_eq_of_lt hx]
  exact Nat.div_eq_zero_iff_lt (Nat.two_pow_pos k)

/-- A field put into a byte stays below its bound. -/
theorem toNat_setWidth_lt {k : Nat} (hk : k ≤ 8) (n : BitVec k) : (n.setWidth 8).toNat < 2 ^ k := by
  rw [BitVec.toNat_setWidth_of_le hk]
  exact n.isLt

/-- A byte below a field's bound is that field. -/
theorem setWidth_extractLsb'_of_lt {k : Nat} {x : Byte} (hx : x.toNat < 2 ^ k) :
    (x.extractLsb' 0 k).setWidth 8 = x := by
  apply BitVec.eq_of_toNat_eq
  rw [BitVec.toNat_setWidth, BitVec.extractLsb'_toNat, Nat.shiftRight_zero, Nat.mod_eq_of_lt hx,
    Nat.mod_eq_of_lt x.isLt]

/-- A field is read back from the byte it was put into. -/
theorem extractLsb'_setWidth {k : Nat} (hk : k ≤ 8) (n : BitVec k) : (n.setWidth 8).extractLsb' 0 k = n := by
  rw [← BitVec.setWidth_eq_extractLsb' hk, BitVec.setWidth_setWidth_of_le _ hk, BitVec.setWidth_eq]

theorem Resource.number_ofNumber (n : BitVec 1) : (Resource.ofNumber n).number = n := by
  revert n
  decide

/-- ARB.CLAIM's operand byte is its resource's number (R106). -/
theorem Resource.number_setWidth {x : Byte} (hx : x.toNat < 2 ^ 1) :
    (Resource.ofNumber (x.extractLsb' 0 1)).number.setWidth 8 = x := by
  rw [Resource.number_ofNumber, setWidth_extractLsb'_of_lt hx]

/-- RES.CLASSIFY's byte B is its flag (R102). -/
theorem ofBool_getLsbD_setWidth {x : Byte} (hx : x.toNat < 2 ^ 1) :
    (BitVec.ofBool (x.getLsbD 0)).setWidth 8 = x := by
  have h01 : x = 0 ∨ x = 1 := by bv_omega
  rcases h01 with rfl | rfl <;> rfl

theorem eventKind_eq_some {x : Byte} {k : ErrorKind} :
    eventKind x = some k ↔ ErrorKind.ofCode (x.extractLsb' 0 3) = some k ∧ k ≠ .none := by
  simp [eventKind, Option.filter_eq_some_iff]

theorem eventKind_code {k : ErrorKind} (hk : k ≠ .none) : eventKind (k.code.setWidth 8) = some k := by
  rw [eventKind_eq_some, extractLsb'_setWidth (by decide)]
  exact ⟨ErrorKind.ofCode_code k, hk⟩

/-- An error event's operand byte is its kind's code (R107). -/
theorem code_of_eventKind {x : Byte} {k : ErrorKind} (hx : x.toNat < 2 ^ 3) (h : eventKind x = some k) :
    k.code.setWidth 8 = x := by
  rw [ErrorKind.code_of_ofCode (eventKind_eq_some.mp h).1, setWidth_extractLsb'_of_lt hx]

/-! ### Decoders -/

theorem onlyIf_eq_ok {z : Bool} {i j : Instr} : onlyIf z i = .ok j ↔ z = true ∧ i = j := by
  cases z <;> simp [onlyIf]

theorem checked_eq_ok {z : Bool} {o : Option Instr} {j : Instr} : checked z o = .ok j ↔ z = true ∧ o = some j := by
  cases z <;> cases o <;> simp [checked]

/-- What the command port decodes, by the units of R106; Z is unused in every row (R103). -/
theorem decode_command_eq_ok {w : Word} {i : Instr} : decode .command w = .ok i ↔
    w.z = 0 ∧ (w.unit = 0x0 ∧ decodeFifo w.op w.b w.a = .ok i ∨ w.unit = 0x1 ∧ decodeArb w.op w.b w.a = .ok i ∨
      w.unit = 0x2 ∧ decodeDisp w.op w.b w.a = .ok i ∨ w.unit = 0x3 ∧ decodeSens w.op w.b w.a = .ok i ∨
      w.unit = 0x4 ∧ decodeRes w.op w.b w.a = .ok i ∨ w.unit = 0x5 ∧ decodeCsr w.op w.b w.a = .ok i) := by
  simp only [decode, decodeCommand]
  split_ifs with hF h6 hz h0 h1 h2 h3 h4
  · simp [hF]
  · refine iff_of_false nofun ?_
    rintro ⟨-, ⟨hu, -⟩ | ⟨hu, -⟩ | ⟨hu, -⟩ | ⟨hu, -⟩ | ⟨hu, -⟩ | ⟨hu, -⟩⟩ <;> simp [hu] at h6
  · exact iff_of_false nofun fun h => hz h.1
  case neg =>
    have h5 : w.unit = 0x5 := by bv_omega
    simp_all
  all_goals simp_all

/-- What the event port decodes (R107). -/
theorem decode_event_eq_ok {w : Word} {i : Instr} :
    decode .event w = .ok i ↔ w.z = 0 ∧ w.unit = 0xF ∧ decodeEv w.op w.b w.a = .ok i := by
  simp only [decode, decodeEvent]
  split_ifs with hu hz <;> simp_all

theorem unit_of_decode_command {w : Word} {i : Instr} (h : decode .command w = .ok i) : w.unit.toNat < 0x6 := by
  obtain ⟨-, h⟩ := decode_command_eq_ok.mp h
  rcases h with ⟨hu, -⟩ | ⟨hu, -⟩ | ⟨hu, -⟩ | ⟨hu, -⟩ | ⟨hu, -⟩ | ⟨hu, -⟩ <;> simp [hu]

theorem unit_of_decode_event {w : Word} {i : Instr} (h : decode .event w = .ok i) : w.unit = 0xF :=
  (decode_event_eq_ok.mp h).2.1

/-! ### Decoding inverts encoding -/

/-- A well-formed instruction, its port and its word. -/
structure Instr.HasWord (i : Instr) (p : Port) (w : Word) : Prop where
  word : encode i = w
  port : i.port = p
  wf   : i.wf = true

/-- Decoding an instruction's word on its port gives it back: the
fields that `encode` packs are the ones its decoder reads. -/
theorem decode_encode {i : Instr} (h : i.wf = true) : decode i.port (encode i) = .ok i := by
  have low {k m : Nat} (hkm : k + m = 8) (n : BitVec k) : (n.setWidth 8).extractLsb' k m = 0 :=
    (extractLsb'_eq_zero_iff hkm).mpr (toNat_setWidth_lt (by omega) n)
  have field {k : Nat} (hk : k ≤ 8) (n : BitVec k) := extractLsb'_setWidth hk n
  cases i with
  | fifoWrite | fifoRead | fifoPeek | fifoLen | fifoIsempty =>
    simp [decode_command_eq_ok, Instr.port, encode, decodeFifo, onlyIf]
  | arbClaim r =>
    simp [decode_command_eq_ok, Instr.port, encode, decodeArb, onlyIf, low, field, Resource.ofNumber_number]
  | arbRelease => simp [decode_command_eq_ok, Instr.port, encode, decodeArb, onlyIf]
  | dispKick | dispWaitdrain => simp [decode_command_eq_ok, Instr.port, encode, decodeDisp, onlyIf]
  | sensStartRead | sensStartWrite => simp [decode_command_eq_ok, Instr.port, encode, decodeSens, onlyIf]
  | resClassify status polled =>
    simp [decode_command_eq_ok, Instr.port, encode, decodeRes, onlyIf, low, field]
  | resCont prior next =>
    simp [decode_command_eq_ok, Instr.port, encode, decodeRes, checked, BusResult.ofCode_code]
  | csrRead c => simp [decode_command_eq_ok, Instr.port, encode, decodeCsr, checked, Csr.ofNumber_number]
  | evI2cSb | evI2cTxe | evSpiRx => simp [decode_event_eq_ok, Instr.port, encode, decodeEv, onlyIf]
  | evI2cErr k | evSpiRxfail k =>
    have hk : k ≠ .none := of_decide_eq_true h
    simp [decode_event_eq_ok, Instr.port, encode, decodeEv, checked, low, eventKind_code hk]
  | evSwTrigger k =>
    have hk : 1 ≤ k.toNat ∧ k.toNat ≤ 12 := by simpa [Instr.wf] using h
    simp [decode_event_eq_ok, Instr.port, encode, decodeEv, checked, low, field, hk]

theorem Instr.HasWord.decode {i : Instr} {p : Port} {w : Word} (h : i.HasWord p w) : decode p w = .ok i := by
  obtain ⟨rfl, rfl, hwf⟩ := h
  exact decode_encode hwf

/-- A row without an operand: both operand bytes are unused (R103). -/
theorem Instr.HasWord.of_noOperand {i j : Instr} {p : Port} {u op : BitVec 4} {b a : Byte}
    (hi : i.HasWord p (Word.pack u op 0 0 0)) (h : onlyIf (b == 0 && a == 0) i = .ok j) :
    j.HasWord p (Word.pack u op 0 b a) := by
  simp only [onlyIf_eq_ok, Bool.and_eq_true, beq_iff_eq] at h
  obtain ⟨⟨rfl, rfl⟩, rfl⟩ := h
  exact hi

/-- A row whose operand is byte A: byte B is unused. -/
theorem Instr.HasWord.of_byteOperand {i j : Instr} {p : Port} {u op : BitVec 4} {b a : Byte}
    (hi : i.HasWord p (Word.pack u op 0 0 a)) (h : onlyIf (b == 0) i = .ok j) :
    j.HasWord p (Word.pack u op 0 b a) := by
  simp only [onlyIf_eq_ok, beq_iff_eq] at h
  obtain ⟨rfl, rfl⟩ := h
  exact hi

/-- A row whose operand is the kind of an error event (R107). -/
theorem Instr.HasWord.of_kindOperand {f : ErrorKind → Instr} {j : Instr} {p : Port} {u op : BitVec 4} {b a : Byte}
    (h : checked (b == 0 && a.extractLsb' 3 5 == 0) ((eventKind a).map f) = .ok j)
    (hf : ∀ k, k ≠ .none → (f k).HasWord p (Word.pack u op 0 0 (k.code.setWidth 8))) :
    j.HasWord p (Word.pack u op 0 b a) := by
  simp only [checked_eq_ok, Option.map_eq_some_iff, Bool.and_eq_true, beq_iff_eq, extractLsb'_eq_zero_iff] at h
  obtain ⟨⟨rfl, ha⟩, k, hk, rfl⟩ := h
  exact code_of_eventKind ha hk ▸ hf k (eventKind_eq_some.mp hk).2

theorem decodeFifo_hasWord {op : BitVec 4} {b a : Byte} {i : Instr} (h : decodeFifo op b a = .ok i) :
    i.HasWord .command (Word.pack 0x0 op 0 b a) := by
  unfold decodeFifo at h
  split_ifs at h <;> subst op
  · exact .of_byteOperand ⟨rfl, rfl, rfl⟩ h
  all_goals exact .of_noOperand ⟨rfl, rfl, rfl⟩ h

theorem decodeArb_hasWord {op : BitVec 4} {b a : Byte} {i : Instr} (h : decodeArb op b a = .ok i) :
    i.HasWord .command (Word.pack 0x1 op 0 b a) := by
  unfold decodeArb at h
  split_ifs at h <;> subst op
  · simp only [onlyIf_eq_ok, Bool.and_eq_true, beq_iff_eq, extractLsb'_eq_zero_iff] at h
    obtain ⟨⟨rfl, ha⟩, rfl⟩ := h
    exact ⟨by rw [encode, Resource.number_setWidth ha], rfl, rfl⟩
  · exact .of_noOperand ⟨rfl, rfl, rfl⟩ h

theorem decodeDisp_hasWord {op : BitVec 4} {b a : Byte} {i : Instr} (h : decodeDisp op b a = .ok i) :
    i.HasWord .command (Word.pack 0x2 op 0 b a) := by
  unfold decodeDisp at h
  split_ifs at h <;> subst op
  all_goals exact .of_noOperand ⟨rfl, rfl, rfl⟩ h

theorem decodeSens_hasWord {op : BitVec 4} {b a : Byte} {i : Instr} (h : decodeSens op b a = .ok i) :
    i.HasWord .command (Word.pack 0x3 op 0 b a) := by
  unfold decodeSens at h
  split_ifs at h <;> subst op
  · exact .of_byteOperand ⟨rfl, rfl, rfl⟩ h
  · cases h
    exact ⟨rfl, rfl, rfl⟩

theorem decodeRes_hasWord {op : BitVec 4} {b a : Byte} {i : Instr} (h : decodeRes op b a = .ok i) :
    i.HasWord .command (Word.pack 0x4 op 0 b a) := by
  unfold decodeRes at h
  split_ifs at h <;> subst op
  · simp only [onlyIf_eq_ok, Bool.and_eq_true, beq_iff_eq, extractLsb'_eq_zero_iff] at h
    obtain ⟨⟨hb, ha⟩, rfl⟩ := h
    exact ⟨by rw [encode, ofBool_getLsbD_setWidth hb, setWidth_extractLsb'_of_lt ha], rfl, rfl⟩
  · simp only [checked_eq_ok, Option.bind_eq_some_iff, Option.map_eq_some_iff, true_and] at h
    obtain ⟨prior, ha, next, hb, rfl⟩ := h
    exact ⟨by rw [encode, BusResult.code_of_ofCode ha, BusResult.code_of_ofCode hb], rfl, rfl⟩

theorem decodeCsr_hasWord {op : BitVec 4} {b a : Byte} {i : Instr} (h : decodeCsr op b a = .ok i) :
    i.HasWord .command (Word.pack 0x5 op 0 b a) := by
  unfold decodeCsr at h
  split_ifs at h
  subst op
  simp only [checked_eq_ok, Option.map_eq_some_iff, beq_iff_eq] at h
  obtain ⟨rfl, c, ha, rfl⟩ := h
  exact ⟨by rw [encode, Csr.number_of_ofNumber ha], rfl, rfl⟩

theorem decodeEv_hasWord {op : BitVec 4} {b a : Byte} {i : Instr} (h : decodeEv op b a = .ok i) :
    i.HasWord .event (Word.pack 0xF op 0 b a) := by
  unfold decodeEv at h
  split_ifs at h with _ _ _ _ _ _ hid <;> subst op
  · exact .of_noOperand ⟨rfl, rfl, rfl⟩ h
  · exact .of_noOperand ⟨rfl, rfl, rfl⟩ h
  · exact .of_kindOperand h fun _ hk => ⟨rfl, rfl, decide_eq_true hk⟩
  · exact .of_byteOperand ⟨rfl, rfl, rfl⟩ h
  · exact .of_kindOperand h fun _ hk => ⟨rfl, rfl, decide_eq_true hk⟩
  · simp only [checked_eq_ok, Option.some.injEq, Bool.and_eq_true, beq_iff_eq, extractLsb'_eq_zero_iff] at h
    obtain ⟨⟨rfl, ha⟩, rfl⟩ := h
    exact ⟨by rw [encode, setWidth_extractLsb'_of_lt ha], rfl, by simpa [Instr.wf] using hid⟩
  · cases (checked_eq_ok.mp h).2

theorem Word.eq_pack {w : Word} {u o : BitVec 4} {z b a : Byte} (hu : w.unit = u) (ho : w.op = o) (hz : w.z = z)
    (hb : w.b = b) (ha : w.a = a) : w = Word.pack u o z b a := by
  rw [← hu, ← ho, ← hz, ← hb, ← ha, Word.pack_fields]

/-- What decodes has the word it was decoded from. -/
theorem decode_hasWord {p : Port} {w : Word} {i : Instr} (h : decode p w = .ok i) : i.HasWord p w := by
  have hw {u : BitVec 4} (hz : w.z = 0) (hu : w.unit = u) : w = Word.pack u w.op 0 w.b w.a :=
    Word.eq_pack hu rfl hz rfl rfl
  cases p with
  | command =>
    obtain ⟨hz, h⟩ := decode_command_eq_ok.mp h
    rcases h with ⟨hu, h⟩ | ⟨hu, h⟩ | ⟨hu, h⟩ | ⟨hu, h⟩ | ⟨hu, h⟩ | ⟨hu, h⟩ <;> rw [hw hz hu]
    · exact decodeFifo_hasWord h
    · exact decodeArb_hasWord h
    · exact decodeDisp_hasWord h
    · exact decodeSens_hasWord h
    · exact decodeRes_hasWord h
    · exact decodeCsr_hasWord h
  | event =>
    obtain ⟨hz, hu, h⟩ := decode_event_eq_ok.mp h
    rw [hw hz hu]
    exact decodeEv_hasWord h

end Sys2Proof

open Sys2Proof

/-- Settles O1: each unit's decoder reads back the operand bytes that `encode` packs. -/
theorem decodeInvertsEncode : Obligations.DecodeInvertsEncode :=
  fun _ h => decode_encode h

/-- Settles O2: each unit's decoder answers an instruction only on the bytes that encode it. -/
theorem decodedWordsEncodeBack : Obligations.DecodedWordsEncodeBack := by
  intro p w i h
  obtain ⟨hw, hp, hwf⟩ := decode_hasWord h
  exact ⟨hw, hp, hwf⟩

end

section
/-! PROOFS for the statements on the opcode table: a word that a row accepts is an instruction's word (O3), every other
word is illegal (O4); the worked encodings (O5). -/

namespace Sys2Proof

/-! ### Masks (R106, R107) -/

/-- A mask of a byte's high bits shows that the byte is below the field's bound. -/
theorem and_shiftLeft_eq_zero_iff {k : Nat} {x : Byte} :
    x &&& BitVec.allOnes 8 <<< k = 0 ↔ x.toNat < 2 ^ k := by
  have hx : x.toNat / 2 ^ k * 2 ^ k < 2 ^ 8 := (Nat.div_mul_le_self _ _).trans_lt x.isLt
  rw [← BitVec.shiftLeft_ushiftRight, ← BitVec.toNat_inj, BitVec.toNat_shiftLeft, BitVec.toNat_ushiftRight,
    Nat.shiftRight_eq_div_pow, Nat.shiftLeft_eq, Nat.mod_eq_of_lt hx]
  refine (Nat.mul_eq_zero.trans (or_iff_left (Nat.two_pow_pos k).ne')).trans ?_
  exact Nat.div_eq_zero_iff_lt (Nat.two_pow_pos k)

theorem Word.and_eq_iff {w m p : Word} : w &&& m = p ↔ w.unit &&& m.unit = p.unit ∧ w.op &&& m.op = p.op ∧
    w.z &&& m.z = p.z ∧ w.b &&& m.b = p.b ∧ w.a &&& m.a = p.a := by
  have hu : (w &&& m).unit = w.unit &&& m.unit := BitVec.extractLsb'_and
  have ho : (w &&& m).op = w.op &&& m.op := BitVec.extractLsb'_and
  have hz : (w &&& m).z = w.z &&& m.z := BitVec.extractLsb'_and
  have hb : (w &&& m).b = w.b &&& m.b := BitVec.extractLsb'_and
  have ha : (w &&& m).a = w.a &&& m.a := BitVec.extractLsb'_and
  rw [← hu, ← ho, ← hz, ← hb, ← ha]
  refine ⟨by rintro rfl; simp, fun ⟨hu, ho, hz, hb, ha⟩ => ?_⟩
  rw [Word.eq_pack hu ho hz hb ha, Word.pack_fields]

/-- Every row fixes UNIT, OP and Z, with Z 0, and its operand bits are 0 in its pattern. -/
theorem opcodeTable_fields : ∀ r ∈ opcodeTable, r.mask.unit = BitVec.allOnes 4 ∧ r.mask.op = BitVec.allOnes 4 ∧
    r.mask.z = BitVec.allOnes 8 ∧ r.pattern.z = 0 ∧ r.pattern.b = 0 ∧ r.pattern.a = 0 := by
  decide

/-- What a row accepts: its port, its UNIT and OP, and zeros in every bit it leaves unused. -/
theorem OpcodeRow.accepts_iff {r : OpcodeRow} (hr : r ∈ opcodeTable) {p : Port} {w : Word} :
    r.accepts p w ↔ r.port = p ∧ w.unit = r.pattern.unit ∧ w.op = r.pattern.op ∧ w.z = 0 ∧
      w.b &&& r.mask.b = 0 ∧ w.a &&& r.mask.a = 0 := by
  obtain ⟨hu, ho, hz, hpz, hpb, hpa⟩ := opcodeTable_fields r hr
  rw [OpcodeRow.accepts, Word.and_eq_iff, hu, ho, hz, hpz, hpb, hpa, BitVec.and_allOnes, BitVec.and_allOnes,
    BitVec.and_allOnes]

theorem OpcodeRow.accepts_pack {r : OpcodeRow} (hr : r ∈ opcodeTable) {u op : BitVec 4} {b a : Byte}
    (hu : r.pattern.unit = u) (hop : r.pattern.op = op) (hb : b &&& r.mask.b = 0) (ha : a &&& r.mask.a = 0) :
    r.accepts r.port (Word.pack u op 0 b a) := by
  rw [OpcodeRow.accepts_iff hr]
  simp [hu, hop, hb, ha]

/-- The row of the opcode table with an instruction's mnemonic. -/
def Instr.row (i : Instr) : Option OpcodeRow := opcodeTable.find? fun r => r.mnemonic == i.mnemonic

theorem Instr.row_eq_some {i : Instr} {r : OpcodeRow} (h : i.row = some r) :
    r ∈ opcodeTable ∧ r.mnemonic = i.mnemonic :=
  ⟨List.mem_of_find?_eq_some h, by simpa using List.find?_some h⟩

/-- Every instruction's row accepts its word. -/
theorem Instr.exists_row (i : Instr) : ∃ r, i.row = some r ∧ r.accepts i.port (encode i) := by
  have high {k : Nat} (hk : k ≤ 8) (n : BitVec k) : n.setWidth 8 &&& BitVec.allOnes 8 <<< k = 0 :=
    and_shiftLeft_eq_zero_iff.mpr (toNat_setWidth_lt hk n)
  cases i
  all_goals refine ⟨_, rfl, OpcodeRow.accepts_pack (by decide) rfl rfl ?_ ?_⟩
  case arbClaim.refine_2 r => exact high (by decide) r.number
  case resClassify.refine_1 status polled => exact high (by decide) (BitVec.ofBool polled)
  case resClassify.refine_2 status polled => exact high (by decide) status
  case evI2cErr.refine_2 k | evSpiRxfail.refine_2 k => exact high (by decide) k.code
  case evSwTrigger.refine_2 k => exact high (by decide) k
  case fifoWrite.refine_2 | sensStartRead.refine_2 | sensStartWrite.refine_1 | sensStartWrite.refine_2 |
      resCont.refine_1 | resCont.refine_2 | csrRead.refine_2 | evSpiRx.refine_2 => exact BitVec.and_zero
  all_goals exact BitVec.zero_and

/-- Two rows disagree on a bit that both fix. -/
theorem opcodeTable_disjoint : ∀ r ∈ opcodeTable, ∀ r' ∈ opcodeTable,
    r.pattern &&& r'.mask = r'.pattern &&& r.mask → r' = r := by
  decide

/-- At most one row accepts a word (R109). -/
theorem OpcodeRow.accepts_unique {r r' : OpcodeRow} {p p' : Port} {w : Word} (hr : r ∈ opcodeTable)
    (hr' : r' ∈ opcodeTable) (h : r.accepts p w) (h' : r'.accepts p' w) : r' = r := by
  apply opcodeTable_disjoint r hr r' hr'
  rw [← h.2, ← h'.2, BitVec.and_assoc, BitVec.and_assoc, BitVec.and_comm r.mask]

/-! ### Value checks (R59, R106, R107, R271) -/

theorem BusResult.isSome_ofCode (x : Byte) :
    (BusResult.ofCode x).isSome = true ↔ x.toNat ≤ 1 ∨ (0x10 ≤ x.toNat ∧ x.toNat ≤ 0x15) := by
  revert x
  decide

theorem Csr.isSome_ofNumber (x : Byte) :
    (Csr.ofNumber x).isSome = true ↔ x.toNat ≤ 0x03 ∨ (0x08 ≤ x.toNat ∧ x.toNat ≤ 0x0C) ∨
      (0x10 ≤ x.toNat ∧ x.toNat ≤ 0x11) ∨ (0x18 ≤ x.toNat ∧ x.toNat ≤ 0x1A) ∨ (0x20 ≤ x.toNat ∧ x.toNat ≤ 0x21) := by
  revert x
  decide

/-- The codes of the error events' kinds (R107, R270). -/
theorem isSome_eventKind {x : Byte} (hx : x.toNat < 2 ^ 3) :
    (eventKind x).isSome = true ↔ 1 ≤ x.toNat ∧ x.toNat ≤ 5 := by
  revert x
  decide

theorem BusResult.exists_code {x : Byte} (hx : x.toNat ≤ 1 ∨ (0x10 ≤ x.toNat ∧ x.toNat ≤ 0x15)) :
    ∃ r : BusResult, r.code = x := by
  obtain ⟨r, hr⟩ := Option.isSome_iff_exists.mp ((BusResult.isSome_ofCode x).mpr hx)
  exact ⟨r, BusResult.code_of_ofCode hr⟩

theorem Csr.exists_number {x : Byte} (hx : x.toNat ≤ 0x03 ∨ (0x08 ≤ x.toNat ∧ x.toNat ≤ 0x0C) ∨
      (0x10 ≤ x.toNat ∧ x.toNat ≤ 0x11) ∨ (0x18 ≤ x.toNat ∧ x.toNat ≤ 0x1A) ∨ (0x20 ≤ x.toNat ∧ x.toNat ≤ 0x21)) :
    ∃ n : Csr, n.number = x := by
  obtain ⟨n, hn⟩ := Option.isSome_iff_exists.mp ((Csr.isSome_ofNumber x).mpr hx)
  exact ⟨n, Csr.number_of_ofNumber hn⟩

theorem ErrorKind.exists_code {x : Byte} (hx : 1 ≤ x.toNat ∧ x.toNat ≤ 5) :
    ∃ k : ErrorKind, k ≠ .none ∧ k.code.setWidth 8 = x := by
  have hlt : x.toNat < 2 ^ 3 := by omega
  obtain ⟨k, hk⟩ := Option.isSome_iff_exists.mp ((isSome_eventKind hlt).mpr hx)
  exact ⟨k, (eventKind_eq_some.mp hk).2, code_of_eventKind hlt hk⟩

theorem ErrorKind.code_bounds {k : ErrorKind} (hk : k ≠ .none) :
    1 ≤ (k.code.setWidth 8).toNat ∧ (k.code.setWidth 8).toNat ≤ 5 :=
  (isSome_eventKind (toNat_setWidth_lt (by decide) _)).mp (by rw [eventKind_code hk]; rfl)

theorem BusResult.code_bounds (r : BusResult) :
    r.code.toNat ≤ 1 ∨ (0x10 ≤ r.code.toNat ∧ r.code.toNat ≤ 0x15) :=
  (BusResult.isSome_ofCode _).mp (by rw [BusResult.ofCode_code]; rfl)

theorem Csr.number_listed (c : Csr) : c.number.toNat ≤ 0x03 ∨ (0x08 ≤ c.number.toNat ∧ c.number.toNat ≤ 0x0C) ∨
    (0x10 ≤ c.number.toNat ∧ c.number.toNat ≤ 0x11) ∨ (0x18 ≤ c.number.toNat ∧ c.number.toNat ≤ 0x1A) ∨
    (0x20 ≤ c.number.toNat ∧ c.number.toNat ≤ 0x21) :=
  (Csr.isSome_ofNumber _).mp (by rw [Csr.ofNumber_number]; rfl)

end Sys2Proof

namespace Sys2Proof.Machine

/-- The ids of an admitted SW_CTX are 1 to 12 (R9). -/
theorem Config.wf_id {c : Config} {k : CtxId} (h : c.wf = true) (hk : (c.swEntry k).isSome = true) :
    1 ≤ k.toNat ∧ k.toNat ≤ 12 := by
  obtain ⟨e, he⟩ := Option.isSome_iff_exists.mp hk
  obtain ⟨hm, rfl⟩ := Config.mem_of_swEntry he
  simp only [Config.wf, Bool.and_eq_true, decide_eq_true_eq, List.all_eq_true] at h
  obtain ⟨⟨⟨⟨⟨-, hids⟩, -⟩, -⟩, -⟩, -⟩ := h
  exact (hids e hm).1

/-- Every word that a row accepts with its value check met is the word of an instruction with the row's mnemonic. -/
def ReadsRow (c : Config) (r : OpcodeRow) : Prop :=
  ∀ (p : Port) (w : Word), r.accepts p w → RowCheck c r w → ∃ i : Instr, i.HasWord p w ∧ i.mnemonic = r.mnemonic

/-- It is enough to look at a row's two operand bytes: UNIT, OP and Z are the row's. -/
theorem ReadsRow.of_bytes {c : Config} {r : OpcodeRow} (hr : r ∈ opcodeTable)
    (h : ∀ b a : Byte, b &&& r.mask.b = 0 → a &&& r.mask.a = 0 →
      RowCheck c r (Word.pack r.pattern.unit r.pattern.op 0 b a) →
      ∃ i : Instr, i.HasWord r.port (Word.pack r.pattern.unit r.pattern.op 0 b a) ∧ i.mnemonic = r.mnemonic) :
    ReadsRow c r := by
  intro p w ha hc
  obtain ⟨rfl, hu, ho, hz, hb, ha⟩ := (OpcodeRow.accepts_iff hr).mp ha
  rw [Word.eq_pack hu ho hz rfl rfl] at hc ⊢
  exact h w.b w.a hb ha hc

/-- A row without an operand accepts its pattern alone. -/
theorem ReadsRow.of_pattern {c : Config} {r : OpcodeRow} {i : Instr} (hm : r.mask = BitVec.allOnes 32)
    (hi : i.HasWord r.port r.pattern) (hn : i.mnemonic = r.mnemonic) : ReadsRow c r := by
  rintro p w ⟨rfl, hw⟩ -
  rw [hm, BitVec.and_allOnes] at hw
  exact ⟨i, hw ▸ hi, hn⟩

theorem readsRow_commandRows (c : Config) : ∀ r ∈ commandRows, ReadsRow c r := by
  simp only [commandRows, List.forall_mem_cons]
  refine ⟨?fifoWrite, ?fifoRead, ?fifoPeek, ?fifoLen, ?fifoIsempty, ?arbClaim, ?arbRelease, ?dispKick, ?dispWaitdrain,
    ?sensStartRead, ?sensStartWrite, ?resClassify, ?resCont, ?csrRead, by simp⟩
  case fifoRead => exact .of_pattern (i := .fifoRead) rfl ⟨rfl, rfl, rfl⟩ rfl
  case fifoPeek => exact .of_pattern (i := .fifoPeek) rfl ⟨rfl, rfl, rfl⟩ rfl
  case fifoLen => exact .of_pattern (i := .fifoLen) rfl ⟨rfl, rfl, rfl⟩ rfl
  case fifoIsempty => exact .of_pattern (i := .fifoIsempty) rfl ⟨rfl, rfl, rfl⟩ rfl
  case arbRelease => exact .of_pattern (i := .arbRelease) rfl ⟨rfl, rfl, rfl⟩ rfl
  case dispKick => exact .of_pattern (i := .dispKick) rfl ⟨rfl, rfl, rfl⟩ rfl
  case dispWaitdrain => exact .of_pattern (i := .dispWaitdrain) rfl ⟨rfl, rfl, rfl⟩ rfl
  all_goals
    refine .of_bytes (by decide) ?_
    rintro b a hb ha ⟨hcodes, hnumber, -, -⟩
  case fifoWrite =>
    obtain rfl := BitVec.and_allOnes.symm.trans hb
    exact ⟨.fifoWrite a, ⟨rfl, rfl, rfl⟩, rfl⟩
  case arbClaim =>
    obtain rfl := BitVec.and_allOnes.symm.trans hb
    have ha : a.toNat < 2 ^ 1 := and_shiftLeft_eq_zero_iff.mp ha
    exact ⟨.arbClaim (.ofNumber (a.extractLsb' 0 1)), ⟨by rw [encode, Resource.number_setWidth ha]; rfl, rfl, rfl⟩, rfl⟩
  case sensStartRead =>
    obtain rfl := BitVec.and_allOnes.symm.trans hb
    exact ⟨.sensStartRead a, ⟨rfl, rfl, rfl⟩, rfl⟩
  case sensStartWrite => exact ⟨.sensStartWrite a b, ⟨rfl, rfl, rfl⟩, rfl⟩
  case resClassify =>
    have hb : b.toNat < 2 ^ 1 := and_shiftLeft_eq_zero_iff.mp hb
    have ha : a.toNat < 2 ^ 5 := and_shiftLeft_eq_zero_iff.mp ha
    exact ⟨.resClassify (a.extractLsb' 0 5) (b.getLsbD 0),
      ⟨by rw [encode, ofBool_getLsbD_setWidth hb, setWidth_extractLsb'_of_lt ha]; rfl, rfl, rfl⟩, rfl⟩
  case resCont =>
    obtain ⟨ha, hb⟩ := hcodes rfl
    rw [Word.a_pack] at ha
    rw [Word.b_pack] at hb
    obtain ⟨prior, rfl⟩ := BusResult.exists_code ha
    obtain ⟨next, rfl⟩ := BusResult.exists_code hb
    exact ⟨.resCont prior next, ⟨rfl, rfl, rfl⟩, rfl⟩
  case csrRead =>
    obtain rfl := BitVec.and_allOnes.symm.trans hb
    have hn := hnumber rfl
    rw [Word.a_pack] at hn
    obtain ⟨n, rfl⟩ := Csr.exists_number hn
    exact ⟨.csrRead n, ⟨rfl, rfl, rfl⟩, rfl⟩

theorem readsRow_eventRows {c : Config} (hwf : c.wf = true) : ∀ r ∈ eventRows, ReadsRow c r := by
  simp only [eventRows, List.forall_mem_cons]
  refine ⟨?evI2cSb, ?evI2cTxe, ?evI2cErr, ?evSpiRx, ?evSpiRxfail, ?evSwTrigger, by simp⟩
  case evI2cSb => exact .of_pattern (i := .evI2cSb) rfl ⟨rfl, rfl, rfl⟩ rfl
  case evI2cTxe => exact .of_pattern (i := .evI2cTxe) rfl ⟨rfl, rfl, rfl⟩ rfl
  all_goals
    refine .of_bytes (by decide) ?_
    rintro b a hb ha ⟨-, -, hkind, hid⟩
    obtain rfl := BitVec.and_allOnes.symm.trans hb
  case evI2cErr =>
    have hrange := hkind (.inl rfl)
    rw [Word.a_pack] at hrange
    obtain ⟨k, hk, rfl⟩ := ErrorKind.exists_code hrange
    exact ⟨.evI2cErr k, ⟨rfl, rfl, decide_eq_true hk⟩, rfl⟩
  case evSpiRx => exact ⟨.evSpiRx a, ⟨rfl, rfl, rfl⟩, rfl⟩
  case evSpiRxfail =>
    have hrange := hkind (.inr rfl)
    rw [Word.a_pack] at hrange
    obtain ⟨k, hk, rfl⟩ := ErrorKind.exists_code hrange
    exact ⟨.evSpiRxfail k, ⟨rfl, rfl, decide_eq_true hk⟩, rfl⟩
  case evSwTrigger =>
    have ha : a.toNat < 2 ^ 4 := and_shiftLeft_eq_zero_iff.mp ha
    have hk := Config.wf_id hwf (hid rfl)
    rw [Word.a_pack, BitVec.setWidth_eq_extractLsb' (by decide)] at hk
    exact ⟨.evSwTrigger (a.extractLsb' 0 4),
      ⟨by rw [encode, setWidth_extractLsb'_of_lt ha]; rfl, rfl, by simpa [Instr.wf] using hk⟩, rfl⟩

theorem readsRow {c : Config} (hwf : c.wf = true) {r : OpcodeRow} (hr : r ∈ opcodeTable) : ReadsRow c r :=
  (List.mem_append.mp hr).elim (readsRow_commandRows c r) (readsRow_eventRows hwf r)

/-! ### Illegal words (R108) -/

/-- An instruction's operands meet the value check of its row, but for a trigger's id in SW_CTX, which `Instr.wf` leaves
to the parameters (R107). -/
theorem rowCheck_encode {c : Config} {r : OpcodeRow} {i : Instr} (hr : r.mnemonic = i.mnemonic) (hi : i.wf = true)
    (hsw : ∀ k, i = .evSwTrigger k → (c.swEntry k).isSome = true) : RowCheck c r (encode i) := by
  cases i with
  | resCont prior next => simp [RowCheck, hr, Instr.mnemonic, encode, BusResult.code_bounds]
  | csrRead n => simp [RowCheck, hr, Instr.mnemonic, encode, Csr.number_listed]
  | evI2cErr k | evSpiRxfail k =>
    have hk : k ≠ .none := of_decide_eq_true hi
    simp only [RowCheck, hr, Instr.mnemonic, encode, ErrorKind.code_bounds hk, Word.a_pack]
    simp
  | evSwTrigger k => simp [RowCheck, hr, Instr.mnemonic, encode, hsw k rfl]
  | _ => simp [RowCheck, hr, Instr.mnemonic]

/-- A word that decodes is legal, but for a trigger of an id that SW_CTX does not hold (R107). -/
theorem not_illegal_of_decode {c : Config} {p : Port} {w : Word} {i : Instr} (hd : decode p w = .ok i)
    (hsw : ∀ k, i = .evSwTrigger k → (c.swEntry k).isSome = true) : ¬ Illegal c p w := by
  obtain ⟨rfl, rfl, hi⟩ := decode_hasWord hd
  obtain ⟨r, hr, ha⟩ := i.exists_row
  obtain ⟨hm, hn⟩ := Instr.row_eq_some hr
  exact fun h => h ⟨r, hm, ha, rowCheck_encode hn hi hsw⟩

/-- A legal word decodes. -/
theorem decode_of_not_illegal {c : Config} {p : Port} {w : Word} (hwf : c.wf = true) (h : ¬ Illegal c p w) :
    ∃ i, decode p w = .ok i := by
  obtain ⟨r, hr, ha, hc⟩ := not_not.mp h
  obtain ⟨i, hi, -⟩ := readsRow hwf hr p w ha hc
  exact ⟨i, hi.decode⟩

theorem illegal_of_decode {c : Config} {p : Port} {w : Word} (hwf : c.wf = true) (h : ∀ i, decode p w ≠ .ok i) :
    Illegal c p w :=
  not_not.mp fun hl => (decode_of_not_illegal hwf hl).elim h

/-- An illegal command word does not decode. -/
theorem decode_command_of_illegal {c : Config} {w : Word} (h : Illegal c .command w) :
    ∃ e, decode .command w = .error e := by
  cases hd : decode .command w with
  | error e => exact ⟨e, rfl⟩
  | ok i =>
    refine absurd h (not_illegal_of_decode hd ?_)
    rintro k rfl
    cases (decode_hasWord hd).port

/-- An illegal event word does not decode, or it triggers an id that SW_CTX does not hold. -/
theorem decode_event_of_illegal {c : Config} {w : Word} (h : Illegal c .event w) :
    (∃ e, decode .event w = .error e) ∨
      ∃ k, decode .event w = .ok (.evSwTrigger k) ∧ (c.swEntry k).isSome ≠ true := by
  cases hd : decode .event w with
  | error e => exact .inl ⟨e, rfl⟩
  | ok i =>
    obtain ⟨k, rfl, hk⟩ : ∃ k, i = .evSwTrigger k ∧ (c.swEntry k).isSome ≠ true := by
      by_contra! hsw
      exact not_illegal_of_decode hd hsw h
    exact .inr ⟨k, rfl, hk⟩

/-- The trigger's own value check (R107, R315). -/
theorem exec_trigger_of_absent {s : State} {k : CtxId} (hh : s.halted = false)
    (hk : (s.cfg.swEntry k).isSome ≠ true) :
    exec (.evSwTrigger k) s = .next (eventFault s .illegalCmd (encode (.evSwTrigger k)) 0xD) := by
  simp only [exec, execEvSwTrigger, if_neg hk]
  exact runEvent_running hh _ _ _

end Sys2Proof.Machine

open Sys2Proof Sys2Proof.Machine

/-- Settles O3: a word that a row accepts with its value check is the word of an instruction of that row, which decoding
gives back (O1); two rows differ on a bit that both fix. -/
theorem legalWordsDecodeToTheirRow : Obligations.LegalWordsDecodeToTheirRow := by
  intro c p w r hwf hr ha
  refine ⟨fun hc => ?_, fun r' hr' ha' => OpcodeRow.accepts_unique hr hr' ha ha'⟩
  obtain ⟨i, hi, hn⟩ := readsRow hwf hr p w ha hc
  exact ⟨i, hi.decode, hn⟩

/-- Settles O4: a legal word decodes (O3), and a word that decodes is accepted by its instruction's row (O2), its value
check met but for a trigger of an id outside SW_CTX, which the event itself answers with the fault. -/
theorem illegalWordsFault : Obligations.IllegalWordsFault := by
  intro s w hh hwf
  refine ⟨fun p h6 hE => ?reserved, fun hF => ?command, fun hF => ?event, fun h => ?issued, fun h => ?presented,
    fun p h => decode_of_not_illegal hwf h⟩
  case reserved =>
    refine illegal_of_decode hwf fun i hd => ?_
    cases p with
    | command =>
      have hlt := unit_of_decode_command hd
      omega
    | event =>
      have hF := unit_of_decode_event hd
      simp [hF] at hE
  case command =>
    refine illegal_of_decode hwf fun i hd => ?_
    have hlt := unit_of_decode_command hd
    simp [hF] at hlt
  case event => exact illegal_of_decode hwf fun i hd => hF (unit_of_decode_event hd)
  case issued =>
    obtain ⟨e, he⟩ := decode_command_of_illegal h
    rw [issueCommand_of_error he, if_neg (by simp [hh])]
  case presented =>
    rcases decode_event_of_illegal h with ⟨e, he⟩ | ⟨k, hk, habs⟩
    · rw [presentEvent_of_error he, if_neg (by simp [hh])]
    · rw [presentEvent_of_ok hk, exec_trigger_of_absent hh habs, (decode_hasWord hk).word]

/-- Settles O5: the assembler and the decoder are evaluated on the twelve texts and words. -/
theorem workedEncodings : Obligations.WorkedEncodings := by
  unfold Obligations.WorkedEncodings
  decide

end

section
/-! PROOFS for the FIFO's five commands: what each does after its access check (O11, O12, O13), and how a step moves
FIFO_PTR and FIFO_LEN (O16). -/

namespace Sys2Proof.Machine

/-! ### The FIFO's tests in the statements' terms (R37) -/

theorem State.fifoFull_eq_true {s : State} : s.fifoFull = true ↔ s.fifoLen.toNat = s.cfg.cap := by
  simp [State.fifoFull]

theorem State.fifoFull_eq_false {s : State} : s.fifoFull = false ↔ s.fifoLen.toNat ≠ s.cfg.cap := by
  simp [State.fifoFull]

theorem State.fifoEmpty_eq_true {s : State} : s.fifoEmpty = true ↔ s.fifoLen = 0 := by
  simp [State.fifoEmpty]

theorem State.fifoEmpty_eq_false {s : State} : s.fifoEmpty = false ↔ s.fifoLen ≠ 0 := by
  simp [State.fifoEmpty]

/-! ### The commands where their access check passes -/

/-- A byte's slot exists in any capacity above 0 (R9, R36): the store of R140 needs no more of the invariant. -/
theorem exec_fifoWrite_of_pos {s : State} (hh : s.halted = false) (ha : AccessPasses .disp s)
    (hf : s.fifoFull = false) (hc : 0 < s.cfg.cap) (b : Byte) :
    exec (.fifoWrite b) s = .next ((pushed b s).respond (bitResponse true)) := by
  have hpush : s.push b = some (pushed b s) := State.push_of_pos hc b
  simp [exec, execFifoWrite, runCommand_passes ha, hf, hpush, runCommand_running hh]

/-- Taking a byte needs of the invariant only that the cursor's slot exists (R33). -/
theorem exec_fifoRead_of_low {s : State} (hh : s.halted = false) (ha : AccessPasses .disp s)
    (he : s.fifoEmpty = false) (hp : s.fifoPtr.toNat < s.cfg.cap) :
    exec .fifoRead s = .next ((popped s).respond (validResponse (oldest s))) := by
  have hpop : s.pop = some (oldest s, popped s) := State.pop_of_low hp
  simp [exec, execFifoRead, runCommand_passes ha, he, hpop, runCommand_running hh]

theorem exec_fifoPeek_empty {s : State} (hh : s.halted = false) (ha : AccessPasses .disp s)
    (he : s.fifoEmpty = true) : exec .fifoPeek s = .next (s.respond 0) := by
  simp only [exec, execFifoPeek, runCommand_passes ha, he, if_true, runCommand_running hh]

theorem exec_fifoPeek_of_low {s : State} (hh : s.halted = false) (ha : AccessPasses .disp s)
    (he : s.fifoEmpty = false) (hp : s.fifoPtr.toNat < s.cfg.cap) :
    exec .fifoPeek s = .next (s.respond (validResponse (oldest s))) := by
  have hhead : s.head = some (oldest s) := State.head_of_low hp
  simp [exec, execFifoPeek, runCommand_passes ha, he, hhead, runCommand_running hh]

theorem exec_fifoLen_count {s : State} (hh : s.halted = false) (ha : AccessPasses .disp s) :
    exec .fifoLen s = .next (s.respond (BitVec.ofNat 32 s.fifoLen.toNat)) := by
  simp only [exec, execFifoLen, runCommand_passes ha, runCommand_running hh, BitVec.ofNat_toNat]

theorem exec_fifoIsempty_bit {s : State} (hh : s.halted = false) (ha : AccessPasses .disp s) :
    exec .fifoIsempty s = .next (s.respond (bitResponse s.fifoEmpty)) := by
  simp only [exec, execFifoIsempty, runCommand_passes ha, runCommand_running hh]

theorem bitResponse_fifoEmpty (s : State) : bitResponse s.fifoEmpty = if s.fifoLen = 0 then 1 else 0 := by
  split_ifs with he
  · rw [State.fifoEmpty_eq_true.mpr he]
    rfl
  · rw [State.fifoEmpty_eq_false.mpr he]
    rfl

/-! ### The cursor and the count over an instruction (R33, R34, R142) -/

/-- What an instruction may do to FIFO_PTR and FIFO_LEN. -/
theorem FifoEffect.cursor {i : Instr} {s t : State} (h : FifoInv s) (he : FifoEffect i s t) :
    (t.fifoPtr = s.fifoPtr ∧ t.fifoLen = s.fifoLen) ∨
    (t.fifoPtr = s.fifoPtr ∧ t.fifoLen.toNat = s.fifoLen.toNat + 1 ∧ ∃ b, i = .fifoWrite b) ∨
    (t.fifoPtr.toNat = (s.fifoPtr.toNat + 1) % s.cfg.cap ∧ t.fifoLen.toNat + 1 = s.fifoLen.toNat ∧
      (i = .fifoRead ∨ i = .evI2cTxe)) := by
  cases he with
  | same hc hb hp hl => exact .inl ⟨hp, hl⟩
  | push b hi hf hw hc hb hp hl => exact .inr (.inl ⟨hp, hl ▸ (State.len_after_push h hf).1, b, hi⟩)
  | pop hi he hc hb hp hl => exact .inr (.inr ⟨hp ▸ State.nextPtr_toNat h, hl ▸ State.len_after_pop he, hi⟩)

end Sys2Proof.Machine

open Sys2Proof.Machine

/-- Settles O11: the write of a full FIFO is a response alone, any other is `pushed`. -/
theorem fifoWriteStoresOrRejects : Obligations.FifoWriteStoresOrRejects := by
  intro b s hh
  refine ⟨accessFaults_of_runCommand hh rfl, fun ha hl => ?full, fun ha hl hc => ?room⟩
  case full => exact exec_fifoWrite_full hh ha (State.fifoFull_eq_true.mpr hl) b
  case room => exact exec_fifoWrite_of_pos hh ha (State.fifoFull_eq_false.mpr hl) hc b

/-- Settles O12: the read of an empty FIFO is a response alone, any other is `popped`. -/
theorem fifoReadTakesTheOldest : Obligations.FifoReadTakesTheOldest := by
  intro s hh
  refine ⟨accessFaults_of_runCommand hh rfl, fun ha hl => ?empty, fun ha hl hp => ?byte⟩
  case empty => exact exec_fifoRead_empty hh ha (State.fifoEmpty_eq_true.mpr hl)
  case byte =>
    rw [exec_fifoRead_of_low hh ha (State.fifoEmpty_eq_false.mpr hl) hp, validResponse_eq]
    rfl

/-- Settles O13: each look is a response alone, with the byte at the cursor, the count, or the empty bit. -/
theorem fifoLooksAnswer : Obligations.FifoLooksAnswer := by
  intro s hh
  refine ⟨accessFaults_of_runCommand hh rfl, accessFaults_of_runCommand hh rfl, accessFaults_of_runCommand hh rfl,
    fun ha => ⟨fun hl => ?peekEmpty, fun hl hp => ?peekByte, exec_fifoLen_count hh ha, ?isempty⟩⟩
  case peekEmpty => exact exec_fifoPeek_empty hh ha (State.fifoEmpty_eq_true.mpr hl)
  case peekByte =>
    rw [exec_fifoPeek_of_low hh ha (State.fifoEmpty_eq_false.mpr hl) hp, validResponse_eq]
    rfl
  case isempty =>
    rw [exec_fifoIsempty_bit hh ha, bitResponse_fifoEmpty]
    rfl

/-- Settles O16: the bounds are the invariant's, which the step keeps, and only the instruction that the step runs moves
the cursor or the count. -/
theorem cursorAdvanceLaw : Obligations.CursorAdvanceLaw := by
  intro c s t h hx
  have ht : FifoInv t := stepChoice_keepsFifoInv h hx
  refine ⟨ht.ptrLow, ht.lenTop, ?_⟩
  rcases stepChoice_fifo hx with hs | ⟨i, hr, he⟩
  · exact .inl ⟨hs.fifoPtr, hs.fifoLen⟩
  · rcases he.cursor h with hsame | ⟨hp, hl, b, rfl⟩ | ⟨hp, hl, rfl | rfl⟩
    · exact .inl hsame
    · exact .inr (.inl ⟨hp, hl, b, hr⟩)
    · exact .inr (.inr ⟨hp, hl, .inl hr⟩)
    · exact .inr (.inr ⟨hp, hl, .inr hr⟩)

end

section
/-! PROOFS of the frames of the commands that only look (O43) and of FIFO.WRITE, FIFO.READ, ARB.CLAIM and ARB.RELEASE
(O44). -/

namespace Sys2Proof.Machine

/-! ### What a command can do -/

/-- A command that answers a next state only responded (on a halted block), completed, or raised a fault. -/
theorem exec_command_next {i : Instr} {s t : State} (hp : i.port = .command) (h : exec i s = .next t) :
    (∃ v, t = s.respond v) ∨ Done s i t ∨ ∃ c, c ≠ .none ∧ t = commandFault s c (encode i) := by
  cases exec_next h with
  | haltedEvent hh he => exact absurd (he.symm.trans hp) (by decide)
  | haltedCommand => exact .inl ⟨_, rfl⟩
  | commandFault hh _ hc => exact .inr (.inr ⟨_, hc.ne_none, rfl⟩)
  | eventFault hh he => exact absurd (he.symm.trans hp) (by decide)
  | done hh hd => exact .inr (.inl hd)

/-- A command that only looks completes with a response alone. -/
theorem Done.respond_of_look {i : Instr} {s t : State} (h : Done s i t)
    (hi : i = .fifoPeek ∨ i = .fifoLen ∨ i = .fifoIsempty ∨ i = .dispWaitdrain ∨ (∃ a b, i = .resClassify a b) ∨
      (∃ a b, i = .resCont a b) ∨ ∃ c, i = .csrRead c) : ∃ v, t = s.respond v := by
  cases h with
  | look => exact ⟨_, rfl⟩
  | start hs => rcases hs with rfl | ⟨v, rfl⟩ <;> simp at hi
  | _ => simp at hi

/-- FIFO.WRITE only responds, or stores its byte in a FIFO that is not full, or faults. -/
theorem exec_fifoWrite_next {b : Byte} {s t : State} (h : exec (.fifoWrite b) s = .next t) :
    (∃ v, t = s.respond v) ∨ (s.fifoFull = false ∧ ∃ v, t = (pushed b s).respond v) ∨
      ∃ c, c ≠ .none ∧ t = commandFault s c (encode (.fifoWrite b)) := by
  rcases exec_command_next rfl h with hv | hd | hc
  · exact .inl hv
  · cases hd with
    | writeFull => exact .inl ⟨_, rfl⟩
    | write ha hf hw => exact .inr (.inl ⟨hf, _, rfl⟩)
    | look => exact .inl ⟨_, rfl⟩
    | start hs => simp at hs
  · exact .inr (.inr hc)

/-- FIFO.READ only responds, or takes a byte, or faults. -/
theorem exec_fifoRead_next {s t : State} (h : exec .fifoRead s = .next t) :
    (∃ v, t = s.respond v) ∨ (∃ v, t = (popped s).respond v) ∨
      ∃ c, c ≠ .none ∧ t = commandFault s c (encode .fifoRead) := by
  rcases exec_command_next rfl h with hv | hd | hc
  · exact .inl hv
  · cases hd with
    | readEmpty => exact .inl ⟨_, rfl⟩
    | read ha he hp =>
      obtain ⟨-, -, rfl⟩ := State.pop_some hp
      exact .inr (.inl ⟨_, rfl⟩)
    | look => exact .inl ⟨_, rfl⟩
    | start hs => simp at hs
  · exact .inr (.inr hc)

/-- The two ARB commands complete with the running frame's claims and current priority changed. -/
theorem Done.arb_frame {i : Instr} {s t : State} (h : Done s i t) (hi : i = .arbRelease ∨ ∃ r, i = .arbClaim r) :
    t = { s with
      running := { s.running with claims := t.running.claims, cur := t.running.cur }
      rsp := t.rsp } := by
  cases h with
  | claim => rfl
  | release => rfl
  | look => rfl
  | start hs => rcases hs with rfl | ⟨v, rfl⟩ <;> simp at hi
  | _ => simp at hi

end Sys2Proof.Machine

open Sys2Proof.Machine

/-- Settles O43: each of the seven commands completes with a response alone. -/
theorem looksChangeNothing : Obligations.LooksChangeNothing := by
  intro i s t hi hx
  have hp : i.port = .command := by
    rcases hi with rfl | rfl | rfl | rfl | ⟨a, b, rfl⟩ | ⟨a, b, rfl⟩ | ⟨c, rfl⟩ <;> rfl
  rcases exec_command_next hp hx with ⟨v, rfl⟩ | hd | hc
  · exact .inl rfl
  · obtain ⟨v, rfl⟩ := hd.respond_of_look hi
    exact .inl rfl
  · exact .inr hc

/-- Settles O44: of a write's completions only `pushed` touches BUF, at FIFO_WPTR, and it starts from a FIFO that is not
full; a read's only change is `popped`, an ARB command's the running frame. -/
theorem fifoAndArbFrames : Obligations.FifoAndArbFrames := by
  refine ⟨fun b s t hx => ?write, fun s t hx => ?read, fun i s t hi hx => ?arb⟩
  case write =>
    rcases exec_fifoWrite_next hx with ⟨v, rfl⟩ | ⟨hf, v, rfl⟩ | hc
    · exact .inl ⟨rfl, fun k hk => rfl, fun hl => ⟨rfl, rfl⟩⟩
    · have hroom : s.fifoLen.toNat ≠ s.cfg.cap := State.fifoFull_eq_false.mp hf
      exact .inl ⟨rfl, fun k hk => Memory.read_write_other _ _ hk, fun hl => absurd hl hroom⟩
    · exact .inr hc
  case read =>
    rcases exec_fifoRead_next hx with ⟨v, rfl⟩ | ⟨v, rfl⟩ | hc
    · exact .inl rfl
    · exact .inl rfl
    · exact .inr hc
  case arb =>
    have hp : i.port = .command := by rcases hi with rfl | ⟨r, rfl⟩ <;> rfl
    rcases exec_command_next hp hx with ⟨v, rfl⟩ | hd | hc
    · exact .inl rfl
    · exact .inl (hd.arb_frame hi)
    · exact .inr hc

end

section
/-! PROOFS for the arbiter's two commands (O19, O20) and for the mutual exclusion that claims give (O21). -/

namespace Sys2Proof.Machine

/-! ### The two commands where they complete (R172, R173) -/

/-- The priority a claim raises to is the larger of the two (R172). -/
theorem toNat_raised (cur ceil : Prio) :
    (if cur < ceil then ceil else cur).toNat = max cur.toNat ceil.toNat := by
  split_ifs with h
  · exact (max_eq_right (BitVec.lt_def.mp h).le).symm
  · exact (max_eq_left (BitVec.le_def.mp (BitVec.not_lt.mp h))).symm

theorem exec_arbClaim_raises {r : Resource} {s : State} (hh : s.halted = false) (hb : s.running.base ≤ s.ceil r)
    (hn : s.running.claims.length ≠ s.cfg.nestMax) :
    exec (.arbClaim r) s = .next
      { s with
        running := { s.running with
          claims := s.running.claims ++ [s.running.cur]
          cur := if s.running.cur < s.ceil r then s.ceil r else s.running.cur }
        rsp := some ((if s.running.cur < s.ceil r then s.ceil r else s.running.cur).setWidth 32) } := by
  rw [exec, execArbClaim, if_neg (BitVec.not_lt.mpr hb), if_neg hn, runCommand_running hh]
  rfl

theorem exec_arbRelease_restores {s : State} {held : List Prio} {p : Prio} (hh : s.halted = false)
    (hl : s.running.claims = held ++ [p]) :
    exec .arbRelease s = .next
      { s with running := { s.running with claims := held, cur := p }, rsp := some (p.setWidth 32) } := by
  have hlast : s.running.claims.getLast? = some p := by rw [hl, List.getLast?_concat]
  have hdrop : s.running.claims.dropLast = held := by rw [hl, List.dropLast_concat]
  simp only [exec, execArbRelease, hlast, hdrop, runCommand_running hh]
  rfl

/-! ### The stack's priorities (R45, R312) -/

/-- A claim only raises the current priority above `base` (R172). -/
theorem FrameInv.base_le_cur {c : Config} {f : Frame} (h : FrameInv c f) : f.base ≤ f.cur := by
  obtain ⟨-, hrise, hfirst⟩ := h
  cases hc : f.claims with
  | nil =>
    rw [hc, List.nil_append, List.head?_cons, Option.some.injEq] at hfirst
    exact hfirst ▸ BitVec.le_refl _
  | cons p ps =>
    rw [hc, List.cons_append] at hrise hfirst
    rw [List.head?_cons, Option.some.injEq] at hfirst
    exact hfirst ▸ List.rel_of_pairwise_cons hrise (by simp)

/-- Every frame of the stack has its base priority above the current priority of each frame below it: the neighbours are
so ordered, and a frame's current priority is at least its base. -/
theorem Stacked.cur_lt_base {c : Config} {top : Frame} {rest : List Frame} (hs : Stacked c top rest)
    (hf : ∀ f ∈ top :: rest, FrameInv c f) : (top :: rest).Pairwise (fun g f => f.cur < g.base) := by
  induction rest generalizing top with
  | nil => exact List.pairwise_singleton _ _
  | cons g rest ih =>
    obtain ⟨-, hlt, hs⟩ := hs
    have hrest : ∀ f ∈ g :: rest, FrameInv c f := (List.forall_mem_cons.mp hf).2
    have hpairs := ih hs hrest
    have hbase : g.base ≤ g.cur := (hrest g List.mem_cons_self).base_le_cur
    refine List.pairwise_cons.mpr ⟨List.forall_mem_cons.mpr ⟨hlt, fun f hmem => ?_⟩, hpairs⟩
    have hfg : f.cur < g.base := List.rel_of_pairwise_cons hpairs hmem
    exact BitVec.lt_trans hfg (Std.lt_of_le_of_lt hbase hlt)

/-- A frame of the stack runs below the base priority of every frame above it. -/
theorem ArbInv.cur_lt_base_above {s : State} {above below : List Frame} {f g : Frame} (h : ArbInv s)
    (hst : s.running :: s.preempted = above ++ f :: below) (hg : g ∈ above) : f.cur < g.base :=
  (List.pairwise_append.mp (hst ▸ h.stacked.cur_lt_base h.frameInv)).2.2 g hg f List.mem_cons_self

/-- ARB_CUR is at least the current priority of every frame of the stack. -/
theorem ArbInv.cur_le_running {s : State} {f : Frame} (h : ArbInv s) (hf : f ∈ s.running :: s.preempted) :
    f.cur ≤ s.running.cur := by
  rcases List.mem_cons.mp hf with rfl | hf
  · exact BitVec.le_refl _
  · have hlt : f.cur < s.running.base := List.rel_of_pairwise_cons (h.stacked.cur_lt_base h.frameInv) hf
    exact BitVec.le_trans (BitVec.le_of_lt hlt) h.top.base_le_cur

/-! ### Delivery against a ceiling (R49, R309) -/

theorem State.not_deliverable_of_le {s : State} {h : Handler} (hp : h.prio s.cfg ≤ s.running.cur.toNat) :
    s.deliverable h = false :=
  Bool.eq_false_iff.mpr fun hd => absurd (State.deliverable_iff.mp hd).2.2 (not_lt.mpr hp)

end Sys2Proof.Machine

open Sys2Proof.Machine

/-- Settles O19: the faults are the two checks in their order, and what the claim raises to is the larger priority. -/
theorem arbClaimRaises : Obligations.ArbClaimRaises := by
  intro r s hh
  refine ⟨fun hb => ?above, fun hb hn => ?nested, fun hb hn => ?raised⟩
  case above => rw [exec, execArbClaim, if_pos hb, runCommand_raise hh]
  case nested => rw [exec, execArbClaim, if_neg (BitVec.not_lt.mpr hb), if_pos hn, runCommand_raise hh]
  case raised =>
    rw [exec_arbClaim_raises hh hb hn, ← toNat_raised, BitVec.ofNat_toNat, BitVec.ofNat_toNat, BitVec.setWidth_eq]

/-- Settles O20: the last saved priority decides, and with none saved the command faults. -/
theorem arbReleaseRestores : Obligations.ArbReleaseRestores := by
  refine fun s hh => ⟨fun hl => ?empty, fun held p hl => ?restored⟩
  case empty =>
    simp only [exec, execArbRelease, hl, List.getLast?_nil]
    exact runCommand_raise hh _ _
  case restored => rw [exec_arbRelease_restores hh hl, BitVec.ofNat_toNat]

/-- Settles O21: a frame above f has its base above f's current priority, so above CEIL[r]; and ARB_CUR, at least f's
current priority, leaves the handler whose priority CEIL[r] is undeliverable. -/
theorem mutualExclusion : Obligations.MutualExclusion := by
  intro r s above below f h hst hceil
  have htop : s.ceil r ≤ s.running.cur := BitVec.le_trans hceil (h.cur_le_running (by simp [hst]))
  refine ⟨fun g hg => State.access_above (Std.lt_of_le_of_lt hceil (h.cur_lt_base_above hst hg)), ?_⟩
  cases r with
  | disp =>
    have hprio : Handler.prio s.cfg .i2c = (s.ceil .disp).toNat := congrArg BitVec.toNat h.ceilDispIs.symm
    exact State.not_deliverable_of_le (hprio.trans_le htop)
  | sens =>
    have hprio : Handler.prio s.cfg .spi = (s.ceil .sens).toNat := congrArg BitVec.toNat h.ceilSensIs.symm
    exact State.not_deliverable_of_le (hprio.trans_le htop)

end

section
/-! PROOFS that every step keeps the state machines in agreement with the bus agents (O56): the invariant is one of the
channel with the I2C agent and one of the transfer with the SPI agent, and each step touches one of the two. -/

namespace Sys2Proof.Machine

/-! ### The two halves of the bus invariant -/

/-- The channel against the I2C agent's phase (R212, R221). -/
structure ChannelAgrees (d : DispState) (armed : Bool) (p : I2cPhase) : Prop where
  stoppedQuiet : d = .stopped → armed = false ∧ (p = .idle ∨ p = .stalled)
  idleStopped  : p = .idle → d = .stopped
  remLow       : d.rem.toNat ≤ 127

/-- The sensor transfer against the SPI agent's interface (R240, R326, R327). -/
structure TransferAgrees (tag : SensTag) (busy sel : Bool) : Prop where
  noWriteTags : tag ≠ .writeFirst ∧ tag ≠ .writeSecond
  busyInside  : busy = true → tag = .readFirst ∨ tag = .readSecond
  selInside   : sel = true ↔ tag = .readFirst ∨ tag = .readSecond

theorem busInv_iff {s : State} : BusInv s ↔
    ChannelAgrees s.disp s.dispArmed s.i2cPhase ∧ TransferAgrees s.sensTag s.spiBusy s.spiSel := by
  constructor
  · rintro ⟨hstop, hidle, hrem, htags, hbusy, hsel⟩
    exact ⟨⟨hstop, hidle, hrem⟩, htags, hbusy, hsel⟩
  · rintro ⟨⟨hstop, hidle, hrem⟩, htags, hbusy, hsel⟩
    exact ⟨hstop, hidle, hrem, htags, hbusy, hsel⟩

theorem BusInv.channel {s : State} (h : BusInv s) : ChannelAgrees s.disp s.dispArmed s.i2cPhase :=
  (busInv_iff.mp h).1

theorem BusInv.transfer {s : State} (h : BusInv s) : TransferAgrees s.sensTag s.spiBusy s.spiSel :=
  (busInv_iff.mp h).2

/-- BusInv reads six fields. -/
theorem BusInv.of_halves {t : State} (hc : ChannelAgrees t.disp t.dispArmed t.i2cPhase)
    (ht : TransferAgrees t.sensTag t.spiBusy t.spiSel) : BusInv t :=
  busInv_iff.mpr ⟨hc, ht⟩

/-- A channel that runs on a bus that was started agrees with it, armed or not. -/
theorem ChannelAgrees.of_running {d : DispState} {p : I2cPhase} (hd : d ≠ .stopped) (hp : p ≠ .idle)
    (hr : d.rem.toNat ≤ 127) (armed : Bool) : ChannelAgrees d armed p :=
  ⟨fun h => absurd h hd, fun h => absurd h hp, hr⟩

/-- On a bus that offers an event or sends a byte the channel runs (R212). -/
theorem ChannelAgrees.not_stopped {d : DispState} {armed : Bool} {p : I2cPhase} (h : ChannelAgrees d armed p)
    (hi : p ≠ .idle) (hs : p ≠ .stalled) : d ≠ .stopped :=
  fun hd => (h.stoppedQuiet hd).2.elim hi hs

/-- While such a bus does not go idle, the channel goes on agreeing with it (R320 to R324). -/
theorem ChannelAgrees.advance {d : DispState} {armed : Bool} {p q : I2cPhase} (h : ChannelAgrees d armed p)
    (hi : p ≠ .idle) (hs : p ≠ .stalled) (hq : q ≠ .idle) (armed' : Bool) : ChannelAgrees d armed' q :=
  .of_running (h.not_stopped hi hs) hq h.remLow armed'

/-- A stalled bus agrees with every channel that agreed before (R325, R328). -/
theorem ChannelAgrees.stall {d : DispState} {armed : Bool} {p : I2cPhase} (h : ChannelAgrees d armed p) :
    ChannelAgrees d armed .stalled where
  stoppedQuiet hd := ⟨(h.stoppedQuiet hd).1, .inr rfl⟩
  idleStopped hp := nomatch hp
  remLow := h.remLow

/-- A completion clears SPI_BUSY, and so does a loss of one (R327, R328). -/
theorem TransferAgrees.answered {tag : SensTag} {busy sel : Bool} (h : TransferAgrees tag busy sel) :
    TransferAgrees tag false sel :=
  ⟨h.noWriteTags, nofun, h.selInside⟩

/-- With the device selected and the transfer begun a byte may be outstanding or not (R326). -/
theorem TransferAgrees.of_inside {tag : SensTag} (h : tag = .readFirst ∨ tag = .readSecond) (busy : Bool) :
    TransferAgrees tag busy true where
  noWriteTags := by rcases h with rfl | rfl <;> decide
  busyInside _ := h
  selInside := by simp [h]

/-- The end of a transfer releases the device, with no byte outstanding. -/
theorem TransferAgrees.of_finished : TransferAgrees .finished false false := by
  constructor <;> decide

/-! ### The counter (R200, R221) -/

theorem headerLength_le (b : Byte) : (headerLength b).toNat ≤ 127 :=
  Nat.le_of_lt_succ (toNat_setWidth_lt (by decide) _)

theorem toNat_pred {n : Byte} (hn : n ≠ 0) : (n - 1).toNat = n.toNat - 1 := by
  have hpos : n.toNat ≠ 0 := fun h => hn (BitVec.eq_of_toNat_eq h)
  bv_omega

theorem pred_le {n : Byte} (hn : n ≠ 0) (h : n.toNat ≤ 127) : (n - 1).toNat ≤ 127 := by
  rw [toNat_pred hn]
  omega

/-! ### What instructions and steps keep -/

/-- EV.I2C_TXE leaves the channel running, its counter from a header or counted down, on a bus that is not idle. -/
theorem TxeDone.channelAgrees {s t : State} (h : BusInv s) (hp : s.i2cPhase = .txReady) (ht : TxeDone s t) :
    ChannelAgrees t.disp t.dispArmed t.i2cPhase := by
  have hready : s.i2cPhase ≠ .idle ∧ s.i2cPhase ≠ .stalled := by rw [hp]; decide
  have hrem : s.disp.rem.toNat ≤ 127 := h.remLow
  cases ht with
  | starve => exact .of_running (d := .idle) nofun hready.1 (Nat.zero_le _) _
  | @ctrlHeader b u hd he hpop hb =>
    exact .of_running (d := .control2 (headerLength b)) (p := .txBusy) nofun nofun (headerLength_le b) _
  | @dataHeader b u hd he hpop hb =>
    exact .of_running (d := .data (headerLength b)) (p := .txBusy) nofun nofun (headerLength_le b) _
  | @ctrlNext n hd hn =>
    rw [hd] at hrem
    exact .of_running (d := .control2 n) (p := .txBusy) nofun nofun hrem _
  | suspend hd hn he => exact h.channel.advance hready.1 hready.2 hready.1 _
  | @ctrlByte n b u hd hn he hpop =>
    rw [hd] at hrem
    exact .of_running (d := .control (n - 1)) (p := .txBusy) nofun nofun (pred_le hn hrem) _
  | @dataByte n b u hd hn he hpop =>
    rw [hd] at hrem
    exact .of_running (d := .data (n - 1)) (p := .txBusy) nofun nofun (pred_le hn hrem) _
  | @fold b u hd he hpop hb =>
    obtain ⟨-, -, rfl⟩ := State.pop_some hpop
    exact .of_running (d := .data (headerLength b)) nofun hready.1 (headerLength_le b) _
  | restart hd => exact .of_running (d := .idle) (p := .sbPending) nofun nofun (Nat.zero_le _) _

/-- A completed instruction keeps the bus invariant: the display's act on the channel alone, the sensor's on the transfer
alone, and the others on neither. -/
theorem Done.keepsBusInv {i : Instr} {s t : State} (h : BusInv s) (hd : Done s i t) : BusInv t := by
  cases hd with
  | kickStopped =>
    exact .of_halves (.of_running (d := .idle) (p := .sbPending) nofun nofun (Nat.zero_le _) true) h.transfer
  | kick ha hd => exact .of_halves (.of_running hd (mt h.idleStopped hd) h.remLow _) h.transfer
  | addressNeeded hd hp =>
    have hc := h.channel
    rw [hp] at hc
    exact .of_halves (hc.advance (q := .txBusy) nofun nofun nofun _) h.transfer
  | byteReady hd hp hr ht =>
    refine .of_halves (ht.channelAgrees h hp) ?_
    rw [ht.frame]
    exact h.transfer
  | i2cErr => exact .of_halves h.channel.stall h.transfer
  | i2cErrStop => exact .of_halves ⟨fun _ => ⟨rfl, .inr rfl⟩, nofun, Nat.zero_le _⟩ h.transfer
  | start => exact .of_halves h.channel (.of_inside (.inl rfl) true)
  | spiFirst hd hb ht =>
    have hsel : s.spiSel = true := h.selInside.mpr (.inl ht)
    refine .of_halves h.channel (?_ : TransferAgrees .readSecond true s.spiSel)
    exact hsel ▸ .of_inside (.inr rfl) true
  | spiSecond => exact .of_halves h.channel .of_finished
  | spiFail => exact .of_halves h.channel h.transfer.answered
  | read ha he hp =>
    obtain ⟨-, -, rfl⟩ := State.pop_some hp
    exact .of_halves h.channel h.transfer
  | _ => exact .of_halves h.channel h.transfer

/-- Every choice keeps the bus invariant: of the agents' own steps only a byte gone out finds the bus busy, and the
losses stall it, disarm a running channel, or clear SPI_BUSY. -/
theorem stepChoice_keepsBusInv {c : Choice} {s t : State} (h : BusInv s) (hx : stepChoice c s = .next t) :
    BusInv t := by
  refine stepChoice_rel (R := fun _ t => BusInv t)
    (record := fun t ht => ?record) (place := fun t p ht => .of_halves ht.channel ht.transfer)
    (done := fun i u _ _ hd => hd.keepsBusInv h) (enter := fun k e _ _ _ => .of_halves h.channel h.transfer)
    (ends := fun f rest _ _ _ _ => .of_halves h.channel h.transfer) (idle := .of_halves h.channel h.transfer)
    (byteOut := fun hp => ?byteOut) (loseTxe := fun hp _ => ?loseTxe)
    (loseSb := fun _ => .of_halves h.channel.stall h.transfer)
    (loseSpi := fun _ => .of_halves h.channel h.transfer.answered) hx
  case record =>
    rw [ht]
    exact .of_halves h.channel h.transfer
  case byteOut =>
    have hc := h.channel
    rw [hp] at hc
    exact .of_halves (hc.advance (q := .txReady) nofun nofun nofun _) h.transfer
  case loseTxe =>
    have hready : s.i2cPhase ≠ .idle ∧ s.i2cPhase ≠ .stalled := by rw [hp]; decide
    exact .of_halves (h.channel.advance hready.1 hready.2 hready.1 _) h.transfer

end Sys2Proof.Machine

open Sys2Proof.Machine

/-- Settles O56: each choice keeps the invariant, and taking it off the schedule touches nothing it reads. -/
theorem stepKeepsBusInv : Obligations.StepKeepsBusInv := by
  intro s t h hx
  obtain ⟨c, rest, hc⟩ := step_choice hx
  have hb : BusInv (s.begin rest) := .of_halves h.channel h.transfer
  exact stepChoice_keepsBusInv hb hc

end

section
/-! PROOFS for the display's two commands (O22, O23) and its three events (O24 to O29): what each answers once its check
or its turn is given, EV.I2C_TXE rule by rule; and their frame (O45). -/

namespace Sys2Proof.Machine

/-! ### The two commands (R201, R202) -/

theorem exec_dispKick_stopped {s : State} (hh : s.halted = false) (ha : AccessPasses .disp s) (hd : s.disp = .stopped) :
    exec .dispKick s = .next (({ s with disp := .idle, dispArmed := true }.emit .i2cStart).respond 1) := by
  simp only [exec, execDispKick, runCommand_passes ha, if_pos hd, runCommand_running hh]
  rfl

theorem exec_dispKick_rearms {s : State} (hh : s.halted = false) (ha : AccessPasses .disp s) (hd : s.disp ≠ .stopped) :
    exec .dispKick s = .next { s with dispArmed := true, rsp := some 0 } := by
  simp only [exec, execDispKick, runCommand_passes ha, if_neg hd, runCommand_running hh]
  rfl

/-- In a software handler or inside a claim the wait is no wait but a fault. -/
theorem exec_dispWaitdrain_faults {s : State} (hh : s.halted = false)
    (hx : s.running.ctx ≠ 0 ∨ s.running.claims ≠ []) :
    exec .dispWaitdrain s = .next (commandFault s .waitContext (encode .dispWaitdrain)) := by
  have hw : ¬ s.waiting = true := fun hw => by
    obtain ⟨-, hctx, hclaims, -⟩ := State.waiting_iff.mp hw
    exact hx.elim (absurd hctx) (absurd hclaims)
  rw [exec_waitdrain_command hw, if_pos hx, runCommand_raise hh]

theorem exec_dispWaitdrain_completes {s : State} (hh : s.halted = false) (hctx : s.running.ctx = 0)
    (hclaims : s.running.claims = []) (hl : 2 * s.fifoLen.toNat < s.cfg.cap) :
    exec .dispWaitdrain s = .next (s.respond (BitVec.ofNat 32 s.fifoLen.toNat)) := by
  have hw : ¬ s.waiting = true := fun hw => absurd (State.waiting_iff.mp hw).2.2.2 (not_le.mpr hl)
  rw [exec_waitdrain_command hw, if_neg (by simp [hctx, hclaims]), runCommand_running hh, BitVec.ofNat_toNat]

/-- A context that is at an item steps only by that item's command. -/
theorem contextStep_next_item {s t : State} {it : Item} (hi : s.item = some it) (h : contextStep s = .next t) :
    ∃ u, issueCommand it.word s = .next u := by
  unfold contextStep at h
  split_ifs at h
  rw [hi] at h
  obtain ⟨u, hu, -⟩ := mapNext_next h
  exact ⟨u, hu⟩

/-- While its wait is not complete the idle context has no step (R202, R318). -/
theorem contextStep_waiting {s t : State} {it : Item} (hw : s.waiting = true) (hi : s.item = some it)
    (hword : it.word = encode .dispWaitdrain) : contextStep s ≠ .next t := by
  intro h
  obtain ⟨u, hu⟩ := contextStep_next_item hi h
  have hd : decode .command it.word = .ok .dispWaitdrain := hword ▸ decode_encode (i := .dispWaitdrain) rfl
  rw [issueCommand_of_ok hd, exec_waitdrain_waiting hw] at hu
  cases hu

/-! ### An event of the I2C handler (R307, R314) -/

/-- In its turn the I2C handler's own access check passes, and its step is its rule's. -/
theorem runI2c_turn {s : State} (h : I2cTurn s) (ha : s.avail .i2c = true) (i : Instr) (a : Attempt) :
    runI2c i true s a = runEvent (encode i) ctxI2c true s a := by
  have hdeliver : s.canDeliver .i2c = true := (State.canDeliver_iff_turn rfl).mpr ⟨ha, h.turn⟩
  have hceil : s.ceil .disp = s.cfg.prioI2c := h.ceiling
  have hpass : s.access .disp s.cfg.prioI2c s.cfg.prioI2c = none :=
    State.access_passes (hceil ▸ BitVec.le_refl _) (hceil ▸ BitVec.le_refl _)
  rw [runI2c, hdeliver, hpass]
  rfl

theorem runI2c_done {s t : State} (h : I2cTurn s) (ha : s.avail .i2c = true) (i : Instr) :
    runI2c i true s (.done t) = .next t :=
  (runI2c_turn h ha i _).trans (runEvent_running h.turn.live _ _ _)

theorem runI2c_raise {s : State} (h : I2cTurn s) (ha : s.avail .i2c = true) (i : Instr) (c : FaultCode) :
    runI2c i true s (.raise c) = .next (eventFault s c (encode i) 0xE) :=
  (runI2c_turn h ha i _).trans (runEvent_running h.turn.live _ _ _)

theorem runI2c_stop {s : State} (h : I2cTurn s) (ha : s.avail .i2c = true) (i : Instr) (f : Fault) :
    runI2c i true s (.stop f) = .fault f :=
  (runI2c_turn h ha i _).trans (runEvent_running h.turn.live _ _ _)

theorem State.avail_i2c {s : State} :
    s.avail .i2c = true ↔ s.i2cPhase = .sbPending ∨ s.i2cPhase = .txBusy ∨ s.i2cPhase = .txReady := by
  simp [State.avail, or_assoc]

/-- The address byte as a number: the 7-bit address above a 0 bit (R204). -/
theorem addressByte_eq (c : Config) : addressByte c = BitVec.ofNat 8 (2 * c.dispAddr7.toNat) := by
  apply BitVec.eq_of_toNat_eq
  have haddr := c.dispAddr7.isLt
  simp only [addressByte, toNat_append_eq, BitVec.toNat_ofNat, BitVec.ofNat_eq_ofNat]
  omega

theorem exec_evI2cSb_writes {s : State} (h : I2cTurn s) (hp : s.i2cPhase = .sbPending) :
    exec .evI2cSb s = .next (wrote (addressByte s.cfg) s) := by
  rw [exec, execEvI2cSb, hp]
  exact runI2c_done h (State.avail_i2c.mpr (.inl hp)) _

theorem exec_evI2cErr_logs {s : State} (h : I2cTurn s) (ha : s.avail .i2c = true) (hc : s.cfg.errRecovery = .none)
    (k : ErrorKind) : exec (.evI2cErr k) s = .next { s with i2cPhase := .stalled, dispLastErr := k } := by
  simp only [exec, execEvI2cErr, ha, hc]
  exact runI2c_done h ha _

theorem exec_evI2cErr_stops {s : State} (h : I2cTurn s) (ha : s.avail .i2c = true)
    (hc : s.cfg.errRecovery = .toStopped) (k : ErrorKind) :
    exec (.evI2cErr k) s = .next
      { s with i2cPhase := .stalled, dispLastErr := k, disp := .stopped, dispArmed := false } := by
  simp only [exec, execEvI2cErr, ha, hc]
  exact runI2c_done h ha _

/-! ### EV.I2C_TXE where it may be delivered (R211, R324) -/

/-- The event's condition reads seven fields. -/
theorem ByteReady.of_eq {s t : State} (h : ByteReady s) (hc : t.cfg = s.cfg) (hd : t.ceilDisp = s.ceilDisp)
    (hr : t.running = s.running) (hq : t.pending = s.pending) (hh : t.halted = s.halted)
    (hp : t.i2cPhase = .txReady) (ha : t.dispArmed = true) : ByteReady t := by
  obtain ⟨⟨⟨hlive, habove, -, hsoft⟩, hceil⟩, -, -⟩ := h
  refine ⟨⟨⟨hh.trans hlive, ?_, ?_, ?_⟩, ?_⟩, hp, ha⟩
  · rwa [hc, hr]
  · exact fun _ => BitVec.le_refl _
  · simpa only [State.isPending, hc, hq] using hsoft
  · rw [hd, hc, hceil]

theorem ByteReady.avail {s : State} (h : ByteReady s) : s.avail .i2c = true :=
  State.avail_i2c.mpr (.inr (.inr h.phase))

/-- Its delivery condition met, the event runs the rule of the channel's state. -/
theorem exec_evI2cTxe_ready {s : State} (h : ByteReady s) :
    exec .evI2cTxe s = runI2c .evI2cTxe true s (txeByState s) := by
  rw [exec, execEvI2cTxe, h.phase, h.armed]
  rfl

theorem exec_evI2cTxe_done {s t : State} (h : ByteReady s) (ht : txeByState s = .done t) :
    exec .evI2cTxe s = .next t := by
  rw [exec_evI2cTxe_ready h, ht, runI2c_done h.toI2cTurn h.avail]

theorem exec_evI2cTxe_raise {s : State} {c : FaultCode} (h : ByteReady s) (ht : txeByState s = .raise c) :
    exec .evI2cTxe s = .next (eventFault s c (encode .evI2cTxe) 0xE) := by
  rw [exec_evI2cTxe_ready h, ht, runI2c_raise h.toI2cTurn h.avail]

section
variable {s : State} {n : Byte}

/-! The rule of each channel state (R212 to R217). -/

theorem txeByState_stopped (hd : s.disp = .stopped) : txeByState s = .raise .dispStoppedTxe := by
  simp only [txeByState, hd]

theorem txeByState_idle (hd : s.disp = .idle ∨ s.disp = .control 0) : txeByState s = idleLogic s := by
  rcases hd with hd | hd <;> simp only [txeByState, hd]
  rfl

theorem txeByState_control (hd : s.disp = .control n) (hn : n ≠ 0) :
    txeByState s = .done (wrote s.cfg.ctrlPrefix { s with disp := .control2 n }) := by
  simp only [txeByState, hd, txeControl, if_pos hn]
  rfl

theorem txeByState_control2 (hd : s.disp = .control2 n) : txeByState s = txeControl2 n s := by
  simp only [txeByState, hd]

theorem txeByState_data (hd : s.disp = .data n) (hn : n ≠ 0) : txeByState s = txeData n s := by
  simp only [txeByState, hd, if_neg hn]

theorem txeByState_dataEnd (hd : s.disp = .data 0) : txeByState s = txeDataEnd s := by
  simp only [txeByState, hd, if_true]

/-- A pop needs of the FIFO's invariant only that the cursor's slot exists (R206). -/
theorem State.pop_of_slot (hp : s.fifoPtr.toNat < s.cfg.cap) : s.pop = some (oldest s, popped s) :=
  State.pop_of_low hp

/-! The rules on an empty FIFO, and where it holds a byte. -/

theorem idleLogic_empty (hl : s.fifoLen = 0) : idleLogic s = .done { s with disp := .idle, dispArmed := false } := by
  simp only [idleLogic, State.fifoEmpty_eq_true.mpr hl, if_true]
  rfl

theorem idleLogic_control (hl : s.fifoLen ≠ 0) (hp : s.fifoPtr.toNat < s.cfg.cap)
    (hb : headerIsControl (oldest s) = true) :
    idleLogic s = .done
      (wrote s.cfg.ctrlPrefix { popped s with disp := .control2 (headerLength (oldest s)) }) := by
  simp only [idleLogic, State.fifoEmpty_eq_false.mpr hl, State.pop_of_slot hp, withSlot_some, hb]
  rfl

theorem idleLogic_data (hl : s.fifoLen ≠ 0) (hp : s.fifoPtr.toNat < s.cfg.cap)
    (hb : headerIsControl (oldest s) = false) :
    idleLogic s = .done (wrote s.cfg.dataPrefix { popped s with disp := .data (headerLength (oldest s)) }) := by
  simp only [idleLogic, State.fifoEmpty_eq_false.mpr hl, State.pop_of_slot hp, withSlot_some, hb]
  rfl

/-- The idle logic does not read the channel's state (R207). -/
theorem idleLogic_withDisp (d : DispState) : idleLogic { s with disp := d } = idleLogic s := by
  have hhead : ({ s with disp := d } : State).head = s.head := rfl
  unfold idleLogic State.pop
  rw [hhead]
  cases s.head <;> rfl

theorem txeControl2_empty (hn : n ≠ 0) (hl : s.fifoLen = 0) : txeControl2 n s = .done s.disarm := by
  simp only [txeControl2, if_neg hn, State.fifoEmpty_eq_true.mpr hl, if_true]

theorem txeControl2_byte (hn : n ≠ 0) (hl : s.fifoLen ≠ 0) (hp : s.fifoPtr.toNat < s.cfg.cap) :
    txeControl2 n s = .done (wrote (oldest s) { popped s with disp := .control (n - 1) }) := by
  simp only [txeControl2, if_neg hn, State.fifoEmpty_eq_false.mpr hl, State.pop_of_slot hp, withSlot_some]
  rfl

theorem txeData_empty (hl : s.fifoLen = 0) : txeData n s = .done s.disarm := by
  simp only [txeData, State.fifoEmpty_eq_true.mpr hl, if_true]

theorem txeData_byte (hl : s.fifoLen ≠ 0) (hp : s.fifoPtr.toNat < s.cfg.cap) :
    txeData n s = .done (wrote (oldest s) { popped s with disp := .data (n - 1) }) := by
  simp only [txeData, State.fifoEmpty_eq_false.mpr hl, State.pop_of_slot hp, withSlot_some]
  rfl

theorem txeDataEnd_fold (hl : s.fifoLen ≠ 0) (hp : s.fifoPtr.toNat < s.cfg.cap)
    (hb : headerIsControl (oldest s) = false) :
    txeDataEnd s = .done { popped s with disp := .data (headerLength (oldest s)) } := by
  simp only [txeDataEnd, State.fifoEmpty_eq_false.mpr hl, State.pop_of_slot hp, withSlot_some, hb]
  rfl

/-- The state after the bus restart that ends a data run (R217). -/
def restarted (s : State) : State :=
  { s with disp := .idle, i2cPhase := .sbPending, trace := s.trace ++ [.i2cRestart] }

theorem txeDataEnd_empty (hl : s.fifoLen = 0) : txeDataEnd s = .done (restarted s) := by
  simp only [txeDataEnd, State.fifoEmpty_eq_true.mpr hl, if_true]
  rfl

theorem txeDataEnd_control (hp : s.fifoPtr.toNat < s.cfg.cap) (hb : headerIsControl (oldest s) = true) :
    txeDataEnd s = .done (restarted s) := by
  by_cases hl : s.fifoLen = 0
  · exact txeDataEnd_empty hl
  · simp only [txeDataEnd, State.fifoEmpty_eq_false.mpr hl, State.pop_of_slot hp, withSlot_some, hb]
    rfl

end

/-- In Control(0) the event does what it does in Idle: the idle logic completes or stops, and raises no fault. -/
theorem exec_evI2cTxe_reenter {s : State} (h : ByteReady s) (hd : s.disp = .control 0) :
    exec .evI2cTxe s = exec .evI2cTxe { s with disp := .idle } := by
  have hi : ByteReady { s with disp := .idle } := h.of_eq rfl rfl rfl rfl rfl h.phase h.armed
  rw [exec_evI2cTxe_ready h, exec_evI2cTxe_ready hi, txeByState_idle (.inr hd), txeByState_idle (.inl rfl),
    idleLogic_withDisp (s := s) .idle]
  cases ha : idleLogic s with
  | done t => rw [runI2c_done h.toI2cTurn h.avail, runI2c_done hi.toI2cTurn hi.avail]
  | raise c => exact absurd ha idleLogic_no_raise
  | stop f => rw [runI2c_stop h.toI2cTurn h.avail, runI2c_stop hi.toI2cTurn hi.avail]

/-! ### A header and the counter as numbers (R200) -/

theorem headerIsControl_iff {b : Byte} : headerIsControl b = true ↔ 0x80 ≤ b.toNat := by
  have hb := b.isLt
  rw [headerIsControl, BitVec.getLsbD, Nat.testBit_eq_decide_div_mod_eq, decide_eq_true_iff]
  omega

theorem headerIsControl_eq_false {b : Byte} : headerIsControl b = false ↔ b.toNat < 0x80 := by
  rw [← Bool.not_eq_true, headerIsControl_iff, not_le]

theorem toNat_headerLength (b : Byte) : (headerLength b).toNat = b.toNat % 0x80 := by
  simp only [headerLength, BitVec.toNat_setWidth, BitVec.extractLsb'_toNat, Nat.shiftRight_zero]
  omega

theorem headerLength_control {b : Byte} (h : 0x80 ≤ b.toNat) : headerLength b = BitVec.ofNat 8 (b.toNat - 0x80) := by
  apply BitVec.eq_of_toNat_eq
  have hb := b.isLt
  rw [toNat_headerLength, BitVec.toNat_ofNat]
  omega

theorem headerLength_data {b : Byte} (h : b.toNat < 0x80) : headerLength b = b :=
  BitVec.eq_of_toNat_eq ((toNat_headerLength b).trans (Nat.mod_eq_of_lt h))

theorem pred_eq {n : Byte} (hn : n ≠ 0) : n - 1 = BitVec.ofNat 8 (n.toNat - 1) := by
  rw [← toNat_pred hn, BitVec.ofNat_toNat, BitVec.setWidth_eq]

/-! ### The frame -/

/-- The display's command and events, where they complete, write the channel, the cursor and count, the phase and the
trace. -/
theorem Done.display_frame {i : Instr} {s t : State} (h : Done s i t)
    (hi : i = .dispKick ∨ i = .evI2cSb ∨ i = .evI2cTxe ∨ ∃ k, i = .evI2cErr k) :
    t = { s with
      disp := t.disp
      dispArmed := t.dispArmed
      dispLastErr := t.dispLastErr
      fifoPtr := t.fifoPtr
      fifoLen := t.fifoLen
      i2cPhase := t.i2cPhase
      trace := t.trace
      rsp := t.rsp } := by
  cases h with
  | kickStopped | kick | addressNeeded | i2cErr | i2cErrStop | look => rfl
  | byteReady hd hp hr ht => rw [ht.frame]
  | start hs => rcases hs with rfl | ⟨v, rfl⟩ <;> simp at hi
  | _ => simp at hi

end Sys2Proof.Machine

open Sys2Proof.Machine

/-- Settles O22: the channel's state alone decides between the start and the re-arming. -/
theorem dispKickStartsOrRearms : Obligations.DispKickStartsOrRearms :=
  fun _ hh => ⟨accessFaults_of_runCommand hh rfl, fun ha hd => exec_dispKick_stopped hh ha hd,
    fun ha hd => exec_dispKick_rearms hh ha hd⟩

/-- Settles O23: half capacity decides whether the idle context's wait completes or is refused, and its context's step at
the wait is that command's. -/
theorem waitDrainCompletesBelowHalf : Obligations.WaitDrainCompletesBelowHalf := by
  intro s hh
  refine ⟨fun hx => exec_dispWaitdrain_faults hh hx, fun hctx hclaims hl => ?completes, fun hctx hclaims hl => ?waits⟩
  case completes => exact exec_dispWaitdrain_completes hh hctx hclaims hl
  case waits =>
    have hw : s.waiting = true := State.waiting_iff.mpr ⟨hh, hctx, hclaims, hl⟩
    exact ⟨exec_waitdrain_waiting hw, fun it hi hword t => contextStep_waiting hw hi hword⟩

/-- Settles O24: the rule reads no channel state. -/
theorem addressNeededWritesTheAddress : Obligations.AddressNeededWritesTheAddress := by
  intro s h hp
  rw [exec_evI2cSb_writes h hp, addressByte_eq]

/-- Settles O25: an armed channel on a bus that is ready is not stopped, by the bus invariant. -/
theorem byteReadyInStopped : Obligations.ByteReadyInStopped := by
  refine ⟨fun s h hd => exec_evI2cTxe_raise h (txeByState_stopped hd), fun s hb h hd => ?_⟩
  exact absurd h.armed (by simp [(hb.stoppedQuiet hd).1])

/-- Settles O26: both states run the idle logic, which looks at bit 7 of the oldest byte. -/
theorem byteReadyFetchesAHeader : Obligations.ByteReadyFetchesAHeader := by
  intro s h hd
  have hrule := txeByState_idle hd
  refine ⟨fun hl => ?starve, fun hl hp => ⟨fun hb => ?control, fun hb => ?data⟩⟩
  case starve => exact exec_evI2cTxe_done h (hrule.trans (idleLogic_empty hl))
  case control =>
    rw [← headerLength_control hb]
    exact exec_evI2cTxe_done h (hrule.trans (idleLogic_control hl hp (headerIsControl_iff.mpr hb)))
  case data =>
    have hstep := exec_evI2cTxe_done h (hrule.trans (idleLogic_data hl hp (headerIsControl_eq_false.mpr hb)))
    rwa [headerLength_data hb] at hstep

/-- Settles O27: Control(0) runs Idle's own rule, and the other four clauses are the branches of R214 and R215. -/
theorem byteReadyInControl : Obligations.ByteReadyInControl := by
  intro n s h
  refine ⟨fun hd hn => exec_evI2cTxe_done h (txeByState_control hd hn), fun hd => ?reenter, fun hd => ?zero,
    fun hd hn hl => ?suspend, fun hd hn hl hp => ?byte⟩
  case reenter => exact exec_evI2cTxe_reenter h hd
  case zero => exact exec_evI2cTxe_raise h (txeByState_control2 hd)
  case suspend => exact exec_evI2cTxe_done h ((txeByState_control2 hd).trans (txeControl2_empty hn hl))
  case byte =>
    rw [← pred_eq hn]
    exact exec_evI2cTxe_done h ((txeByState_control2 hd).trans (txeControl2_byte hn hl hp))

/-- Settles O28: with a count left the rule is R216's, with none R217's. -/
theorem byteReadyInData : Obligations.ByteReadyInData := by
  intro n s h
  refine ⟨fun hd hn hl => ?suspend, fun hd hn hl hp => ?byte, fun hd hl hp hb => ?fold, fun hd hend => ?restart⟩
  case suspend => exact exec_evI2cTxe_done h ((txeByState_data hd hn).trans (txeData_empty hl))
  case byte =>
    rw [← pred_eq hn]
    exact exec_evI2cTxe_done h ((txeByState_data hd hn).trans (txeData_byte hl hp))
  case fold =>
    have hrule := txeDataEnd_fold hl hp (headerIsControl_eq_false.mpr hb)
    rw [headerLength_data hb] at hrule
    exact exec_evI2cTxe_done h ((txeByState_dataEnd hd).trans hrule)
  case restart =>
    refine exec_evI2cTxe_done h ((txeByState_dataEnd hd).trans ?_)
    rcases hend with hl | ⟨hp, hb⟩
    · exact txeDataEnd_empty hl
    · exact txeDataEnd_control hp (headerIsControl_iff.mpr hb)

/-- Settles O29: ERR_RECOVERY alone decides what is written. -/
theorem i2cErrorIsRecorded : Obligations.I2cErrorIsRecorded := by
  intro k s h hp
  have ha : s.avail .i2c = true := State.avail_i2c.mpr hp
  exact ⟨fun hc => exec_evI2cErr_logs h ha hc k, fun hc => exec_evI2cErr_stops h ha hc k⟩

/-- Settles O45: a fault and an answer on a halted block touch none of the other fields, nor does a completion. -/
theorem displayFrame : Obligations.DisplayFrame := by
  intro i s t hi hx
  cases exec_next hx with
  | haltedEvent => exact .inl rfl
  | haltedCommand => exact .inl rfl
  | commandFault hh hp hc => exact .inr ⟨_, 0, hc.ne_none, .inl rfl⟩
  | eventFault hh hp hc => exact .inr ⟨_, _, hc.ne_none, .inr rfl⟩
  | done hh hd => exact .inl (hd.display_frame hi)

end

section
/-! PROOFS that a drain wait on a channel that takes no more bytes is stuck (O60): what a possible choice asks of the bus
agents, of PENDING and of the running context. -/

namespace Sys2Proof.Machine

/-! ### Choices that are not possible -/

/-- An event word that some agent owes is a bus event's (R309 (a)). -/
theorem owed_bus_event {w : Word} (h : ¬ Unowed w) : ∃ i, decode .event w = .ok i ∧
    (i = .evI2cSb ∨ i = .evI2cTxe ∨ (∃ b, i = .evSpiRx b) ∨ ∃ k, i = .evSpiRxfail k) := by
  unfold Unowed at h
  push Not at h
  obtain ⟨i, hd, htrigger, herr⟩ := h
  have hp := (decode_hasWord hd).port
  refine ⟨i, hd, ?_⟩
  cases i with
  | evI2cSb | evI2cTxe | evSpiRx | evSpiRxfail => simp
  | evI2cErr k => exact absurd rfl (herr k)
  | evSwTrigger k => exact absurd rfl (htrigger k)
  | _ => cases hp

/-- A bus event that answers a next state was offered by its agent (R323, R324, R327). -/
theorem exec_bus_event_next {i : Instr} {s t : State} (hh : s.halted = false)
    (hi : i = .evI2cSb ∨ i = .evI2cTxe ∨ (∃ b, i = .evSpiRx b) ∨ ∃ k, i = .evSpiRxfail k)
    (hx : exec i s = .next t) :
    s.i2cPhase = .sbPending ∨ (s.i2cPhase = .txReady ∧ s.dispArmed = true) ∨ s.spiBusy = true := by
  have offered {w : Word} {c : CtxId} {d : Bool} {a : Attempt} (h : runEvent w c d s a = .next t) : d = true := by
    by_contra hd
    rw [Bool.not_eq_true] at hd
    rw [hd, runEvent_undeliverable hh] at h
    cases h
  rcases hi with rfl | rfl | ⟨b, rfl⟩ | ⟨k, rfl⟩
  · have hd := offered hx
    simp only [Bool.and_eq_true, beq_iff_eq] at hd
    exact .inl hd.1
  · have hd := offered hx
    simp only [Bool.and_eq_true, beq_iff_eq] at hd
    exact .inr (.inl hd.1)
  all_goals
    have hd := offered hx
    simp only [Bool.and_eq_true] at hd
    exact .inr (.inr hd.1)

/-- With nothing pending no software handler is entered (R309, R312). -/
theorem enterHandler_no_pending {s t : State} (hp : s.pending = 0) (k : CtxId) : enterHandler k s ≠ .next t := by
  intro h
  have hnot : s.canDeliver (.sw k) = false := by
    simp [State.canDeliver, State.deliverable, State.avail, State.isPending, hp]
  unfold enterHandler at h
  split at h
  · cases h
  · rw [hnot] at h
    cases h

/-- The bus takes no more bytes: idle, stalled, or ready with the channel disarmed (R362). -/
def I2cQuiet (s : State) : Prop :=
  s.i2cPhase = .idle ∨ s.i2cPhase = .stalled ∨ (s.i2cPhase = .txReady ∧ s.dispArmed = false)

theorem I2cQuiet.not_offering {s : State} (h : I2cQuiet s) :
    s.i2cPhase ≠ .sbPending ∧ s.i2cPhase ≠ .txBusy ∧ ¬ (s.i2cPhase = .txReady ∧ s.dispArmed = true) := by
  rcases h with h | h | ⟨h, ha⟩ <;> simp [*]

/-- On a quiet bus, with no byte outstanding, nothing pending and the wait not complete, a choice that is possible is an
event word that nobody owes. -/
theorem stepChoice_quiet_next {c : Choice} {s t : State} {it : Item} (hw : s.waiting = true) (hi : s.item = some it)
    (hword : it.word = encode .dispWaitdrain) (hp : s.pending = 0) (hb : s.spiBusy = false) (hq : I2cQuiet s)
    (hx : stepChoice c s = .next t) : ∃ w, c = .event w ∧ Unowed w := by
  obtain ⟨hsb, hbusy, htxe⟩ := hq.not_offering
  have hh : s.halted = false := (State.waiting_iff.mp hw).1
  cases c with
  | event w =>
    refine ⟨w, rfl, by_contra fun howed => ?_⟩
    obtain ⟨i, hd, hbus⟩ := owed_bus_event howed
    have hexec : exec i s = .next t := (presentEvent_of_ok hd s).symm.trans hx
    rcases exec_bus_event_next hh hbus hexec with h | h | h
    · exact hsb h
    · exact htxe h
    · rw [hb] at h
      cases h
  | enter k => exact absurd hx (enterHandler_no_pending hp k)
  | context => exact absurd hx (contextStep_waiting hw hi hword)
  | i2cByteOut =>
    obtain ⟨-, hpossible, -⟩ := agentStep_next hx
    exact absurd (eq_of_beq hpossible) hbusy
  | loseTxe =>
    obtain ⟨-, hpossible, -⟩ := agentStep_next hx
    simp only [Bool.and_eq_true, beq_iff_eq] at hpossible
    exact absurd ⟨hpossible.1.2, hpossible.2⟩ htxe
  | loseSb =>
    obtain ⟨-, hpossible, -⟩ := agentStep_next hx
    simp only [Bool.and_eq_true, beq_iff_eq] at hpossible
    exact absurd hpossible.2 hsb
  | loseSpi =>
    obtain ⟨-, hpossible, -⟩ := agentStep_next hx
    simp [hb] at hpossible

end Sys2Proof.Machine

open Sys2Proof.Machine

/-- Settles O60: the wait is not the end of the idle context's program, and every choice but an event word that nobody
owes asks for what the premises exclude. -/
theorem waitOnAStoppedChannelIsStuck : Obligations.WaitOnAStoppedChannelIsStuck := by
  intro s it hh hctx hclaims hdone hi hword hl hp hb hq
  refine ⟨hh, fun hfinal => ?notFinal, fun c howed ⟨t, hx⟩ => ?impossible⟩
  case notFinal =>
    obtain ⟨-, -, -, hended⟩ := hfinal.idleAlone
    rw [hdone] at hended
    cases hended
  case impossible =>
    have hw : (s.begin s.schedule).waiting = true := State.waiting_iff.mpr ⟨hh, hctx, hclaims, hl⟩
    obtain ⟨w, hc, hunowed⟩ := stepChoice_quiet_next hw hi hword hp hb hq hx
    exact howed w hc hunowed

end

section
/-! PROOFS of the framing law (O30): a byte-ready event that writes a byte and the agent's step after it make a round,
rounds are chained along the packets' bytes, and each round takes the channel and the FIFO's list one byte further. -/

namespace Sys2Proof.Machine

/-! ### Runs -/

theorem run_succ {s t : State} (h : step s = .next t) (k : Nat) :
    Sys2Proof.core.run (k + 1) s = Sys2Proof.core.run k t := by
  have hcore : Sys2Proof.core.step s = .next t := h
  simp only [Host.Core.run, hcore]

/-- A run goes on from where its first part ends. -/
theorem run_add {s t : State} {j : Nat} (h : Sys2Proof.core.run j s = .next t) (k : Nat) :
    Sys2Proof.core.run (j + k) s = Sys2Proof.core.run k t := by
  induction j generalizing s with
  | zero =>
    injection h with h
    rw [Nat.zero_add, h]
  | succ j ih =>
    cases hs : Sys2Proof.core.step s with
    | next u =>
      rw [run_succ hs] at h
      rw [Nat.succ_add, run_succ hs, ih h]
    | fault f | refused r =>
      simp only [Host.Core.run, hs] at h
      cases h

/-! ### Rounds -/

/-- The choices of k rounds: k byte-ready events, each followed by the I2C agent's own step. -/
def rounds (k : Nat) : List Choice :=
  (List.replicate k [Choice.event 0xF1000000, Choice.i2cByteOut]).flatten

/-- The state after a round in which the channel writes b and goes to d, from the state it pops or leaves. -/
def roundEnd (b : Byte) (d : DispState) (rest : List Choice) (s : State) : State :=
  { s with disp := d, trace := s.trace ++ [.i2cWrite b], i2cPhase := .txReady, schedule := rest, rsp := none }

theorem step_event_txe {s : State} {rest : List Choice} (h : s.schedule = .event 0xF1000000 :: rest) :
    step s = exec .evI2cTxe (s.begin rest) := by
  have hd : decode .event 0xF1000000 = .ok .evI2cTxe := decode_encode (i := .evI2cTxe) rfl
  rw [step_of_event h]
  exact presentEvent_of_ok hd _

/-- A round is two steps: the event's, and the agent's that finds the bus busy. -/
theorem run_round {s v : State} {b : Byte} {d : DispState} {rest : List Choice}
    (hs : s.schedule = .event 0xF1000000 :: .i2cByteOut :: rest) (hv : v.halted = false)
    (hx : exec .evI2cTxe (s.begin (.i2cByteOut :: rest)) =
      .next (wrote b { v.begin (.i2cByteOut :: rest) with disp := d })) :
    Sys2Proof.core.run 2 s = .next (roundEnd b d rest v) := by
  rw [run_succ ((step_event_txe hs).trans hx)]
  refine run_succ (t := roundEnd b d rest v) ?_ 0
  show agentStep true (roundEnd b d rest v) v.halted = _
  rw [hv]
  rfl

/-- A part of a run that writes these bytes, one to a round. -/
structure Sends (bs : List Byte) (s t : State) : Prop where
  runs  : Sys2Proof.core.run (2 * bs.length) s = .next t
  trace : t.trace = s.trace ++ bs.map .i2cWrite
  cfg   : t.cfg = s.cfg

theorem Sends.refl (s : State) : Sends [] s s := ⟨rfl, by simp, rfl⟩

theorem Sends.trans {bs cs : List Byte} {s t u : State} (h : Sends bs s t) (h' : Sends cs t u) :
    Sends (bs ++ cs) s u where
  runs := by rw [List.length_append, Nat.mul_add, run_add h.runs, h'.runs]
  trace := by rw [h'.trace, h.trace, List.map_append, List.append_assoc]
  cfg := h'.cfg.trans h.cfg

/-! ### The channel at work -/

/-- The channel is in state d, its byte-ready event may be delivered, the FIFO holds l, and k rounds are to come before
the rest of the schedule. -/
structure Serving (d : DispState) (l : List Byte) (k : Nat) (rest : List Choice) (s : State) : Prop where
  fifo     : FifoInv s
  ready    : ByteReady s
  disp     : s.disp = d
  queue    : s.fifoList = l
  schedule : s.schedule = rounds k ++ rest

section
variable {d : DispState} {l : List Byte} {k : Nat} {rest : List Choice} {s : State} {b x n : Byte}

/-- Taking the next choice off the schedule leaves the event deliverable. -/
theorem ByteReady.begin (h : ByteReady s) (cs : List Choice) : ByteReady (s.begin cs) :=
  h.of_eq rfl rfl rfl rfl rfl h.phase h.armed

/-- What a FIFO that holds a byte shows: its slot exists, and the rest is left after a pop. -/
theorem Serving.holds_byte (h : Serving d (x :: l) k rest s) :
    s.fifoLen ≠ 0 ∧ s.fifoPtr.toNat < s.cfg.cap ∧ oldest s = x ∧ FifoInv (popped s) ∧ (popped s).fifoList = l := by
  have he : s.fifoEmpty = false := by
    rw [← Bool.not_eq_true, ← State.fifoList_eq_nil, h.queue]
    exact List.cons_ne_nil x l
  obtain ⟨hx, hl⟩ := List.cons.inj ((fifoList_popped h.fifo he).symm.trans h.queue)
  exact ⟨State.fifoEmpty_eq_false.mp he, h.fifo.ptrLow, hx, h.fifo.after_pop he, hl⟩

/-- A round that leaves the FIFO as it is. -/
theorem Serving.round_write {d' : DispState} (h : Serving d l (k + 1) rest s)
    (hx : ∀ t : State, ByteReady t → t.disp = d → t.cfg = s.cfg →
      exec .evI2cTxe t = .next (wrote b { t with disp := d' })) :
    ∃ t, Sends [b] s t ∧ Serving d' l k rest t := by
  have hexec := hx (s.begin (.i2cByteOut :: (rounds k ++ rest))) (h.ready.begin _) h.disp rfl
  refine ⟨roundEnd b d' (rounds k ++ rest) s, ⟨run_round h.schedule h.ready.turn.live hexec, rfl, rfl⟩, ?_⟩
  exact ⟨h.fifo.of_eq rfl rfl rfl rfl, h.ready.of_eq rfl rfl rfl rfl rfl rfl h.ready.armed, rfl, h.queue, rfl⟩

/-- A round that takes the oldest byte. -/
theorem Serving.round_pop {d' : DispState} (h : Serving d (x :: l) (k + 1) rest s)
    (hx : ∀ t : State, ByteReady t → t.disp = d → t.cfg = s.cfg → t.fifoLen ≠ 0 → t.fifoPtr.toNat < t.cfg.cap →
      oldest t = x → exec .evI2cTxe t = .next (wrote b { popped t with disp := d' })) :
    ∃ t, Sends [b] s t ∧ Serving d' l k rest t := by
  obtain ⟨hlen, hptr, hold, hfifo, hqueue⟩ := h.holds_byte
  have hexec := hx (s.begin (.i2cByteOut :: (rounds k ++ rest))) (h.ready.begin _) h.disp rfl hlen hptr hold
  refine ⟨roundEnd b d' (rounds k ++ rest) (popped s), ⟨run_round h.schedule h.ready.turn.live hexec, rfl, rfl⟩, ?_⟩
  exact ⟨hfifo.of_eq rfl rfl rfl rfl, h.ready.of_eq rfl rfl rfl rfl rfl rfl h.ready.armed, rfl, hqueue, rfl⟩

/-! The five kinds of round that a Control and a Data packet ask for (R207, R214 to R216). -/

theorem Serving.control_header (h : Serving .idle (x :: l) (k + 1) rest s) (hx : 0x80 ≤ x.toNat) :
    ∃ t, Sends [s.cfg.ctrlPrefix] s t ∧ Serving (.control2 (BitVec.ofNat 8 (x.toNat - 0x80))) l k rest t :=
  h.round_pop fun t ht hd hc hlen hptr hold => by
    subst hold
    exact hc ▸ (byteReadyFetchesAHeader t ht (.inl hd)).2 hlen hptr |>.1 hx

theorem Serving.data_header (h : Serving (.control 0) (x :: l) (k + 1) rest s) (hx : x.toNat < 0x80) :
    ∃ t, Sends [s.cfg.dataPrefix] s t ∧ Serving (.data x) l k rest t :=
  h.round_pop fun t ht hd hc hlen hptr hold => by
    subst hold
    exact hc ▸ (byteReadyFetchesAHeader t ht (.inr hd)).2 hlen hptr |>.2 hx

theorem Serving.control_prefixed (h : Serving (.control n) l (k + 1) rest s) (hn : n ≠ 0) :
    ∃ t, Sends [s.cfg.ctrlPrefix] s t ∧ Serving (.control2 n) l k rest t :=
  h.round_write fun _ ht hd hc => hc ▸ exec_evI2cTxe_done ht (txeByState_control hd hn)

theorem Serving.control_byte (h : Serving (.control2 n) (x :: l) (k + 1) rest s) (hn : n ≠ 0) :
    ∃ t, Sends [x] s t ∧ Serving (.control (n - 1)) l k rest t :=
  h.round_pop fun _ ht hd _ hlen hptr hold =>
    hold ▸ exec_evI2cTxe_done ht ((txeByState_control2 hd).trans (txeControl2_byte hn hlen hptr))

theorem Serving.data_byte (h : Serving (.data n) (x :: l) (k + 1) rest s) (hn : n ≠ 0) :
    ∃ t, Sends [x] s t ∧ Serving (.data (n - 1)) l k rest t :=
  h.round_pop fun _ ht hd _ hlen hptr hold =>
    hold ▸ exec_evI2cTxe_done ht ((txeByState_data hd hn).trans (txeData_byte hlen hptr))

end

/-! ### A packet, by induction on its payload -/

theorem ofNat_length_ne_zero {b : Byte} {bs : List Byte} (h : (b :: bs).length ≤ 127) :
    BitVec.ofNat 8 (b :: bs).length ≠ 0 := by
  intro h0
  have hlen : (b :: bs).length % 2 ^ 8 = 0 := (BitVec.toNat_ofNat _ _).symm.trans (congrArg BitVec.toNat h0)
  rw [List.length_cons] at h hlen
  omega

theorem ofNat_length_pred (b : Byte) (bs : List Byte) :
    BitVec.ofNat 8 (b :: bs).length - 1 = BitVec.ofNat 8 bs.length := by
  rw [List.length_cons]
  bv_omega

/-- A payload's bytes, each after its CTRL_PREFIX (R203). -/
def withPrefixes (p : Byte) (cs : List Byte) : List Byte := cs.flatMap fun c => [p, c]

theorem length_withPrefixes (p : Byte) (cs : List Byte) : (withPrefixes p cs).length = 2 * cs.length := by
  simp [withPrefixes, Nat.mul_comm]

section
variable {c : Byte} {cs ds l : List Byte} {k : Nat} {rest : List Choice} {s : State}

/-- A control payload after its first CTRL_PREFIX: its first byte, then each further one after its own CTRL_PREFIX. -/
theorem Serving.control_payload (hlen : (c :: cs).length ≤ 127)
    (h : Serving (.control2 (BitVec.ofNat 8 (c :: cs).length)) (c :: cs ++ l) (k + 2 * cs.length + 1) rest s) :
    ∃ t, Sends (c :: withPrefixes s.cfg.ctrlPrefix cs) s t ∧ Serving (.control 0) l k rest t := by
  obtain ⟨t, hbyte, ht⟩ := h.control_byte (ofNat_length_ne_zero hlen)
  rw [ofNat_length_pred] at ht
  induction cs generalizing c s t with
  | nil => exact ⟨t, hbyte, ht⟩
  | cons c' cs ih =>
    have hlen' : (c' :: cs).length ≤ 127 := Nat.le_of_succ_le hlen
    have hn := ofNat_length_ne_zero hlen'
    obtain ⟨u, hprefix, hu⟩ := ht.control_prefixed (k := k + 2 * cs.length + 1) hn
    obtain ⟨v, hbyte', hv⟩ := hu.control_byte hn
    rw [ofNat_length_pred] at hv
    obtain ⟨w, hothers, hw⟩ := ih hlen' hu v hbyte' hv
    have hsent := hbyte.trans hprefix
    rw [hsent.cfg] at hothers
    rw [hbyte.cfg] at hsent
    exact ⟨w, hsent.trans hothers, hw⟩

/-- A data payload: a byte to a round. -/
theorem Serving.data_payload (hlen : ds.length ≤ 127)
    (h : Serving (.data (BitVec.ofNat 8 ds.length)) (ds ++ l) (k + ds.length) rest s) :
    ∃ t, Sends ds s t ∧ Serving (.data 0) l k rest t := by
  induction ds generalizing s with
  | nil => exact ⟨s, .refl s, h⟩
  | cons d ds ih =>
    obtain ⟨t, hbyte, ht⟩ := h.data_byte (k := k + ds.length) (ofNat_length_ne_zero hlen)
    rw [ofNat_length_pred] at ht
    obtain ⟨u, hothers, hu⟩ := ih (Nat.le_of_succ_le hlen) ht
    exact ⟨u, hbyte.trans hothers, hu⟩

/-- A Control packet: the header sends the CTRL_PREFIX of the first byte (R219). -/
theorem Serving.control_packet (hpos : 1 ≤ cs.length) (hlen : cs.length ≤ 127)
    (h : Serving .idle (BitVec.ofNat 8 (0x80 + cs.length) :: cs ++ l) (k + 2 * cs.length) rest s) :
    ∃ t, Sends (withPrefixes s.cfg.ctrlPrefix cs) s t ∧ Serving (.control 0) l k rest t := by
  have hheader : (BitVec.ofNat 8 (0x80 + cs.length)).toNat = 0x80 + cs.length := by
    rw [BitVec.toNat_ofNat]
    omega
  cases cs with
  | nil => cases hpos
  | cons c cs =>
    obtain ⟨t, hprefix, ht⟩ := h.control_header (k := k + 2 * cs.length + 1) (by omega)
    rw [hheader, Nat.add_sub_cancel_left] at ht
    obtain ⟨u, hpayload, hu⟩ := ht.control_payload hlen
    rw [hprefix.cfg] at hpayload
    exact ⟨u, hprefix.trans hpayload, hu⟩

/-- A Data packet after it: the header sends the one DATA_PREFIX (R219). -/
theorem Serving.data_packet (hlen : ds.length ≤ 127)
    (h : Serving (.control 0) (BitVec.ofNat 8 ds.length :: ds ++ l) (k + ds.length + 1) rest s) :
    ∃ t, Sends (s.cfg.dataPrefix :: ds) s t ∧ Serving (.data 0) l k rest t := by
  have hheader : (BitVec.ofNat 8 ds.length).toNat < 0x80 := by
    rw [BitVec.toNat_ofNat]
    omega
  obtain ⟨t, hprefix, ht⟩ := h.data_header hheader
  obtain ⟨u, hpayload, hu⟩ := ht.data_payload hlen
  exact ⟨u, hprefix.trans hpayload, hu⟩

end

/-- With the packets sent and nothing left in the FIFO, one more event restarts the bus (R217, R220). -/
theorem Serving.step_restart {rest : List Choice} {s : State}
    (h : Serving (.data 0) [] 0 (.event 0xF1000000 :: rest) s) : step s = .next (restarted (s.begin rest)) := by
  have hempty : s.fifoLen = 0 := State.fifoEmpty_eq_true.mp (State.fifoList_eq_nil.mp h.queue)
  rw [step_event_txe h.schedule]
  exact exec_evI2cTxe_done (h.ready.begin rest)
    ((txeByState_dataEnd (s := s.begin rest) h.disp).trans (txeDataEnd_empty hempty))

end Sys2Proof.Machine

open Sys2Proof.Machine

/-- Settles O30: the Control packet's rounds are followed by the Data packet's, one to each byte on the wire, and then the
restart. -/
theorem framingLaw : Obligations.FramingLaw := by
  intro s cs ds rest hfifo hready hidle hc hc' _ hd' hqueue hsched
  have hrounds : 2 * cs.length + ds.length + 1 = 0 + ds.length + 1 + 2 * cs.length := by omega
  have hs : Serving .idle (BitVec.ofNat 8 (0x80 + cs.length) :: cs ++ BitVec.ofNat 8 ds.length :: ds)
      (0 + ds.length + 1 + 2 * cs.length) (.event 0xF1000000 :: rest) s :=
    ⟨hfifo, hready, hidle, hqueue, hrounds ▸ hsched⟩
  obtain ⟨u, hcontrol, hu⟩ := hs.control_packet hc hc'
  obtain ⟨t, hdata, ht⟩ := Serving.data_packet (l := []) hd' (by rwa [List.append_nil])
  have hsent := hcontrol.trans hdata
  rw [hcontrol.cfg] at hsent
  refine ⟨t, restarted (t.begin rest), ?runs, ?trace, ht.queue, ht.disp, ht.ready.turn.live, ht.step_restart, rfl, rfl,
    rfl⟩
  case runs =>
    have hlen : (withPrefixes s.cfg.ctrlPrefix cs ++ s.cfg.dataPrefix :: ds).length = 2 * cs.length + ds.length + 1 := by
      rw [List.length_append, length_withPrefixes, List.length_cons, Nat.add_assoc]
    exact hlen ▸ hsent.runs
  case trace =>
    rw [hsent.trace, List.map_append, withPrefixes, List.map_flatMap, List.append_assoc]
    rfl

end

section
/-! PROOFS for the sensor's two starts (O31) and the SPI handler's two events (O32, O33): what each answers once its check
or its turn is given; the two-phase law they make together (O34); and the frames of the sensor and of the trigger (O46). -/

namespace Sys2Proof.Machine

/-! ### The two starts (R241, R242) -/

/-- The command that starts a transfer with this action. -/
def startOf (reg : Byte) : SensAction → Instr
  | .read => .sensStartRead reg
  | .write v => .sensStartWrite reg v

/-- The state after a start: the device selected, the register byte sent, phase 1 ahead. -/
def started (reg : Byte) (action : SensAction) (s : State) : State :=
  { s with
    sensTag := .readFirst
    sensAction := action
    spiSel := true
    spiBusy := true
    trace := s.trace ++ [.spiSelect, .spiWrite reg]
    rsp := some 0 }

theorem exec_startOf (reg : Byte) (action : SensAction) (s : State) :
    exec (startOf reg action) s = startTransaction (startOf reg action) reg action s := by
  cases action <;> rfl

theorem startOf_accessFaults {s : State} (hh : s.halted = false) (reg : Byte) (action : SensAction) :
    AccessFaults .sens (startOf reg action) s :=
  accessFaults_of_runCommand hh (exec_startOf reg action s)

theorem exec_startOf_busy {s : State} (hh : s.halted = false) (ha : AccessPasses .sens s)
    (ht : s.sensTag ≠ .idle ∧ s.sensTag ≠ .finished) (reg : Byte) (action : SensAction) :
    exec (startOf reg action) s = .next (commandFault s .sensBusy (encode (startOf reg action))) := by
  rw [exec_startOf, startTransaction, runCommand_passes ha, if_pos ht, runCommand_raise hh]

theorem exec_startOf_starts {s : State} (hh : s.halted = false) (ha : AccessPasses .sens s)
    (ht : s.sensTag = .idle ∨ s.sensTag = .finished) (reg : Byte) (action : SensAction) :
    exec (startOf reg action) s = .next (started reg action s) := by
  have hfree : ¬ (s.sensTag ≠ .idle ∧ s.sensTag ≠ .finished) := fun h => ht.elim h.1 h.2
  have htrace : s.trace ++ [.spiSelect] ++ [.spiWrite reg] = s.trace ++ [.spiSelect, .spiWrite reg] :=
    List.append_assoc _ _ _
  rw [exec_startOf, startTransaction, runCommand_passes ha, if_neg hfree, runCommand_running hh, started, ← htrace]
  rfl

/-! ### An event of the SPI handler (R307, R314, R327) -/

/-- In its turn the SPI handler's own access check passes, and its step is its rule's. -/
theorem runSpi_turn {s : State} (h : SpiComplete s) (i : Instr) (a : Attempt) :
    runSpi i s a = runEvent (encode i) ctxSpi true s a := by
  have hdeliver : s.canDeliver .spi = true := (State.canDeliver_iff_turn rfl).mpr ⟨h.busy, h.turn⟩
  have hceil : s.ceil .sens = s.cfg.prioSpi := h.ceiling
  have hpass : s.access .sens s.cfg.prioSpi s.cfg.prioSpi = none :=
    State.access_passes (hceil ▸ BitVec.le_refl _) (hceil ▸ BitVec.le_refl _)
  rw [runSpi, h.busy, hdeliver, hpass]
  rfl

theorem runSpi_done {s t : State} (h : SpiComplete s) (i : Instr) : runSpi i s (.done t) = .next t :=
  (runSpi_turn h i _).trans (runEvent_running h.turn.live _ _ _)

theorem runSpi_raise {s : State} (h : SpiComplete s) (i : Instr) (c : FaultCode) :
    runSpi i s (.raise c) = .next (eventFault s c (encode i) 0xF) :=
  (runSpi_turn h i _).trans (runEvent_running h.turn.live _ _ _)

/-! ### EV.SPI_RX (R243 to R245) -/

/-- The state after phase 1: its byte sent, phase 2 ahead. -/
def sentSecond (s : State) : State :=
  { s with sensTag := .readSecond, spiBusy := true, trace := s.trace ++ [.spiWrite s.sensValue] }

/-- The state after phase 2: the byte captured, the bus released. -/
def captured (b : Byte) (s : State) : State :=
  { s with
    sensTag := .finished
    sensResult := b
    spiSel := false
    spiBusy := false
    trace := s.trace ++ [.spiRelease] }

theorem exec_evSpiRx_first {s : State} (h : SpiComplete s) (ht : s.sensTag = .readFirst) (b : Byte) :
    exec (.evSpiRx b) s = .next (sentSecond s) := by
  simp only [exec, execEvSpiRx, ht]
  exact runSpi_done h _

theorem exec_evSpiRx_second {s : State} (h : SpiComplete s) (ht : s.sensTag = .readSecond) (b : Byte) :
    exec (.evSpiRx b) s = .next (captured b s) := by
  simp only [exec, execEvSpiRx, ht]
  exact runSpi_done h _

theorem exec_evSpiRx_unexpected {s : State} (h : SpiComplete s) (h₁ : s.sensTag ≠ .readFirst)
    (h₂ : s.sensTag ≠ .readSecond) (b : Byte) :
    exec (.evSpiRx b) s = .next (eventFault s .sensUnexpectedEvent (encode (.evSpiRx b)) 0xF) := by
  rw [← runSpi_raise h, exec, execEvSpiRx]
  cases ht : s.sensTag with
  | readFirst => exact absurd ht h₁
  | readSecond => exact absurd ht h₂
  | idle | finished | writeFirst | writeSecond => rfl

/-! ### EV.SPI_RXFAIL (R246) -/

theorem exec_evSpiRxfail_unexpected {s : State} (h : SpiComplete s) (h₁ : s.sensTag ≠ .readFirst)
    (h₂ : s.sensTag ≠ .readSecond) (k : ErrorKind) :
    exec (.evSpiRxfail k) s = .next (eventFault s .sensUnexpectedEvent (encode (.evSpiRxfail k)) 0xF) := by
  rw [exec, execEvSpiRxfail, if_pos ⟨h₁, h₂⟩, runSpi_raise h]

theorem exec_evSpiRxfail_traps {s : State} (h : SpiComplete s) (ht : s.sensTag = .readFirst ∨ s.sensTag = .readSecond)
    (hp : s.cfg.rxFailPolicy = .trap) (k : ErrorKind) :
    exec (.evSpiRxfail k) s = .next (eventFault s .sensRxfail (encode (.evSpiRxfail k)) 0xF) := by
  rw [exec, execEvSpiRxfail, if_neg fun hn => ht.elim hn.1 hn.2, hp]
  exact runSpi_raise h _ _

theorem exec_evSpiRxfail_logs {s : State} (h : SpiComplete s) (ht : s.sensTag = .readFirst ∨ s.sensTag = .readSecond)
    (hp : s.cfg.rxFailPolicy = .log) (k : ErrorKind) :
    exec (.evSpiRxfail k) s = .next { s with spiBusy := false, sensLastErr := k } := by
  rw [exec, execEvSpiRxfail, if_neg fun hn => ht.elim hn.1 hn.2, hp]
  exact runSpi_done h _

/-! ### From the start to the second completion (R247) -/

/-- A start whose claim is released to a priority p that gives the SPI handler its turn makes the first completion
deliverable: it touches the transfer and the SPI interface alone. -/
theorem spiComplete_of_released_start {s : State} {p : Prio}
    (h : Turn { s with running := { s.running with cur := p } } s.cfg.prioSpi) (hceil : s.ceilSens = s.cfg.prioSpi)
    (reg : Byte) (action : SensAction) (held : List Prio) (v : Option Word) :
    SpiComplete
      { started reg action s with running := { s.running with claims := held, cur := p }, rsp := v } where
  turn := ⟨h.live, h.above, h.i2c, h.soft⟩
  ceiling := hceil
  busy := rfl

/-- And so does phase 1 the second. -/
theorem SpiComplete.sentSecond {s : State} (h : SpiComplete s) : SpiComplete (sentSecond s) where
  turn := ⟨h.turn.live, h.turn.above, h.turn.i2c, h.turn.soft⟩
  ceiling := h.ceiling
  busy := rfl

/-! ### The frames -/

/-- The sensor's commands and events, where they complete, write the transfer, the SPI interface and the trace. -/
theorem Done.sensor_frame {i : Instr} {s t : State} (h : Done s i t)
    (hi : (∃ r, i = .sensStartRead r) ∨ (∃ r v, i = .sensStartWrite r v) ∨ (∃ b, i = .evSpiRx b) ∨
      ∃ k, i = .evSpiRxfail k) :
    t = { s with
      sensTag := t.sensTag
      sensAction := t.sensAction
      sensResult := t.sensResult
      sensLastErr := t.sensLastErr
      spiBusy := t.spiBusy
      spiSel := t.spiSel
      trace := t.trace
      rsp := t.rsp } := by
  cases h with
  | start | spiFirst | spiSecond | spiFail | look => rfl
  | _ => simp at hi

/-- The trigger, where it completes, sets its pending bit. -/
theorem Done.trigger_frame {k : CtxId} {s t : State} (h : Done s (.evSwTrigger k) t) :
    t = { s with pending := t.pending } := by
  cases h with
  | trigger => rfl
  | look hi => simp at hi
  | start hi => simp at hi

end Sys2Proof.Machine

open Sys2Proof.Machine

/-- Settles O31: the two starts are one command over its action, whose checks are the access and then the transfer's
state. -/
theorem sensorStarts : Obligations.SensorStarts := by
  intro reg v s hh
  refine ⟨startOf_accessFaults hh reg .read, startOf_accessFaults hh reg (.write v), fun ha h₁ h₂ => ?busy,
    fun ha ht => ?starts⟩
  case busy => exact ⟨exec_startOf_busy hh ha ⟨h₁, h₂⟩ reg .read, exec_startOf_busy hh ha ⟨h₁, h₂⟩ reg (.write v)⟩
  case starts => exact ⟨exec_startOf_starts hh ha ht reg .read, exec_startOf_starts hh ha ht reg (.write v)⟩

/-- Settles O32: the transfer's state decides, phase 1 sending the action's value; an outstanding byte is in a transfer, by
the bus invariant. -/
theorem spiCompletionAdvancesTheTransfer : Obligations.SpiCompletionAdvancesTheTransfer := by
  intro b s
  refine ⟨fun h ht => ⟨fun hread => ?read, fun v hwrite => ?write⟩, fun h ht => exec_evSpiRx_second h ht b,
    fun h h₁ h₂ => exec_evSpiRx_unexpected h h₁ h₂ b, fun hinv h => hinv.busyInside h.busy⟩
  case read =>
    have hvalue : s.sensValue = 0 := congrArg SensAction.value hread
    rw [exec_evSpiRx_first h ht, sentSecond, hvalue]
  case write =>
    have hvalue : s.sensValue = v := congrArg SensAction.value hwrite
    rw [exec_evSpiRx_first h ht, sentSecond, hvalue]

/-- Settles O33: the transfer's state is checked first, then RX_FAIL_POLICY. -/
theorem spiReceiveFailure : Obligations.SpiReceiveFailure := by
  intro k s h
  exact ⟨fun h₁ h₂ => exec_evSpiRxfail_unexpected h h₁ h₂ k, fun ht hp => exec_evSpiRxfail_traps h ht hp k,
    fun ht hp => exec_evSpiRxfail_logs h ht hp k⟩

/-- Settles O34: the start, the release, phase 1 and phase 2 in turn, each completion deliverable because the steps before
it left the SPI handler's turn as it was. -/
theorem twoPhaseLaw : Obligations.TwoPhaseLaw := by
  intro s held p reg v x y hturn hceil ha hclaims ht i sent hi
  obtain ⟨action, rfl, rfl⟩ : ∃ action, i = startOf reg action ∧ sent = action.value := by
    rcases hi with ⟨rfl, hsent⟩ | ⟨rfl, hsent⟩
    · exact ⟨.read, rfl, hsent⟩
    · exact ⟨.write v, rfl, hsent⟩
  have hlive : s.halted = false := hturn.live
  have hfirst := spiComplete_of_released_start hturn hceil reg action held (some (p.setWidth 32))
  refine ⟨_, _, _, _, exec_startOf_starts hlive ha ht reg action, exec_arbRelease_restores hlive hclaims,
    exec_evSpiRx_first hfirst rfl x, exec_evSpiRx_second hfirst.sentSecond rfl y, rfl, rfl, ?trace⟩
  case trace => simp [captured, sentSecond, started, State.sensValue]

/-- Settles O46: a fault and an answer on a halted block touch none of the other fields, nor does a completion. -/
theorem sensorAndTriggerFrames : Obligations.SensorAndTriggerFrames := by
  refine ⟨fun i s t hi hx => ?sensor, fun k s t hx => ?trigger⟩
  case sensor =>
    cases exec_next hx with
    | haltedEvent => exact .inl rfl
    | haltedCommand => exact .inl rfl
    | commandFault hh hp hc => exact .inr ⟨_, 0, hc.ne_none, .inl rfl⟩
    | eventFault hh hp hc => exact .inr ⟨_, _, hc.ne_none, .inr rfl⟩
    | done hh hd => exact .inl (hd.sensor_frame hi)
  case trigger =>
    cases exec_next hx with
    | haltedEvent => exact .inl rfl
    | haltedCommand hh hp => cases hp
    | commandFault hh hp => cases hp
    | eventFault hh hp hc => exact .inr ⟨_, hc.ne_none, rfl⟩
    | done hh hd => exact .inl hd.trigger_frame

end

section
/-! PROOFS for the two commands of the RES unit: what classification reports (O35), one link of a chain (O36), and what
a chain folded left to right reports (O37). -/

namespace Sys2Proof.Machine

/-! ### RES.CLASSIFY (R272, R273) -/

theorem exec_resClassify_running {s : State} (hh : s.halted = false) (status : BitVec 5) (polled : Bool) :
    exec (.resClassify status polled) s = .next (s.respond ((classify status polled).code.setWidth 32)) := by
  simp only [exec, execResClassify, runCommand_running hh]

/-- The first-match order of R272 is the order of the bits, and the codes of the error kinds follow it (R270): at bit n
the tests below it fail and its own decides. -/
theorem classify_response_of_first_set {status : BitVec 5} {n : Nat} (hn : n < 5) (hset : status.getLsbD n = true)
    (hclear : ∀ m, m < n → status.getLsbD m = false) (polled : Bool) :
    (classify status polled).code.setWidth 32 = BitVec.ofNat 32 (0x11 + n) := by
  interval_cases n <;>
    simp only [classify, hset, hclear, Nat.reduceLT, Bool.false_eq_true, if_true, if_false] <;> rfl

theorem classify_response_of_none_set (polled : Bool) :
    (classify 0 polled).code.setWidth 32 = if polled then (0 : Word) else 1 := by
  cases polled <;> decide

/-! ### RES.CONT (R274) -/

/-- R274's combinator: the next result after Ok, the prior one after any other. -/
def contResult (prior next : BusResult) : BusResult :=
  if prior = .ok then next else prior

@[simp] theorem contResult_ok (next : BusResult) : contResult .ok next = next := rfl

theorem contResult_of_ne_ok {prior : BusResult} (hp : prior ≠ .ok) (next : BusResult) :
    contResult prior next = prior := if_neg hp

theorem exec_resCont_running {s : State} (hh : s.halted = false) (prior next : BusResult) :
    exec (.resCont prior next) s =
      .next (s.respond (contResponse (decide (prior = .ok)) (contResult prior next))) := by
  simp only [exec, execResCont, runCommand_running hh]
  cases prior <;> rfl

/-- RSP[8] above the result's byte. -/
theorem contResponse_eq (executed : Bool) (r : BusResult) :
    contResponse executed r = BitVec.ofNat 32 (0x100 * executed.toNat + r.code.toNat) := by
  apply BitVec.eq_of_toNat_eq
  have hr := r.code.isLt
  have he := executed.toNat_lt
  simp only [contResponse, BitVec.toNat_setWidth, toNat_append_eq, BitVec.toNat_ofBool, BitVec.toNat_ofNat]
  omega

/-- The low byte, which the next link of a chain is fed, is the result's code. -/
theorem contResponse_a (executed : Bool) (r : BusResult) : (contResponse executed r).a = r.code := by
  apply BitVec.eq_of_toNat_eq
  have hr := r.code.isLt
  have he := executed.toNat_lt
  rw [Word.a_toNat, contResponse_eq, BitVec.toNat_ofNat]
  omega

/-! ### A chain (R275) -/

theorem foldl_contResult_of_ne_ok {prior : BusResult} (hp : prior ≠ .ok) (results : List BusResult) :
    results.foldl contResult prior = prior := by
  induction results with
  | nil => rfl
  | cons r rs ih => rw [List.foldl_cons, contResult_of_ne_ok hp, ih]

theorem foldl_contResult_ok (results : List BusResult) :
    results.foldl contResult .ok = (results.find? fun r => decide (r ≠ .ok)).getD .ok := by
  induction results with
  | nil => rfl
  | cons r rs ih =>
    rw [List.foldl_cons, contResult_ok]
    by_cases hr : r = .ok
    · rw [hr, ih, List.find?_cons_of_neg (by decide)]
    · rw [foldl_contResult_of_ne_ok hr, List.find?_cons_of_pos (by simpa using hr), Option.getD_some]

end Sys2Proof.Machine

open Sys2Proof Sys2Proof.Machine

/-- Settles O35: the response is the code of what `classify` reports. -/
theorem classifyIsFirstMatch : Obligations.ClassifyIsFirstMatch := by
  intro status polled s hh
  refine ⟨fun n hn hset hclear => ?_, fun hzero => ?_⟩
  · rw [exec_resClassify_running hh, classify_response_of_first_set hn hset hclear]
    rfl
  · rw [exec_resClassify_running hh, hzero, classify_response_of_none_set]
    rfl

/-- Settles O36: the executed bit is set exactly after Ok, and the result is R274's. -/
theorem continuationShortCircuits : Obligations.ContinuationShortCircuits := by
  intro prior next s hh
  rw [exec_resCont_running hh, contResponse_eq]
  refine ⟨fun hp => ?_, fun hp => ?_⟩
  · subst hp
    rfl
  · simp [hp, contResult_of_ne_ok hp, State.respond]

/-- Settles O37: a link's low byte reads back as R274's result, so the chain is a fold of `contResult`. -/
theorem chainReportsTheFirstFailure : Obligations.ChainReportsTheFirstFailure := by
  intro s results hh
  simp only [exec_resCont_running hh, State.respond_rsp, Option.map_some, Option.bind_some, contResponse_a,
    BusResult.ofCode_code, Option.getD_some]
  exact foldl_contResult_ok results

end

section
/-! PROOFS for the faults: what a step does to the fault record (O58), what a fault leaves unchanged (O49) and why it was
raised (O50). -/

namespace Sys2Proof.Machine

/-! ### The fault record over a step (R52, R300, R303) -/

/-- HALTED and the fault record are the same in both states. -/
structure SameRecord (s t : State) : Prop where
  halted    : t.halted = s.halted
  faultCode : t.faultCode = s.faultCode
  faultWord : t.faultWord = s.faultWord
  faultCtx  : t.faultCtx = s.faultCtx

/-- The faults a choice can raise, each with the state after it (R300, R301). -/
inductive ChoiceFaults (c : Choice) (s : State) : State → Prop
  | event {w : Word} {i : Instr} {code : FaultCode} (hc : c = .event w) (hd : decode .event w = .ok i)
      (hr : Raises s i code) : ChoiceFaults c s (eventFault s code w (eventCtx i))
  | illegalEvent {w : Word} {e : DecodeError} (hc : c = .event w) (hd : decode .event w = .error e) :
      ChoiceFaults c s (eventFault s .illegalCmd w 0xD)
  | command {it : Item} {i : Instr} {code : FaultCode} (hc : c = .context) (hi : s.item = some it)
      (hd : decode .command it.word = .ok i) (hr : Raises s i code) :
      ChoiceFaults c s ((commandFault s code it.word).advance it)
  | illegalCommand {it : Item} {e : DecodeError} (hc : c = .context) (hi : s.item = some it)
      (hd : decode .command it.word = .error e) : ChoiceFaults c s ((commandFault s .illegalCmd it.word).advance it)
  | leak (hc : c = .context) (hi : s.item = none) (hl : s.running.claims ≠ []) :
      ChoiceFaults c s (eventFault s .arbClaimLeak 0 s.running.ctx)

theorem Done.sameRecord {i : Instr} {s t : State} (h : Done s i t) : SameRecord s t := by
  obtain ⟨-, -, -, -, -, -, hh, hc, hw, hx⟩ := h.keeps
  exact ⟨hh, hc, hw, hx⟩

theorem SameRecord.advance {s t : State} (h : SameRecord s t) (it : Item) : SameRecord s (t.advance it) := by
  obtain ⟨hh, hc, hw, hx⟩ := h
  constructor <;> simpa

/-- An instruction that answers a next state keeps the fault record, or raises a fault on a live block. -/
theorem exec_record {i : Instr} {s t : State} (h : exec i s = .next t) :
    SameRecord s t ∨ s.halted = false ∧ ∃ code, Raises s i code ∧
      ((i.port = .event ∧ t = eventFault s code (encode i) (eventCtx i)) ∨
        (i.port = .command ∧ t = commandFault s code (encode i))) := by
  cases exec_next h with
  | haltedEvent => exact .inl ⟨rfl, rfl, rfl, rfl⟩
  | haltedCommand => exact .inl ⟨rfl, rfl, rfl, rfl⟩
  | commandFault hh hp hc => exact .inr ⟨hh, _, hc, .inr ⟨hp, rfl⟩⟩
  | eventFault hh hp hc => exact .inr ⟨hh, _, hc, .inl ⟨hp, rfl⟩⟩
  | done hh hd => exact .inl hd.sameRecord

/-- An event word that runs keeps the fault record, or raises the event's fault. -/
theorem exec_event_record {w : Word} {i : Instr} {s t : State} (hd : decode .event w = .ok i)
    (hx : exec i s = .next t) : SameRecord s t ∨ s.halted = false ∧ ChoiceFaults (.event w) s t := by
  obtain ⟨hword, hport, -⟩ := decode_hasWord hd
  rcases exec_record hx with hs | ⟨hh, code, hr, ⟨-, rfl⟩ | ⟨hp, -⟩⟩
  · exact .inl hs
  · rw [hword]
    exact .inr ⟨hh, .event rfl hd hr⟩
  · exact absurd (hport.symm.trans hp) (by decide)

/-- A command that runs keeps the fault record, or raises the command's fault. -/
theorem exec_command_record {it : Item} {i : Instr} {s t : State} (hi : s.item = some it)
    (hd : decode .command it.word = .ok i) (hx : exec i s = .next t) :
    SameRecord s (t.advance it) ∨ s.halted = false ∧ ChoiceFaults .context s (t.advance it) := by
  obtain ⟨hword, hport, -⟩ := decode_hasWord hd
  rcases exec_record hx with hs | ⟨hh, code, hr, ⟨hp, -⟩ | ⟨-, rfl⟩⟩
  · exact .inl (hs.advance it)
  · exact absurd (hport.symm.trans hp) (by decide)
  · rw [hword]
    exact .inr ⟨hh, .command rfl hi hd hr⟩

/-- A choice that answers a next state keeps the fault record, or raises a fault on a live block (R303). -/
theorem stepChoice_record {c : Choice} {s t : State} (h : stepChoice c s = .next t) :
    SameRecord s t ∨ s.halted = false ∧ ChoiceFaults c s t := by
  cases stepChoice_next h with
  | event hc hd hx => exact hc ▸ exec_event_record hd hx
  | illegalEvent hc hd hh => exact .inr ⟨hh, .illegalEvent hc hd⟩
  | command hc hf hi hd hx => exact hc ▸ exec_command_record hi hd hx
  | illegalCommand hc hf hi hd hh => exact .inr ⟨hh, .illegalCommand hc hi hd⟩
  | leak hc hf hi hh hl => exact .inr ⟨hh, .leak hc hi hl⟩
  | answeredCommand =>
    have hs : SameRecord s (s.respond (faultResponse s.faultCode)) := ⟨rfl, rfl, rfl, rfl⟩
    exact .inl (hs.advance _)
  | _ => exact .inl ⟨rfl, rfl, rfl, rfl⟩

/-- A choice that halts a live block raised a fault. -/
theorem stepChoice_halts {c : Choice} {s t : State} (hh : s.halted = false) (h : stepChoice c s = .next t)
    (ht : t.halted = true) : ChoiceFaults c s t := by
  rcases stepChoice_record h with hs | ⟨-, hf⟩
  · rw [hs.halted, hh] at ht
    cases ht
  · exact hf

/-! ### What a fault leaves behind (R300) -/

/-- A fault halts the block and records a code. -/
theorem ChoiceFaults.recorded {c : Choice} {s t : State} (h : ChoiceFaults c s t) :
    t.halted = true ∧ t.faultCode ≠ .none := by
  cases h with
  | event hc hd hr => exact ⟨rfl, hr.ne_none⟩
  | illegalEvent => exact ⟨rfl, by simp [eventFault]⟩
  | command hc hi hd hr => exact ⟨State.advance_halted _ _, (State.advance_faultCode _ _).trans_ne hr.ne_none⟩
  | illegalCommand => exact ⟨State.advance_halted _ _, by simp [commandFault]⟩
  | leak => exact ⟨rfl, by simp [eventFault]⟩

/-- A fault's only effects are the four fault fields, the response and the answered context's place. -/
theorem ChoiceFaults.frame {c : Choice} {s t : State} (h : ChoiceFaults c s t) :
    t = { s with
      faultCode := t.faultCode
      faultWord := t.faultWord
      faultCtx := t.faultCtx
      halted := true
      rsp := t.rsp
      running := { s.running with place := t.running.place } } := by
  cases h with
  | command | illegalCommand => rw [State.advance_eq]; rfl
  | _ => rfl

/-- The fault of an event word. -/
theorem ChoiceFaults.of_event {w : Word} {s t : State} (h : ChoiceFaults (.event w) s t) :
    ∃ code ctx, t = eventFault s code w ctx ∧ (∀ i, decode .event w = .ok i → ctx = eventCtx i) ∧
      ∀ e, decode .event w = .error e → ctx = 0xD := by
  cases h with
  | event hc hd | illegalEvent hc hd =>
    cases hc
    exact ⟨_, _, rfl, by simp [hd], by simp [hd]⟩
  | command hc | illegalCommand hc | leak hc => cases hc

/-- The fault of the running context's command. -/
theorem ChoiceFaults.of_item {it : Item} {s t : State} (h : ChoiceFaults .context s t) (hit : s.item = some it) :
    ∃ code, t = (commandFault s code it.word).advance it := by
  cases h with
  | event hc | illegalEvent hc => cases hc
  | command hc hi | illegalCommand hc hi =>
    cases hi.symm.trans hit
    exact ⟨_, rfl⟩
  | leak hc hi => cases hi.symm.trans hit

/-- The fault at the end of the running context's program (R313). -/
theorem ChoiceFaults.of_end {s t : State} (h : ChoiceFaults .context s t) (hend : s.item = none) :
    t = eventFault s .arbClaimLeak 0 s.running.ctx := by
  cases h with
  | event hc | illegalEvent hc => cases hc
  | command hc hi | illegalCommand hc hi => cases hi.symm.trans hend
  | leak => rfl

/-! ### The record agrees with HALTED (R52, R303) -/

/-- FaultInv reads the record alone. -/
theorem FaultInv.of_record {s t : State} (h : FaultInv s) (hr : SameRecord s t) : FaultInv t := by
  obtain ⟨hh, hc, hw, hx⟩ := hr
  exact ⟨by rw [hh, hc]; exact h.haltedIff, by rw [hh, hw, hx]; exact h.noRecord⟩

theorem FaultInv.of_recorded {t : State} (hh : t.halted = true) (hc : t.faultCode ≠ .none) : FaultInv t :=
  ⟨iff_of_true hh hc, fun h => by rw [hh] at h; cases h⟩

/-! ### Causes (R301) -/

/-- A trigger of an id that SW_CTX does not hold is an illegal word (R107, R108). -/
theorem illegal_of_absent_trigger {c : Config} {w : Word} {k : CtxId} (hwf : c.wf = true)
    (hd : decode .event w = .ok (.evSwTrigger k)) (hk : (c.swEntry k).isSome ≠ true) : Illegal c .event w := by
  rintro ⟨r, hr, ha, hcheck⟩
  obtain ⟨i, hi, hm⟩ := readsRow hwf hr .event w ha hcheck
  obtain rfl : i = .evSwTrigger k := Except.ok.inj (hi.decode.symm.trans hd)
  have hid : (c.swEntry (w.a.setWidth 4)).isSome = true := hcheck.2.2.2 hm.symm
  have hw : w.a.setWidth 4 = k := by simp [← hi.word, encode]
  exact hk (hw ▸ hid)

/-- What an instruction raises a fault for is the cause of its row, in a choice that runs the instruction. -/
theorem Raises.cause {c : Choice} {s : State} {i : Instr} {code : FaultCode} (hwf : s.cfg.wf = true)
    (hruns : Runs c s i) (h : Raises s i code) : FaultCause c s code := by
  cases h with
  | above ht h => exact ⟨i, _, hruns, ht, h⟩
  | unclaimed ht hb h => exact ⟨i, _, hruns, ht, hb, h⟩
  | nested hb h => exact ⟨⟨_, hruns, hb⟩, h⟩
  | nothingHeld h => exact ⟨hruns, h⟩
  | waits h => exact ⟨hruns, h⟩
  | startBusy hi h =>
    rcases hi with rfl | ⟨v, rfl⟩
    · exact ⟨.inl ⟨_, hruns⟩, h⟩
    · exact ⟨.inr ⟨_, v, hruns⟩, h⟩
  | stopped hd hr h => exact ⟨hruns, h⟩
  | emptyPacket h => exact ⟨hruns, h⟩
  | unexpected hi hb h =>
    rcases hi with ⟨b, rfl⟩ | ⟨k, rfl⟩
    · exact ⟨.inl ⟨b, hruns⟩, h⟩
    · exact ⟨.inr ⟨k, hruns⟩, h⟩
  | rxFail h => exact ⟨⟨_, hruns⟩, h⟩
  | badTrigger hk =>
    rcases hruns with ⟨w, hc, hd⟩ | ⟨it, hc, hi, hd⟩
    · exact .inl ⟨w, hc, illegal_of_absent_trigger hwf hd hk⟩
    · cases decodeCommand_port hd

theorem ChoiceFaults.cause {c : Choice} {s t : State} (hwf : s.cfg.wf = true) (h : ChoiceFaults c s t) :
    FaultCause c s t.faultCode := by
  cases h with
  | event hc hd hr => exact hr.cause hwf (.inl ⟨_, hc, hd⟩)
  | illegalEvent hc hd => exact .inl ⟨_, hc, illegal_of_decode hwf (by simp [hd])⟩
  | command hc hi hd hr =>
    rw [State.advance_faultCode]
    exact hr.cause hwf (.inr ⟨_, hc, hi, hd⟩)
  | illegalCommand hc hi hd =>
    rw [State.advance_faultCode]
    exact .inr ⟨_, hc, hi, illegal_of_decode hwf (by simp [hd])⟩
  | leak hc hi hl => exact ⟨hc, hi, hl⟩

end Sys2Proof.Machine

open Sys2Proof Sys2Proof.Machine

/-- Settles O58: a step keeps the record, or it records a fault on a block that was not halted. -/
theorem stepKeepsFaultRecord : Obligations.StepKeepsFaultRecord := by
  intro s t h hx
  obtain ⟨c, rest, hc⟩ := step_choice hx
  have hb : FaultInv (s.begin rest) := h.of_record ⟨rfl, rfl, rfl, rfl⟩
  rcases stepChoice_record hc with hs | ⟨hlive, hf⟩
  · exact ⟨hb.of_record hs, fun hh => ⟨hs.halted.trans hh, hs.faultCode, hs.faultWord, hs.faultCtx⟩⟩
  · obtain ⟨hhalted, hcode⟩ := hf.recorded
    exact ⟨.of_recorded hhalted hcode, fun hh => absurd (hh.symm.trans hlive) (by decide)⟩

/-- Settles O49: of the ways a choice answers a next state the faults alone halt the block. -/
theorem faultsArePrecise : Obligations.FaultsArePrecise := by
  intro c s t hh hx ht
  have hf := stepChoice_halts hh hx ht
  refine ⟨hf.frame, hf.recorded.2, fun w hc => ?event, fun it hc hi => ?command, fun hc hi => ?ends⟩
  case event =>
    subst hc
    obtain ⟨code, ctx, rfl, hok, herror⟩ := hf.of_event
    refine ⟨rfl, rfl, fun i hd => (hok i hd).trans ?_, herror⟩
    cases i <;> rfl
  case command =>
    subst hc
    obtain ⟨code, rfl⟩ := hf.of_item hi
    refine ⟨State.advance_faultWord _ _, State.advance_faultCtx _ _, ?_⟩
    rw [State.advance_rsp, State.advance_faultCode]
    exact congrArg some (faultResponse_eq code)
  case ends =>
    subst hc
    obtain rfl := hf.of_end hi
    exact ⟨rfl, rfl⟩

/-- Settles O50: what an instruction raises a fault for is its row's cause, an illegal word is one that does not decode or
triggers an absent id, and the leak is found at the end of a program. -/
theorem faultsHaveTheirCauses : Obligations.FaultsHaveTheirCauses :=
  fun _ _ _ hwf hh hx ht => (stepChoice_halts hh hx ht).cause hwf

end

section
/-! PROOFS for the halted block: what it answers to commands and that nothing else changes it (O51). -/

namespace Sys2Proof.Machine

/-! ### Words on a halted block (R302) -/

/-- A halted block answers every command but CSR.READ with its fault code. -/
theorem exec_command_halted {i : Instr} {s : State} (hh : s.halted = true) (hp : i.port = .command)
    (hread : ∀ r, i ≠ .csrRead r) : exec i s = .next (s.respond (faultResponse s.faultCode)) := by
  cases i with
  | csrRead r => exact absurd rfl (hread r)
  | dispWaitdrain =>
    have hw : ¬ s.waiting = true := by simp [State.waiting, hh]
    rw [exec_waitdrain_command hw, runCommand_halted hh]
  | resClassify status polled => rw [exec, execResClassify, runCommand_halted hh]
  | evI2cSb | evI2cTxe | evI2cErr | evSpiRx | evSpiRxfail | evSwTrigger => cases hp
  | _ => exact runCommand_halted hh _ _

/-- A halted block ignores every event. -/
theorem exec_event_halted {i : Instr} {s : State} (hh : s.halted = true) (hp : i.port = .event) :
    exec i s = .next s := by
  cases i with
  | evI2cSb | evI2cTxe | evI2cErr | evSpiRx | evSpiRxfail | evSwTrigger => exact runEvent_halted hh _ _ _ _
  | _ => cases hp

theorem presentEvent_halted {s : State} (hh : s.halted = true) (w : Word) : presentEvent w s = .next s := by
  cases hd : decode .event w with
  | ok i => rw [presentEvent_of_ok hd, exec_event_halted hh (decode_hasWord hd).port]
  | error e => rw [presentEvent_of_error hd, if_pos hh]

theorem issueCommand_halted {s : State} {w : Word} (hh : s.halted = true)
    (hread : ∀ r, decode .command w ≠ .ok (.csrRead r)) :
    issueCommand w s = .next { s with rsp := some (BitVec.ofNat 32 (2 ^ 31 + s.faultCode.code.toNat)) } := by
  cases hd : decode .command w with
  | ok i =>
    have hi : ∀ r, i ≠ .csrRead r := fun r hr => hread r (hr ▸ hd)
    rw [issueCommand_of_ok hd, exec_command_halted hh (decodeCommand_port hd) hi, faultResponse_eq]
    rfl
  | error e => rw [issueCommand_of_error hd, if_pos hh]

theorem issueCommand_csrRead_halted {s : State} {w : Word} {r : Csr} (hh : s.halted = true)
    (hd : decode .command w = .ok (.csrRead r)) :
    issueCommand w s = .next { s with rsp := some (BitVec.ofNat 32 (csrFields r s)) } := by
  rw [issueCommand_of_ok hd, exec_csrRead_value (.inl hh)]

/-! ### Choices on a halted block -/

/-- No handler is deliverable on a halted block (R309). -/
theorem State.canDeliver_halted {s : State} (hh : s.halted = true) (h : Handler) : s.canDeliver h = false := by
  simp [State.canDeliver, State.deliverable, hh]

/-- The two kinds of steps of a halted block: a word that the event port ignores, and an answered command. -/
inductive HaltedNext (s : State) : Choice → State → Prop
  | ignored (w : Word) : HaltedNext s (.event w) s
  | answered {it : Item} (hi : s.item = some it) (v : Word) : HaltedNext s .context ((s.respond v).advance it)

/-- A command that a halted block answers changes the response alone. -/
theorem exec_command_halted_next {i : Instr} {s t : State} (hh : s.halted = true) (hp : i.port = .command)
    (hx : exec i s = .next t) : ∃ v, t = s.respond v := by
  cases exec_next hx with
  | haltedCommand => exact ⟨_, rfl⟩
  | haltedEvent _ he => exact absurd (he.symm.trans hp) (by decide)
  | commandFault hlive | eventFault hlive | done hlive => exact absurd (hh.symm.trans hlive) (by decide)

/-- What a step on a halted block can be. -/
theorem stepChoice_halted {c : Choice} {s t : State} (hh : s.halted = true) (h : stepChoice c s = .next t) :
    HaltedNext s c t := by
  cases stepChoice_next h with
  | event hc hd hx =>
    rw [exec_event_halted hh (decode_hasWord hd).port] at hx
    cases hx
    exact hc ▸ .ignored _
  | ignoredEvent hc => exact hc ▸ .ignored _
  | command hc hf hi hd hx =>
    obtain ⟨v, rfl⟩ := exec_command_halted_next hh (decodeCommand_port hd) hx
    exact hc ▸ .answered hi v
  | answeredCommand hc hf hi => exact hc ▸ .answered hi _
  | enter hc he hd => simp [State.canDeliver_halted hh] at hd
  | illegalEvent _ _ hlive | illegalCommand _ _ _ _ hlive | leak _ _ _ hlive | handlerEnds _ _ _ hlive
  | idleEnds _ _ _ hlive | byteOut _ hlive | loseTxe _ hlive | loseSb _ hlive | loseSpi _ hlive =>
    exact absurd (hh.symm.trans hlive) (by decide)

/-- A context at an item steps on a halted block as soon as its command is answered: nothing is forced there (R309). -/
theorem contextStep_halted {s : State} {it : Item} {v : Word} (hh : s.halted = true) (hi : s.item = some it)
    (he : ¬ (s.running.ctx = 0 ∧ s.idleDone = true)) (hx : issueCommand it.word s = .next { s with rsp := some v }) :
    contextStep s = .next
      { s with rsp := some v, running := { s.running with place := placeAfter it v s.running.place } } := by
  rw [contextStep_of_item (State.forced_of_halted hh) he hi, hx]
  rfl

end Sys2Proof.Machine

open Sys2Proof Sys2Proof.Machine

/-- Settles O51: the block's only steps are `HaltedNext`'s, and a command's answer depends on whether it decodes to a
CSR.READ. -/
theorem haltedBlockIsQuiescent : Obligations.HaltedBlockIsQuiescent := by
  intro c s hh
  refine ⟨fun t hx => ?frame, fun w hw => issueCommand_halted hh hw, presentEvent_halted hh, fun k t hx => ?enter,
    fun t hi hx => ?ends, fun it hi he => ?answer, fun a t ha hx => ?agent⟩
  case frame =>
    cases stepChoice_halted hh hx with
    | ignored => rfl
    | answered => rw [State.advance_eq]; rfl
  case enter => cases stepChoice_halted hh hx
  case ends =>
    cases stepChoice_halted hh hx with
    | answered hit => cases hit.symm.trans hi
  case answer =>
    by_cases hr : ∃ r, decode .command it.word = .ok (.csrRead r)
    · obtain ⟨r, hd⟩ := hr
      exact ⟨_, contextStep_halted hh hi he (issueCommand_csrRead_halted hh hd), by simp [hd],
        fun hn => absurd hd (hn r)⟩
    · have hr : ∀ r, decode .command it.word ≠ .ok (.csrRead r) := not_exists.mp hr
      exact ⟨_, contextStep_halted hh hi he (issueCommand_halted hh hr), fun r hd => absurd hd (hr r), fun _ => rfl⟩
  case agent => rcases ha with rfl | rfl | rfl | rfl <;> cases stepChoice_halted hh hx

end

section
/-! PROOFS for delivery and scheduling: the running context steps only when no delivery is forced, and ties are open (O9);
a bus event is refused exactly when it has no delivery (O10). -/

namespace Sys2Proof.Machine

/-! ### The context's step and forced deliveries (R309) -/

theorem mapNext_refused {r : Result} {f : State → State} {e : Refusal} (h : mapNext r f = .refused e) :
    r = .refused e := by
  cases r with
  | next u => cases h
  | fault e' => cases h
  | refused e' => exact h

theorem issueCommand_ne_deliveryForced {w : Word} {s : State} : issueCommand w s ≠ .refused .deliveryForced := by
  intro h
  have hd := issueCommand_refused h
  rw [issueCommand_of_ok hd] at h
  rcases exec_refused h with ⟨hp, -⟩ | ⟨-, -, hr⟩
  · cases hp
  · cases hr

theorem endOfProgram_ne_deliveryForced {s : State} : endOfProgram s ≠ .refused .deliveryForced := by
  intro h
  unfold endOfProgram at h
  split_ifs at h
  · cases h
  · split at h <;> cases h

/-- A forced delivery is the only reason for this refusal. -/
theorem contextStep_deliveryForced {s : State} (hh : s.halted = false) :
    contextStep s = .refused .deliveryForced ↔ ¬ NothingForced s := by
  rw [← State.forced_zero_iff hh]
  constructor
  · intro h hf
    simp only [contextStep, hf, ne_eq, not_true_eq_false, if_false] at h
    split_ifs at h
    · cases h
    · split at h
      · exact issueCommand_ne_deliveryForced (mapNext_refused h)
      · exact endOfProgram_ne_deliveryForced h
  · intro hf
    rw [contextStep, if_pos hf]

/-- Of two available handlers of one priority either may be delivered (R310). -/
theorem State.canDeliver_of_tied {s : State} {h₁ h₂ : Handler} (ha : s.avail h₂ = true)
    (hp : h₁.prio s.cfg = h₂.prio s.cfg) (hd : s.canDeliver h₁ = true) : s.canDeliver h₂ = true := by
  rw [State.canDeliver_iff, State.deliverable_iff, hp] at hd
  obtain ⟨⟨hlive, -, habove⟩, hforced⟩ := hd
  exact State.canDeliver_iff.mpr ⟨State.deliverable_iff.mpr ⟨hlive, ha, habove⟩, hforced⟩

/-! ### Bus events without a delivery (R311) -/

section
variable {s : State} (hh : s.halted = false)
include hh

theorem runEvent_refused_iff {w : Word} {c : CtxId} {d : Bool} {a : Attempt} :
    runEvent w c d s a = .refused .eventNotDeliverable ↔ ¬ d = true := by
  refine ⟨fun h => by simp [(runEvent_refused h).2.1], fun hd => ?_⟩
  rw [Bool.not_eq_true] at hd
  rw [hd, runEvent_undeliverable hh]

/-- An I2C event is refused exactly when its own condition p fails or the handler has no turn. -/
theorem runI2c_refused_iff {p : Prop} {i : Instr} {condition : Bool} {a : Attempt} (hcond : condition = true ↔ p)
    (havail : p → s.avail .i2c = true) :
    runI2c i condition s a = .refused .eventNotDeliverable ↔ ¬ (p ∧ Turn s s.cfg.prioI2c) := by
  rw [runI2c, runEvent_refused_iff hh, Bool.and_eq_true, State.canDeliver_iff_turn rfl, hcond]
  exact not_congr (and_congr_right fun h => and_iff_right (havail h))

/-- An SPI event is refused exactly when no byte is outstanding or the handler has no turn. -/
theorem runSpi_refused_iff {i : Instr} {a : Attempt} :
    runSpi i s a = .refused .eventNotDeliverable ↔ ¬ (s.spiBusy = true ∧ Turn s s.cfg.prioSpi) := by
  rw [runSpi, runEvent_refused_iff hh, Bool.and_eq_true, State.canDeliver_iff_turn rfl]
  exact not_congr (and_congr_right fun h => and_iff_right h)

end

end Sys2Proof.Machine

open Sys2Proof Sys2Proof.Machine

/-- Settles O9: `forced` is 0 exactly when every ready handler is masked, and it looks at a handler's priority alone. -/
theorem forcedDeliveriesComeFirst : Obligations.ForcedDeliveriesComeFirst :=
  ⟨fun _ hh => contextStep_deliveryForced hh, fun _ _ _ _ ha hp hd => State.canDeliver_of_tied ha hp hd⟩

/-- Settles O10: an event's delivery condition is its agent's own and its handler's turn. -/
theorem undeliverableEventsAreRefused : Obligations.UndeliverableEventsAreRefused := by
  intro s hh
  refine ⟨?address, ?byte, fun k => ?error, fun b => runSpi_refused_iff hh, fun k => runSpi_refused_iff hh⟩
  case address => exact runI2c_refused_iff hh beq_iff_eq fun hp => State.avail_i2c.mpr (.inl hp)
  case byte =>
    rw [← and_assoc]
    exact runI2c_refused_iff hh (by simp) fun hp => State.avail_i2c.mpr (.inr (.inr hp.1))
  case error => exact runI2c_refused_iff hh State.avail_i2c State.avail_i2c.mpr

end

section
/-! PROOFS for the trigger (O39), a software handler's entry (O40) and the end of a program (O41). -/

namespace Sys2Proof.Machine

/-! ### PENDING's bits (R51) -/

theorem getLsbD_setPending (p : BitVec 16) (j k : CtxId) :
    (p ||| pendingBit k).getLsbD j.toNat = (decide (j = k) || p.getLsbD j.toNat) := by
  rw [BitVec.getLsbD_or, getLsbD_pendingBit, Bool.or_comm]

theorem getLsbD_clearPending (p : BitVec 16) (j k : CtxId) :
    (p &&& ~~~(pendingBit k)).getLsbD j.toNat = (!decide (j = k) && p.getLsbD j.toNat) := by
  have hj : j.toNat < 16 := j.isLt
  rw [BitVec.getLsbD_and, BitVec.getLsbD_not, getLsbD_pendingBit, decide_eq_true hj, Bool.true_and, Bool.and_comm]

theorem exec_trigger_sets {s : State} {k : CtxId} (hh : s.halted = false) (hk : (s.cfg.swEntry k).isSome = true) :
    exec (.evSwTrigger k) s = .next { s with pending := s.pending ||| pendingBit k } := by
  simp only [exec, execEvSwTrigger, if_pos hk]
  exact runEvent_running hh _ _ _

/-! ### A handler's entry (R309, R312) -/

section
variable {s : State} {k : CtxId} {e : SwEntry} (he : s.cfg.swEntry k = some e)
include he

/-- A software handler may be delivered exactly when it is pending and has its turn. -/
theorem State.canDeliver_sw_iff : s.canDeliver (.sw k) = true ↔ s.isPending k = true ∧ Turn s e.prio :=
  State.canDeliver_iff_turn (by simp only [Handler.prio, he])

theorem enterHandler_refused (hd : ¬ s.canDeliver (.sw k) = true) :
    enterHandler k s = .refused .handlerNotDeliverable := by
  simp only [enterHandler, he, if_neg hd]

theorem enterHandler_enters (hd : s.canDeliver (.sw k) = true) :
    enterHandler k s = .next { s with
      pending := s.pending &&& ~~~(pendingBit k)
      running := { ctx := k, base := e.prio, cur := e.prio, claims := [], place := placeAtStart e.program }
      preempted := s.running :: s.preempted } := by
  simp only [enterHandler, he, if_pos hd]

end

/-! ### The end of a program (R313) -/

section
variable {s : State}

/-- With no delivery forced a context at the end of its program takes the end-of-program step. -/
theorem contextStep_of_end (hf : s.forced = 0) (he : ¬ (s.running.ctx = 0 ∧ s.idleDone = true)) (hi : s.item = none) :
    contextStep s = endOfProgram s := by
  simp only [contextStep, hf, ne_eq, not_true_eq_false, if_false, if_neg he, hi]

variable (hh : s.halted = false)
include hh

theorem endOfProgram_leak (hl : s.running.claims ≠ []) :
    endOfProgram s = .next (eventFault s .arbClaimLeak 0 s.running.ctx) := by
  rw [endOfProgram, if_neg (by simp [hh]), if_pos hl]
  rfl

theorem endOfProgram_pops {f : Frame} {rest : List Frame} (hl : s.running.claims = []) (hx : s.running.ctx ≠ 0)
    (hp : s.preempted = f :: rest) : endOfProgram s = .next { s with running := f, preempted := rest } := by
  rw [endOfProgram, if_neg (by simp [hh]), if_neg (not_not.mpr hl), if_pos hx, hp]

theorem endOfProgram_idle (hl : s.running.claims = []) (hx : s.running.ctx = 0) :
    endOfProgram s = .next { s with idleDone := true } := by
  rw [endOfProgram, if_neg (by simp [hh]), if_neg (not_not.mpr hl), if_neg (not_not.mpr hx)]

end

end Sys2Proof.Machine

open Sys2Proof Sys2Proof.Machine

/-- Settles O39: SW_CTX alone decides between the bit and the fault. -/
theorem triggerSetsPending : Obligations.TriggerSetsPending := by
  intro k s hh
  refine ⟨fun habsent => exec_trigger_of_absent hh (by simp [habsent]), fun e he => ?_⟩
  exact ⟨_, exec_trigger_sets hh (by simp [he]), fun j => getLsbD_setPending s.pending j k⟩

/-- Settles O40: the pending bit and the turn are what `canDeliver` asks for. -/
theorem handlerEntry : Obligations.HandlerEntry := by
  intro k e s he
  have hdeliver := State.canDeliver_sw_iff he
  refine ⟨fun hn => enterHandler_refused he (mt hdeliver.mp hn), fun hp hturn => ?_⟩
  exact ⟨_, enterHandler_enters he (hdeliver.mpr ⟨hp, hturn⟩), fun j => getLsbD_clearPending s.pending j k⟩

/-- Settles O41: the claims and then the context decide what the step does; after a handler's end a forced delivery comes
before the resumed context. -/
theorem endOfProgram : Obligations.EndOfProgram := by
  intro s hh hn hi he
  have hstep := contextStep_of_end (State.forced_of_nothing hn) he hi
  refine ⟨fun hl => hstep.trans (endOfProgram_leak hh hl), fun f rest hl hx hp => ⟨?pop, fun hforced => ?wait⟩,
    fun hl hx => hstep.trans (endOfProgram_idle hh hl hx)⟩
  case pop => exact hstep.trans (endOfProgram_pops hh hl hx hp)
  case wait =>
    have hlive : State.halted { s with running := f, preempted := rest } = false := hh
    exact (contextStep_deliveryForced hlive).mpr hforced

end

section
/-! PROOFS for the bus agents' own steps (O42) and for final states (O59). -/

namespace Sys2Proof.Machine

theorem agentStep_refused {possible halted : Bool} {t : State} (h : halted = true ∨ possible = false) :
    agentStep possible t halted = .refused .agentHasNoStep := by
  rcases h with rfl | rfl <;> simp [agentStep]

theorem agentStep_possible {possible halted : Bool} {t : State} (hh : halted = false) (hp : possible = true) :
    agentStep possible t halted = .next t := by
  simp [agentStep, hh, hp]

/-- In a final state the idle context has finished its program and has no step (R313, R319). -/
theorem Final.contextStep_ne_next {s t : State} (h : Final s) : contextStep s ≠ .next t := by
  obtain ⟨-, hctx, -, hdone⟩ := h.idleAlone
  rw [contextStep, if_pos (And.intro hctx hdone)]
  split_ifs <;> simp

/-- On a quiet bus, with no byte outstanding and nothing pending, a choice that is possible is the running context's or an
event word that nobody owes. -/
theorem stepChoice_next_of_quiet {c : Choice} {s t : State} (hh : s.halted = false) (hp : s.pending = 0)
    (hb : s.spiBusy = false) (hq : I2cQuiet s) (hx : stepChoice c s = .next t) :
    c = .context ∨ ∃ w, c = .event w ∧ Unowed w := by
  obtain ⟨hsb, hbusy, htxe⟩ := hq.not_offering
  have hspi : ¬ s.spiBusy = true := by simp [hb]
  cases stepChoice_next hx with
  | event hc =>
    subst hc
    refine .inr ⟨_, rfl, by_contra fun howed => ?_⟩
    obtain ⟨i, hd, hbus⟩ := owed_bus_event howed
    have hexec : exec i s = .next t := (presentEvent_of_ok hd s).symm.trans hx
    rcases exec_bus_event_next hh hbus hexec with h | h | h
    · exact hsb h
    · exact htxe h
    · exact hspi h
  | illegalEvent hc hd => exact .inr ⟨_, hc, fun i hi => by cases hd.symm.trans hi⟩
  | ignoredEvent hc hhalted => exact absurd (hhalted.symm.trans hh) (by decide)
  | enter hc =>
    subst hc
    exact absurd hx (enterHandler_no_pending hp _)
  | byteOut hc _ hphase => exact absurd hphase hbusy
  | loseTxe hc _ hphase harmed => exact absurd ⟨hphase, harmed⟩ htxe
  | loseSb hc _ hphase => exact absurd hphase hsb
  | loseSpi hc _ hout => exact absurd hout hspi
  | command hc | illegalCommand hc | answeredCommand hc | leak hc | handlerEnds hc | idleEnds hc => exact .inl hc

end Sys2Proof.Machine

open Sys2Proof Sys2Proof.Machine

/-- Settles O42: each step is its condition's. -/
theorem agentSteps : Obligations.AgentSteps := by
  intro s
  refine ⟨fun hh hp => agentStep_possible hh (by simp [hp]), fun h => agentStep_refused (by simpa using h),
    fun hp hfinal => ?notFinal, fun hh hl hp ha => agentStep_possible hh (by simp [hl, hp, ha]),
    fun hh hl hp => agentStep_possible hh (by simp [hl, hp]), fun hh hl hb => agentStep_possible hh (by simp [hl, hb]),
    fun h => agentStep_refused ?_,
    fun h => agentStep_refused ?_, fun h => agentStep_refused ?_⟩
  case notFinal => exact (I2cQuiet.not_offering hfinal.i2cQuiet).2.1 hp
  all_goals simpa only [Bool.and_eq_false_iff, beq_eq_false_iff_ne, or_assoc] using h

/-- Settles O59: in a final state the bus is quiet, nothing is pending, and the context has no step. -/
theorem finalStatesRest : Obligations.FinalStatesRest := by
  intro c s t hfinal hx
  rcases stepChoice_next_of_quiet hfinal.running hfinal.noPending hfinal.spiQuiet hfinal.i2cQuiet hx with rfl | hevent
  · exact absurd hx hfinal.contextStep_ne_next
  · exact hevent

end
